-- ==== Sys2Proof/Word.lean ====
section
/-! DEFINITION. The word types of the riscv-vm RV32 core (00_scope.md R2, R6). -/

namespace Sys2Proof

/-- A register value, an address or an instruction: a 32-bit pattern (R2 `XLEN`, `FLEN`, `ILEN`; R6). -/
abbrev Word := BitVec 32

/-- The smallest addressable unit of memory (R60). -/
abbrev Byte := BitVec 8

/-- A register index: a 5-bit field of an instruction (R20, R31, R91). -/
abbrev Reg := BitVec 5

end Sys2Proof
end

