-- ==== Sys2Proof/Config.lean ====
section
/-! DEFINITION. The implementation parameters of 00_scope.md R2 and the free values. The parameters are plain data, so
that State can hold them and one step function covers every configuration (log 12). -/

namespace Sys2Proof

/-- The optional extensions (R2, D1). -/
inductive Extension where
  | m | a | f | zicsr | zifencei
  deriving DecidableEq, Repr

/-- `F2I_ROUND` (R2, R309): how FCVT.W.S and FCVT.WU.S round. -/
inductive F2IRound where
  /-- To nearest, ties to even: the decided value (D13). -/
  | rne
  /-- Truncation toward zero: the alternative R309 names. -/
  | rtz
  deriving DecidableEq, Repr

/-- The instructions whose result can be `NAN_RESULT` (R293). -/
inductive FOp where
  | fadd | fsub | fmul | fdiv | fsqrt | fmin | fmax | fmadd | fmsub | fnmsub | fnmadd
  deriving DecidableEq, Repr

/-- What `NAN_RESULT` is (R2, R293, D14). Every setting gives a quiet NaN, by the form of `nanResult`. -/
inductive NanRule where
  /-- One quiet NaN for every instruction and operands: this sign and this payload (fraction bits 21 to 0). -/
  | constant (sign : BitVec 1) (payload : BitVec 22)
  /-- Not known: sign and payload are the free value `Config.freeNan` of the instruction and its operands. -/
  | unspecified
  deriving DecidableEq, Repr

/-- Sign and payload of the NaN an instruction gives for its operand patterns, where `NAN_RESULT` is left open
(R293: "a function of the instruction and its operand patterns"). A free value: nothing constrains it (log 4). -/
opaque Config.freeNan : FOp → Word → Word → Word → BitVec 23

/-- What `csr_cycle` becomes when it would pass 2^64 - 1, which the spec leaves out (R28, D25). A free value, a fresh one
for each index (log 6). -/
opaque Config.cyclePastMax : Nat → BitVec 64

/-- The implementation parameters (R2). -/
structure Params where
  extM : Bool
  extA : Bool
  extF : Bool
  extZicsr : Bool
  extZifencei : Bool
  /-- `DEFAULT_SP` (R393). -/
  defaultSp : Word
  f2iRound : F2IRound
  nanRule : NanRule
  deriving DecidableEq, Repr

/-- Is the extension present? (R2, R117) -/
def Params.has (p : Params) : Extension → Bool
  | .m => p.extM
  | .a => p.extA
  | .f => p.extF
  | .zicsr => p.extZicsr
  | .zifencei => p.extZifencei

/-- The values R2 gives for this hardware. `DEFAULT_SP` is open there: DESIGN CHOICE 0x00100000, the value the spec's
own test vectors use (log 1, unsafe). `NAN_RESULT` is R293's default constant 0x7FC00000 (log 4). -/
def Params.default : Params where
  extM := true
  extA := true
  extF := true
  extZicsr := true
  extZifencei := true
  defaultSp := 0x00100000#32
  f2iRound := .rne
  nanRule := .constant 0#1 0#22

/-- The premise on `DEFAULT_SP`: 16-byte-aligned (R393). -/
def Params.spAligned (p : Params) : Bool := p.defaultSp.extractLsb' 0 4 == 0#4

end Sys2Proof
end

