-- ==== Sys2Proof/Syntax.lean ====
section
/-! DEFINITION. The 92 instructions of spec/opcode_table.json, one constructor each, with every operand field of the
encoding (30_encoding.md R91 to R99). Fields the hardware decodes and ignores (R115) are kept as well, so that the encoder
loses no bit (log 11): `rm`, `aq`, `rl`, the upper bits of the immediate shifts, the operand fields of the fences, and `rd`,
`rs1` and the low two bits of ECALL and EBREAK, whose whole word goes to the environment. -/

namespace Sys2Proof

/-- One constructor per row of the opcode table. -/
inductive Instr where
  -- upper immediates (R131, R132): `imm` is `inst[31:12]`
  | lui (rd : Reg) (imm : BitVec 20)
  | auipc (rd : Reg) (imm : BitVec 20)
  -- jumps (R171, R172)
  | jal (rd : Reg) (imm : BitVec 21)
  | jalr (rd rs1 : Reg) (imm : BitVec 12)
  -- branches (R173 to R179)
  | beq (rs1 rs2 : Reg) (imm : BitVec 13)
  | bne (rs1 rs2 : Reg) (imm : BitVec 13)
  | blt (rs1 rs2 : Reg) (imm : BitVec 13)
  | bge (rs1 rs2 : Reg) (imm : BitVec 13)
  | bltu (rs1 rs2 : Reg) (imm : BitVec 13)
  | bgeu (rs1 rs2 : Reg) (imm : BitVec 13)
  -- loads (R190 to R195)
  | lb (rd rs1 : Reg) (imm : BitVec 12)
  | lh (rd rs1 : Reg) (imm : BitVec 12)
  | lw (rd rs1 : Reg) (imm : BitVec 12)
  | lbu (rd rs1 : Reg) (imm : BitVec 12)
  | lhu (rd rs1 : Reg) (imm : BitVec 12)
  -- stores (R196 to R199)
  | sb (rs1 rs2 : Reg) (imm : BitVec 12)
  | sh (rs1 rs2 : Reg) (imm : BitVec 12)
  | sw (rs1 rs2 : Reg) (imm : BitVec 12)
  -- register-immediate (R133 to R138)
  | addi (rd rs1 : Reg) (imm : BitVec 12)
  | slti (rd rs1 : Reg) (imm : BitVec 12)
  | sltiu (rd rs1 : Reg) (imm : BitVec 12)
  | xori (rd rs1 : Reg) (imm : BitVec 12)
  | ori (rd rs1 : Reg) (imm : BitVec 12)
  | andi (rd rs1 : Reg) (imm : BitVec 12)
  -- immediate shifts (R139 to R141); `hi` is `inst[31:25]`, `b31` is `inst[31]`, `b29` is `inst[29:25]`, all ignored
  | slli (rd rs1 : Reg) (shamt : BitVec 5) (hi : BitVec 7)
  | srli (rd rs1 : Reg) (shamt : BitVec 5) (b31 : BitVec 1) (b29 : BitVec 5)
  | srai (rd rs1 : Reg) (shamt : BitVec 5) (b31 : BitVec 1) (b29 : BitVec 5)
  -- register-register (R142 to R151)
  | add (rd rs1 rs2 : Reg)
  | sub (rd rs1 rs2 : Reg)
  | sll (rd rs1 rs2 : Reg)
  | slt (rd rs1 rs2 : Reg)
  | sltu (rd rs1 rs2 : Reg)
  | xor (rd rs1 rs2 : Reg)
  | srl (rd rs1 rs2 : Reg)
  | sra (rd rs1 rs2 : Reg)
  | or (rd rs1 rs2 : Reg)
  | and (rd rs1 rs2 : Reg)
  -- fences (R200, R201): every field is ignored
  | fence (rd rs1 : Reg) (succ pred fm : BitVec 4)
  | fenceI (rd rs1 : Reg) (imm : BitVec 12)
  -- environment calls (R210, R211): `lo` is `inst[1:0]`
  | ecall (rd rs1 : Reg) (lo : BitVec 2)
  | ebreak (rd rs1 : Reg) (lo : BitVec 2)
  -- CSR access (R213 to R219)
  | csrrw (rd rs1 : Reg) (csr : BitVec 12)
  | csrrs (rd rs1 : Reg) (csr : BitVec 12)
  | csrrc (rd rs1 : Reg) (csr : BitVec 12)
  | csrrwi (rd : Reg) (zimm : BitVec 5) (csr : BitVec 12)
  | csrrsi (rd : Reg) (zimm : BitVec 5) (csr : BitVec 12)
  | csrrci (rd : Reg) (zimm : BitVec 5) (csr : BitVec 12)
  -- multiply and divide (R240 to R248)
  | mul (rd rs1 rs2 : Reg)
  | mulh (rd rs1 rs2 : Reg)
  | mulhsu (rd rs1 rs2 : Reg)
  | mulhu (rd rs1 rs2 : Reg)
  | div (rd rs1 rs2 : Reg)
  | divu (rd rs1 rs2 : Reg)
  | rem (rd rs1 rs2 : Reg)
  | remu (rd rs1 rs2 : Reg)
  -- atomics (R260 to R271); `aq` and `rl` are ignored
  | lrW (rd rs1 : Reg) (aq rl : BitVec 1)
  | scW (rd rs1 rs2 : Reg) (aq rl : BitVec 1)
  | amoswapW (rd rs1 rs2 : Reg) (aq rl : BitVec 1)
  | amoaddW (rd rs1 rs2 : Reg) (aq rl : BitVec 1)
  | amoxorW (rd rs1 rs2 : Reg) (aq rl : BitVec 1)
  | amoandW (rd rs1 rs2 : Reg) (aq rl : BitVec 1)
  | amoorW (rd rs1 rs2 : Reg) (aq rl : BitVec 1)
  | amominW (rd rs1 rs2 : Reg) (aq rl : BitVec 1)
  | amomaxW (rd rs1 rs2 : Reg) (aq rl : BitVec 1)
  | amominuW (rd rs1 rs2 : Reg) (aq rl : BitVec 1)
  | amomaxuW (rd rs1 rs2 : Reg) (aq rl : BitVec 1)
  -- floating-point load and store (R297, R298)
  | flw (rd rs1 : Reg) (imm : BitVec 12)
  | fsw (rs1 rs2 : Reg) (imm : BitVec 12)
  -- fused multiply-add (R319 to R322); `rm` is ignored
  | fmaddS (rd rs1 rs2 rs3 : Reg) (rm : BitVec 3)
  | fmsubS (rd rs1 rs2 rs3 : Reg) (rm : BitVec 3)
  | fnmsubS (rd rs1 rs2 rs3 : Reg) (rm : BitVec 3)
  | fnmaddS (rd rs1 rs2 rs3 : Reg) (rm : BitVec 3)
  -- floating-point arithmetic (R299 to R303); `rm` is ignored
  | faddS (rd rs1 rs2 : Reg) (rm : BitVec 3)
  | fsubS (rd rs1 rs2 : Reg) (rm : BitVec 3)
  | fmulS (rd rs1 rs2 : Reg) (rm : BitVec 3)
  | fdivS (rd rs1 rs2 : Reg) (rm : BitVec 3)
  | fsqrtS (rd rs1 : Reg) (rm : BitVec 3)
  -- sign injection, minimum, maximum (R304 to R308)
  | fsgnjS (rd rs1 rs2 : Reg)
  | fsgnjnS (rd rs1 rs2 : Reg)
  | fsgnjxS (rd rs1 rs2 : Reg)
  | fminS (rd rs1 rs2 : Reg)
  | fmaxS (rd rs1 rs2 : Reg)
  -- conversions to integer (R309, R310), move (R311), comparisons (R312 to R314), classify (R315)
  | fcvtWS (rd rs1 : Reg) (rm : BitVec 3)
  | fcvtWuS (rd rs1 : Reg) (rm : BitVec 3)
  | fmvXW (rd rs1 : Reg)
  | feqS (rd rs1 rs2 : Reg)
  | fltS (rd rs1 rs2 : Reg)
  | fleS (rd rs1 rs2 : Reg)
  | fclassS (rd rs1 : Reg)
  -- conversions from integer (R316, R317), move (R318)
  | fcvtSW (rd rs1 : Reg) (rm : BitVec 3)
  | fcvtSWu (rd rs1 : Reg) (rm : BitVec 3)
  | fmvWX (rd rs1 : Reg)
  deriving DecidableEq, Repr

end Sys2Proof
end

