-- ==== Sys2Proof/WellFormed.lean ====
section
/-! DEFINITION. Which terms of `Instr` an instruction word can spell, and which need an optional extension. -/

namespace Sys2Proof

/-- An offset is even: bit 0 of a B or J immediate has no place in the word (30_encoding.md R94, R96). -/
def evenOffset {n : Nat} (imm : BitVec n) : Bool := imm.getLsbD 0 == false

/-- The operand check: the branch and JAL offsets are even; every other field is as wide as its place in the word. -/
def Instr.wf : Instr → Bool
  | .jal _ imm => evenOffset imm
  | .beq _ _ imm => evenOffset imm
  | .bne _ _ imm => evenOffset imm
  | .blt _ _ imm => evenOffset imm
  | .bge _ _ imm => evenOffset imm
  | .bltu _ _ imm => evenOffset imm
  | .bgeu _ _ imm => evenOffset imm
  | .lui .. | .auipc .. | .jalr .. | .lb .. | .lh .. | .lw .. | .lbu .. | .lhu .. | .sb .. | .sh .. | .sw ..
  | .addi .. | .slti .. | .sltiu .. | .xori .. | .ori .. | .andi .. | .slli .. | .srli .. | .srai .. | .add ..
  | .sub .. | .sll .. | .slt .. | .sltu .. | .xor .. | .srl .. | .sra .. | .or .. | .and .. | .fence ..
  | .fenceI .. | .ecall .. | .ebreak .. | .csrrw .. | .csrrs .. | .csrrc .. | .csrrwi .. | .csrrsi ..
  | .csrrci .. | .mul .. | .mulh .. | .mulhsu .. | .mulhu .. | .div .. | .divu .. | .rem .. | .remu ..
  | .lrW .. | .scW .. | .amoswapW .. | .amoaddW .. | .amoxorW .. | .amoandW .. | .amoorW .. | .amominW ..
  | .amomaxW .. | .amominuW .. | .amomaxuW .. | .flw .. | .fsw .. | .fmaddS .. | .fmsubS .. | .fnmsubS ..
  | .fnmaddS .. | .faddS .. | .fsubS .. | .fmulS .. | .fdivS .. | .fsqrtS .. | .fsgnjS .. | .fsgnjnS ..
  | .fsgnjxS .. | .fminS .. | .fmaxS .. | .fcvtWS .. | .fcvtWuS .. | .fmvXW .. | .feqS .. | .fltS .. | .fleS ..
  | .fclassS .. | .fcvtSW .. | .fcvtSWu .. | .fmvWX .. => true

/-- The optional extension an instruction belongs to, if any (30_encoding.md R117). -/
def Instr.extension : Instr → Option Extension
  | .fenceI .. => some .zifencei
  | .csrrw .. | .csrrs .. | .csrrc .. | .csrrwi .. | .csrrsi .. | .csrrci .. => some .zicsr
  | .mul .. | .mulh .. | .mulhsu .. | .mulhu .. | .div .. | .divu .. | .rem .. | .remu .. => some .m
  | .lrW .. | .scW .. | .amoswapW .. | .amoaddW .. | .amoxorW .. | .amoandW .. | .amoorW .. | .amominW ..
  | .amomaxW .. | .amominuW .. | .amomaxuW .. => some .a
  | .flw .. | .fsw .. | .fmaddS .. | .fmsubS .. | .fnmsubS .. | .fnmaddS .. | .faddS .. | .fsubS .. | .fmulS ..
  | .fdivS .. | .fsqrtS .. | .fsgnjS .. | .fsgnjnS .. | .fsgnjxS .. | .fminS .. | .fmaxS .. | .fcvtWS ..
  | .fcvtWuS .. | .fmvXW .. | .feqS .. | .fltS .. | .fleS .. | .fclassS .. | .fcvtSW .. | .fcvtSWu ..
  | .fmvWX .. => some .f
  | .lui .. | .auipc .. | .jal .. | .jalr .. | .beq .. | .bne .. | .blt .. | .bge .. | .bltu .. | .bgeu ..
  | .lb .. | .lh .. | .lw .. | .lbu .. | .lhu .. | .sb .. | .sh .. | .sw .. | .addi .. | .slti .. | .sltiu ..
  | .xori .. | .ori .. | .andi .. | .slli .. | .srli .. | .srai .. | .add .. | .sub .. | .sll .. | .slt ..
  | .sltu .. | .xor .. | .srl .. | .sra .. | .or .. | .and .. | .fence .. | .ecall .. | .ebreak .. => none

/-- The instruction exists under these parameters (R117). -/
def Instr.present (p : Params) (i : Instr) : Bool :=
  match i.extension with
  | none => true
  | some e => p.has e

/-- Well-formed under the parameters: the offsets are even and the extension is there. -/
def Instr.wellFormed (p : Params) (i : Instr) : Bool := i.wf && i.present p

end Sys2Proof
end

