-- ==== Sys2Proof/Decode.lean ====
section
/-! DEFINITION. The decoder (30_encoding.md R90 to R118), total on every word and on any bytes, rejecting by name; after it
the encoder, written from the same tables. The selector values are those the spec marks as general knowledge (G1 to G6). -/

namespace Sys2Proof

/-! ## Field extractors (R91, R97, R98): each is total on every 32-bit word -/

/-- The dispatch slot `inst[6:2]` (R100). -/
def slotOf (w : Word) : BitVec 5 := w.extractLsb' 2 5
/-- `inst[1:0]`, examined by nothing (R100). -/
def lowOf (w : Word) : BitVec 2 := w.extractLsb' 0 2
/-- `rd`, `inst[11:7]`. -/
def rdOf (w : Word) : Reg := w.extractLsb' 7 5
/-- `funct3`, `inst[14:12]`; also `rm`. -/
def funct3Of (w : Word) : BitVec 3 := w.extractLsb' 12 3
/-- `rs1`, `inst[19:15]`; also `zimm`. -/
def rs1Of (w : Word) : Reg := w.extractLsb' 15 5
/-- `rs2`, `inst[24:20]`; also `shamt`. -/
def rs2Of (w : Word) : Reg := w.extractLsb' 20 5
/-- `funct7`, `inst[31:25]`. -/
def funct7Of (w : Word) : BitVec 7 := w.extractLsb' 25 7
/-- `rs3`, `inst[31:27]`; also `funct5`. -/
def rs3Of (w : Word) : Reg := w.extractLsb' 27 5
/-- `fmt`, `inst[26:25]`. -/
def fmtOf (w : Word) : BitVec 2 := w.extractLsb' 25 2
/-- `aq`, `inst[26]`. -/
def aqOf (w : Word) : BitVec 1 := w.extractLsb' 26 1
/-- `rl`, `inst[25]`. -/
def rlOf (w : Word) : BitVec 1 := w.extractLsb' 25 1
/-- The bit that tells SRAI from SRLI, `inst[30]` (R104). -/
def bit30Of (w : Word) : BitVec 1 := w.extractLsb' 30 1
/-- The 12 bits of the I immediate, `inst[31:20]` (R92); also `csr` (R97). -/
def iImmOf (w : Word) : BitVec 12 := w.extractLsb' 20 12
/-- The 12 bits of the S immediate (R93). -/
def sImmOf (w : Word) : BitVec 12 := w.extractLsb' 25 7 ++ w.extractLsb' 7 5
/-- The 13 bits of the B immediate (R94). -/
def bImmOf (w : Word) : BitVec 13 :=
  w.extractLsb' 31 1 ++ w.extractLsb' 7 1 ++ w.extractLsb' 25 6 ++ w.extractLsb' 8 4 ++ 0#1
/-- The 20 bits of the U immediate (R95). -/
def uImmOf (w : Word) : BitVec 20 := w.extractLsb' 12 20
/-- The 21 bits of the J immediate (R96). -/
def jImmOf (w : Word) : BitVec 21 :=
  w.extractLsb' 31 1 ++ w.extractLsb' 12 8 ++ w.extractLsb' 20 1 ++ w.extractLsb' 21 10 ++ 0#1

/-! ## Decoding -/

/-- Why a word is illegal (R114): its slot is unpopulated, or its slot's sub-decode gives no instruction. -/
inductive Illegal where
  /-- A slot R101 leaves unpopulated whatever the parameters (R116). -/
  | unpopulatedSlot
  /-- The encoding belongs to an extension that is absent (R117). -/
  | extensionAbsent (e : Extension)
  /-- `funct3` selects nothing in the slot. -/
  | funct3
  /-- `funct7` selects nothing in the slot. -/
  | funct7
  /-- `funct5` selects nothing in the AMO slot (R110). -/
  | funct5
  /-- The `rs2` field must hold another value (R110, R112). -/
  | rs2
  /-- `fmt` is not single precision (R113). -/
  | fmt
  /-- SYSTEM with `funct3 = 000` and an immediate other than 0 and 1 (R220). -/
  | systemImmediate
  /-- Fewer than the four bytes of an instruction (R90). -/
  | truncated
  deriving DecidableEq, Repr

/-- What the decoder answers: exactly one instruction, or illegal with its reason (R118). -/
inductive Decoded where
  | instr (i : Instr)
  | illegal (why : Illegal)
  deriving DecidableEq, Repr

/-- An encoding of an optional extension is there only when the extension is (R117). -/
def gate (p : Params) (e : Extension) (d : Decoded) : Decoded :=
  if p.has e then d else .illegal (.extensionAbsent e)

/-- LOAD (R102). -/
def decodeLoad (w : Word) : Decoded :=
  match funct3Of w with
  | 0b000#3 => .instr (.lb (rdOf w) (rs1Of w) (iImmOf w))
  | 0b001#3 => .instr (.lh (rdOf w) (rs1Of w) (iImmOf w))
  | 0b010#3 => .instr (.lw (rdOf w) (rs1Of w) (iImmOf w))
  | 0b100#3 => .instr (.lbu (rdOf w) (rs1Of w) (iImmOf w))
  | 0b101#3 => .instr (.lhu (rdOf w) (rs1Of w) (iImmOf w))
  | _ => .illegal .funct3

/-- LOAD-FP (R111). -/
def decodeLoadFp (w : Word) : Decoded :=
  match funct3Of w with
  | 0b010#3 => .instr (.flw (rdOf w) (rs1Of w) (iImmOf w))
  | _ => .illegal .funct3

/-- MISC-MEM (R108). -/
def decodeMiscMem (p : Params) (w : Word) : Decoded :=
  match funct3Of w with
  | 0b000#3 => .instr (.fence (rdOf w) (rs1Of w) (w.extractLsb' 20 4) (w.extractLsb' 24 4) (w.extractLsb' 28 4))
  | 0b001#3 => gate p .zifencei (.instr (.fenceI (rdOf w) (rs1Of w) (iImmOf w)))
  | _ => .illegal .funct3

/-- OP-IMM (R104): no word of the slot is illegal. -/
def decodeOpImm (w : Word) : Decoded :=
  match funct3Of w with
  | 0b000#3 => .instr (.addi (rdOf w) (rs1Of w) (iImmOf w))
  | 0b001#3 => .instr (.slli (rdOf w) (rs1Of w) (rs2Of w) (funct7Of w))
  | 0b010#3 => .instr (.slti (rdOf w) (rs1Of w) (iImmOf w))
  | 0b011#3 => .instr (.sltiu (rdOf w) (rs1Of w) (iImmOf w))
  | 0b100#3 => .instr (.xori (rdOf w) (rs1Of w) (iImmOf w))
  | 0b101#3 =>
    if bit30Of w = 0#1 then .instr (.srli (rdOf w) (rs1Of w) (rs2Of w) (w.extractLsb' 31 1) (w.extractLsb' 25 5))
    else .instr (.srai (rdOf w) (rs1Of w) (rs2Of w) (w.extractLsb' 31 1) (w.extractLsb' 25 5))
  | 0b110#3 => .instr (.ori (rdOf w) (rs1Of w) (iImmOf w))
  | _ => .instr (.andi (rdOf w) (rs1Of w) (iImmOf w))

/-- STORE (R103). -/
def decodeStore (w : Word) : Decoded :=
  match funct3Of w with
  | 0b000#3 => .instr (.sb (rs1Of w) (rs2Of w) (sImmOf w))
  | 0b001#3 => .instr (.sh (rs1Of w) (rs2Of w) (sImmOf w))
  | 0b010#3 => .instr (.sw (rs1Of w) (rs2Of w) (sImmOf w))
  | _ => .illegal .funct3

/-- STORE-FP (R111). -/
def decodeStoreFp (w : Word) : Decoded :=
  match funct3Of w with
  | 0b010#3 => .instr (.fsw (rs1Of w) (rs2Of w) (sImmOf w))
  | _ => .illegal .funct3

/-- AMO (R110): `aq` and `rl` select nothing. -/
def decodeAmo (w : Word) : Decoded :=
  if funct3Of w = 0b010#3 then
    match rs3Of w with
    | 0b00010#5 => if rs2Of w = 0#5 then .instr (.lrW (rdOf w) (rs1Of w) (aqOf w) (rlOf w)) else .illegal .rs2
    | 0b00011#5 => .instr (.scW (rdOf w) (rs1Of w) (rs2Of w) (aqOf w) (rlOf w))
    | 0b00001#5 => .instr (.amoswapW (rdOf w) (rs1Of w) (rs2Of w) (aqOf w) (rlOf w))
    | 0b00000#5 => .instr (.amoaddW (rdOf w) (rs1Of w) (rs2Of w) (aqOf w) (rlOf w))
    | 0b00100#5 => .instr (.amoxorW (rdOf w) (rs1Of w) (rs2Of w) (aqOf w) (rlOf w))
    | 0b01100#5 => .instr (.amoandW (rdOf w) (rs1Of w) (rs2Of w) (aqOf w) (rlOf w))
    | 0b01000#5 => .instr (.amoorW (rdOf w) (rs1Of w) (rs2Of w) (aqOf w) (rlOf w))
    | 0b10000#5 => .instr (.amominW (rdOf w) (rs1Of w) (rs2Of w) (aqOf w) (rlOf w))
    | 0b10100#5 => .instr (.amomaxW (rdOf w) (rs1Of w) (rs2Of w) (aqOf w) (rlOf w))
    | 0b11000#5 => .instr (.amominuW (rdOf w) (rs1Of w) (rs2Of w) (aqOf w) (rlOf w))
    | 0b11100#5 => .instr (.amomaxuW (rdOf w) (rs1Of w) (rs2Of w) (aqOf w) (rlOf w))
    | _ => .illegal .funct5
  else .illegal .funct3

/-- OP with `funct7 = 0000000` (R105). -/
def decodeOpBase (w : Word) : Decoded :=
  match funct3Of w with
  | 0b000#3 => .instr (.add (rdOf w) (rs1Of w) (rs2Of w))
  | 0b001#3 => .instr (.sll (rdOf w) (rs1Of w) (rs2Of w))
  | 0b010#3 => .instr (.slt (rdOf w) (rs1Of w) (rs2Of w))
  | 0b011#3 => .instr (.sltu (rdOf w) (rs1Of w) (rs2Of w))
  | 0b100#3 => .instr (.xor (rdOf w) (rs1Of w) (rs2Of w))
  | 0b101#3 => .instr (.srl (rdOf w) (rs1Of w) (rs2Of w))
  | 0b110#3 => .instr (.or (rdOf w) (rs1Of w) (rs2Of w))
  | _ => .instr (.and (rdOf w) (rs1Of w) (rs2Of w))

/-- OP with `funct7 = 0100000` (R105). -/
def decodeOpAlt (w : Word) : Decoded :=
  match funct3Of w with
  | 0b000#3 => .instr (.sub (rdOf w) (rs1Of w) (rs2Of w))
  | 0b101#3 => .instr (.sra (rdOf w) (rs1Of w) (rs2Of w))
  | _ => .illegal .funct3

/-- OP with `funct7 = 0000001`: the M extension (R105, R240). -/
def decodeOpMul (w : Word) : Decoded :=
  match funct3Of w with
  | 0b000#3 => .instr (.mul (rdOf w) (rs1Of w) (rs2Of w))
  | 0b001#3 => .instr (.mulh (rdOf w) (rs1Of w) (rs2Of w))
  | 0b010#3 => .instr (.mulhsu (rdOf w) (rs1Of w) (rs2Of w))
  | 0b011#3 => .instr (.mulhu (rdOf w) (rs1Of w) (rs2Of w))
  | 0b100#3 => .instr (.div (rdOf w) (rs1Of w) (rs2Of w))
  | 0b101#3 => .instr (.divu (rdOf w) (rs1Of w) (rs2Of w))
  | 0b110#3 => .instr (.rem (rdOf w) (rs1Of w) (rs2Of w))
  | _ => .instr (.remu (rdOf w) (rs1Of w) (rs2Of w))

/-- OP (R105), "funct7-gated". -/
def decodeOp (p : Params) (w : Word) : Decoded :=
  match funct7Of w with
  | 0b0000000#7 => decodeOpBase w
  | 0b0100000#7 => decodeOpAlt w
  | 0b0000001#7 => gate p .m (decodeOpMul w)
  | _ => .illegal .funct7

/-- One of the four fused multiply-adds: `fmt` must be `00`; `rm` selects nothing, the `111` an assembler
encodes when it is left out and the reserved values included (R113, R120, R292). -/
def decodeFused (mk : Reg → Reg → Reg → Reg → BitVec 3 → Instr) (w : Word) : Decoded :=
  if fmtOf w = 0b00#2 then .instr (mk (rdOf w) (rs1Of w) (rs2Of w) (rs3Of w) (funct3Of w)) else .illegal .fmt

/-- OP-FP (R112). In the rows with `rm` every value of it decodes alike, the `111` an assembler encodes when it is left out and
the reserved ones included (R120, R292). -/
def decodeOpFp (w : Word) : Decoded :=
  match funct7Of w with
  | 0b0000000#7 => .instr (.faddS (rdOf w) (rs1Of w) (rs2Of w) (funct3Of w))
  | 0b0000100#7 => .instr (.fsubS (rdOf w) (rs1Of w) (rs2Of w) (funct3Of w))
  | 0b0001000#7 => .instr (.fmulS (rdOf w) (rs1Of w) (rs2Of w) (funct3Of w))
  | 0b0001100#7 => .instr (.fdivS (rdOf w) (rs1Of w) (rs2Of w) (funct3Of w))
  | 0b0101100#7 => if rs2Of w = 0#5 then .instr (.fsqrtS (rdOf w) (rs1Of w) (funct3Of w)) else .illegal .rs2
  | 0b0010000#7 =>
    match funct3Of w with
    | 0b000#3 => .instr (.fsgnjS (rdOf w) (rs1Of w) (rs2Of w))
    | 0b001#3 => .instr (.fsgnjnS (rdOf w) (rs1Of w) (rs2Of w))
    | 0b010#3 => .instr (.fsgnjxS (rdOf w) (rs1Of w) (rs2Of w))
    | _ => .illegal .funct3
  | 0b0010100#7 =>
    match funct3Of w with
    | 0b000#3 => .instr (.fminS (rdOf w) (rs1Of w) (rs2Of w))
    | 0b001#3 => .instr (.fmaxS (rdOf w) (rs1Of w) (rs2Of w))
    | _ => .illegal .funct3
  | 0b1100000#7 =>
    match rs2Of w with
    | 0b00000#5 => .instr (.fcvtWS (rdOf w) (rs1Of w) (funct3Of w))
    | 0b00001#5 => .instr (.fcvtWuS (rdOf w) (rs1Of w) (funct3Of w))
    | _ => .illegal .rs2
  | 0b1110000#7 =>
    if rs2Of w = 0#5 then
      match funct3Of w with
      | 0b000#3 => .instr (.fmvXW (rdOf w) (rs1Of w))
      | 0b001#3 => .instr (.fclassS (rdOf w) (rs1Of w))
      | _ => .illegal .funct3
    else .illegal .rs2
  | 0b1010000#7 =>
    match funct3Of w with
    | 0b010#3 => .instr (.feqS (rdOf w) (rs1Of w) (rs2Of w))
    | 0b001#3 => .instr (.fltS (rdOf w) (rs1Of w) (rs2Of w))
    | 0b000#3 => .instr (.fleS (rdOf w) (rs1Of w) (rs2Of w))
    | _ => .illegal .funct3
  | 0b1101000#7 =>
    match rs2Of w with
    | 0b00000#5 => .instr (.fcvtSW (rdOf w) (rs1Of w) (funct3Of w))
    | 0b00001#5 => .instr (.fcvtSWu (rdOf w) (rs1Of w) (funct3Of w))
    | _ => .illegal .rs2
  | 0b1111000#7 =>
    if rs2Of w = 0#5 then
      match funct3Of w with
      | 0b000#3 => .instr (.fmvWX (rdOf w) (rs1Of w))
      | _ => .illegal .funct3
    else .illegal .rs2
  | _ => .illegal .funct7

/-- BRANCH (R106). -/
def decodeBranch (w : Word) : Decoded :=
  match funct3Of w with
  | 0b000#3 => .instr (.beq (rs1Of w) (rs2Of w) (bImmOf w))
  | 0b001#3 => .instr (.bne (rs1Of w) (rs2Of w) (bImmOf w))
  | 0b100#3 => .instr (.blt (rs1Of w) (rs2Of w) (bImmOf w))
  | 0b101#3 => .instr (.bge (rs1Of w) (rs2Of w) (bImmOf w))
  | 0b110#3 => .instr (.bltu (rs1Of w) (rs2Of w) (bImmOf w))
  | 0b111#3 => .instr (.bgeu (rs1Of w) (rs2Of w) (bImmOf w))
  | _ => .illegal .funct3

/-- JALR (R107): `funct3` must be `000`. -/
def decodeJalr (w : Word) : Decoded :=
  if funct3Of w = 0b000#3 then .instr (.jalr (rdOf w) (rs1Of w) (iImmOf w)) else .illegal .funct3

/-- SYSTEM (R109, R220). -/
def decodeSystem (p : Params) (w : Word) : Decoded :=
  match funct3Of w with
  | 0b000#3 =>
    if iImmOf w = 0x000#12 then .instr (.ecall (rdOf w) (rs1Of w) (lowOf w))
    else if iImmOf w = 0x001#12 then .instr (.ebreak (rdOf w) (rs1Of w) (lowOf w))
    else .illegal .systemImmediate
  | 0b001#3 => gate p .zicsr (.instr (.csrrw (rdOf w) (rs1Of w) (iImmOf w)))
  | 0b010#3 => gate p .zicsr (.instr (.csrrs (rdOf w) (rs1Of w) (iImmOf w)))
  | 0b011#3 => gate p .zicsr (.instr (.csrrc (rdOf w) (rs1Of w) (iImmOf w)))
  | 0b101#3 => gate p .zicsr (.instr (.csrrwi (rdOf w) (rs1Of w) (iImmOf w)))
  | 0b110#3 => gate p .zicsr (.instr (.csrrsi (rdOf w) (rs1Of w) (iImmOf w)))
  | 0b111#3 => gate p .zicsr (.instr (.csrrci (rdOf w) (rs1Of w) (iImmOf w)))
  | _ => .illegal .funct3

/-- The dispatch table of 32 slots keyed by `inst[6:2]` (R100, R101). It reads no state (R118). -/
def decodeWord (p : Params) (w : Word) : Decoded :=
  match slotOf w with
  | 0b00000#5 => decodeLoad w
  | 0b00001#5 => gate p .f (decodeLoadFp w)
  | 0b00011#5 => decodeMiscMem p w
  | 0b00100#5 => decodeOpImm w
  | 0b00101#5 => .instr (.auipc (rdOf w) (uImmOf w))
  | 0b01000#5 => decodeStore w
  | 0b01001#5 => gate p .f (decodeStoreFp w)
  | 0b01011#5 => gate p .a (decodeAmo w)
  | 0b01100#5 => decodeOp p w
  | 0b01101#5 => .instr (.lui (rdOf w) (uImmOf w))
  | 0b10000#5 => gate p .f (decodeFused .fmaddS w)
  | 0b10001#5 => gate p .f (decodeFused .fmsubS w)
  | 0b10010#5 => gate p .f (decodeFused .fnmsubS w)
  | 0b10011#5 => gate p .f (decodeFused .fnmaddS w)
  | 0b10100#5 => gate p .f (decodeOpFp w)
  | 0b11000#5 => decodeBranch w
  | 0b11001#5 => decodeJalr w
  | 0b11011#5 => .instr (.jal (rdOf w) (jImmOf w))
  | 0b11100#5 => decodeSystem p w
  | _ => .illegal .unpopulatedSlot

/-- The first instruction of a byte list: four bytes, the lowest address first and least significant (R79, R90). -/
def decodeBytes (p : Params) : List Byte → Decoded
  | b0 :: b1 :: b2 :: b3 :: _ => decodeWord p (b3 ++ b2 ++ b1 ++ b0)
  | _ => .illegal .truncated

/-! ## Encoding (R99) -/

/-- R format. -/
def encR (f7 : BitVec 7) (rs2 rs1 : Reg) (f3 : BitVec 3) (rd : Reg) (slot : BitVec 5) : Word :=
  f7 ++ rs2 ++ rs1 ++ f3 ++ rd ++ slot ++ 0b11#2
/-- I format, also I (CSR). -/
def encI (imm : BitVec 12) (rs1 : Reg) (f3 : BitVec 3) (rd : Reg) (slot : BitVec 5) : Word :=
  imm ++ rs1 ++ f3 ++ rd ++ slot ++ 0b11#2
/-- S format. -/
def encS (imm : BitVec 12) (rs2 rs1 : Reg) (f3 : BitVec 3) (slot : BitVec 5) : Word :=
  imm.extractLsb' 5 7 ++ rs2 ++ rs1 ++ f3 ++ imm.extractLsb' 0 5 ++ slot ++ 0b11#2
/-- B format. -/
def encB (imm : BitVec 13) (rs2 rs1 : Reg) (f3 : BitVec 3) (slot : BitVec 5) : Word :=
  imm.extractLsb' 12 1 ++ imm.extractLsb' 5 6 ++ rs2 ++ rs1 ++ f3 ++ imm.extractLsb' 1 4 ++ imm.extractLsb' 11 1
    ++ slot ++ 0b11#2
/-- U format. -/
def encU (imm : BitVec 20) (rd : Reg) (slot : BitVec 5) : Word := imm ++ rd ++ slot ++ 0b11#2
/-- J format. -/
def encJ (imm : BitVec 21) (rd : Reg) (slot : BitVec 5) : Word :=
  imm.extractLsb' 20 1 ++ imm.extractLsb' 1 10 ++ imm.extractLsb' 11 1 ++ imm.extractLsb' 12 8 ++ rd ++ slot ++ 0b11#2
/-- R4 format, `fmt = 00`. -/
def encR4 (rs3 rs2 rs1 : Reg) (rm : BitVec 3) (rd : Reg) (slot : BitVec 5) : Word :=
  rs3 ++ 0b00#2 ++ rs2 ++ rs1 ++ rm ++ rd ++ slot ++ 0b11#2
/-- R (AMO) format. -/
def encAmo (f5 : BitVec 5) (aq rl : BitVec 1) (rs2 rs1 rd : Reg) : Word :=
  f5 ++ aq ++ rl ++ rs2 ++ rs1 ++ 0b010#3 ++ rd ++ 0b01011#5 ++ 0b11#2
/-- SYSTEM with `funct3 = 000`; `lo` is `inst[1:0]`. -/
def encCall (imm : BitVec 12) (rs1 rd : Reg) (lo : BitVec 2) : Word :=
  imm ++ rs1 ++ 0b000#3 ++ rd ++ 0b11100#5 ++ lo

/-- The word of an instruction, with `inst[1:0] = 11` but for ECALL and EBREAK, which carry their own. -/
def encode : Instr → Word
  | .lui rd imm => encU imm rd 0b01101#5
  | .auipc rd imm => encU imm rd 0b00101#5
  | .jal rd imm => encJ imm rd 0b11011#5
  | .jalr rd rs1 imm => encI imm rs1 0b000#3 rd 0b11001#5
  | .beq rs1 rs2 imm => encB imm rs2 rs1 0b000#3 0b11000#5
  | .bne rs1 rs2 imm => encB imm rs2 rs1 0b001#3 0b11000#5
  | .blt rs1 rs2 imm => encB imm rs2 rs1 0b100#3 0b11000#5
  | .bge rs1 rs2 imm => encB imm rs2 rs1 0b101#3 0b11000#5
  | .bltu rs1 rs2 imm => encB imm rs2 rs1 0b110#3 0b11000#5
  | .bgeu rs1 rs2 imm => encB imm rs2 rs1 0b111#3 0b11000#5
  | .lb rd rs1 imm => encI imm rs1 0b000#3 rd 0b00000#5
  | .lh rd rs1 imm => encI imm rs1 0b001#3 rd 0b00000#5
  | .lw rd rs1 imm => encI imm rs1 0b010#3 rd 0b00000#5
  | .lbu rd rs1 imm => encI imm rs1 0b100#3 rd 0b00000#5
  | .lhu rd rs1 imm => encI imm rs1 0b101#3 rd 0b00000#5
  | .sb rs1 rs2 imm => encS imm rs2 rs1 0b000#3 0b01000#5
  | .sh rs1 rs2 imm => encS imm rs2 rs1 0b001#3 0b01000#5
  | .sw rs1 rs2 imm => encS imm rs2 rs1 0b010#3 0b01000#5
  | .addi rd rs1 imm => encI imm rs1 0b000#3 rd 0b00100#5
  | .slti rd rs1 imm => encI imm rs1 0b010#3 rd 0b00100#5
  | .sltiu rd rs1 imm => encI imm rs1 0b011#3 rd 0b00100#5
  | .xori rd rs1 imm => encI imm rs1 0b100#3 rd 0b00100#5
  | .ori rd rs1 imm => encI imm rs1 0b110#3 rd 0b00100#5
  | .andi rd rs1 imm => encI imm rs1 0b111#3 rd 0b00100#5
  | .slli rd rs1 shamt hi => encR hi shamt rs1 0b001#3 rd 0b00100#5
  | .srli rd rs1 shamt b31 b29 => encR (b31 ++ 0#1 ++ b29) shamt rs1 0b101#3 rd 0b00100#5
  | .srai rd rs1 shamt b31 b29 => encR (b31 ++ 1#1 ++ b29) shamt rs1 0b101#3 rd 0b00100#5
  | .add rd rs1 rs2 => encR 0b0000000#7 rs2 rs1 0b000#3 rd 0b01100#5
  | .sub rd rs1 rs2 => encR 0b0100000#7 rs2 rs1 0b000#3 rd 0b01100#5
  | .sll rd rs1 rs2 => encR 0b0000000#7 rs2 rs1 0b001#3 rd 0b01100#5
  | .slt rd rs1 rs2 => encR 0b0000000#7 rs2 rs1 0b010#3 rd 0b01100#5
  | .sltu rd rs1 rs2 => encR 0b0000000#7 rs2 rs1 0b011#3 rd 0b01100#5
  | .xor rd rs1 rs2 => encR 0b0000000#7 rs2 rs1 0b100#3 rd 0b01100#5
  | .srl rd rs1 rs2 => encR 0b0000000#7 rs2 rs1 0b101#3 rd 0b01100#5
  | .sra rd rs1 rs2 => encR 0b0100000#7 rs2 rs1 0b101#3 rd 0b01100#5
  | .or rd rs1 rs2 => encR 0b0000000#7 rs2 rs1 0b110#3 rd 0b01100#5
  | .and rd rs1 rs2 => encR 0b0000000#7 rs2 rs1 0b111#3 rd 0b01100#5
  | .fence rd rs1 succ pred fm => encI (fm ++ pred ++ succ) rs1 0b000#3 rd 0b00011#5
  | .fenceI rd rs1 imm => encI imm rs1 0b001#3 rd 0b00011#5
  | .ecall rd rs1 lo => encCall 0x000#12 rs1 rd lo
  | .ebreak rd rs1 lo => encCall 0x001#12 rs1 rd lo
  | .csrrw rd rs1 csr => encI csr rs1 0b001#3 rd 0b11100#5
  | .csrrs rd rs1 csr => encI csr rs1 0b010#3 rd 0b11100#5
  | .csrrc rd rs1 csr => encI csr rs1 0b011#3 rd 0b11100#5
  | .csrrwi rd zimm csr => encI csr zimm 0b101#3 rd 0b11100#5
  | .csrrsi rd zimm csr => encI csr zimm 0b110#3 rd 0b11100#5
  | .csrrci rd zimm csr => encI csr zimm 0b111#3 rd 0b11100#5
  | .mul rd rs1 rs2 => encR 0b0000001#7 rs2 rs1 0b000#3 rd 0b01100#5
  | .mulh rd rs1 rs2 => encR 0b0000001#7 rs2 rs1 0b001#3 rd 0b01100#5
  | .mulhsu rd rs1 rs2 => encR 0b0000001#7 rs2 rs1 0b010#3 rd 0b01100#5
  | .mulhu rd rs1 rs2 => encR 0b0000001#7 rs2 rs1 0b011#3 rd 0b01100#5
  | .div rd rs1 rs2 => encR 0b0000001#7 rs2 rs1 0b100#3 rd 0b01100#5
  | .divu rd rs1 rs2 => encR 0b0000001#7 rs2 rs1 0b101#3 rd 0b01100#5
  | .rem rd rs1 rs2 => encR 0b0000001#7 rs2 rs1 0b110#3 rd 0b01100#5
  | .remu rd rs1 rs2 => encR 0b0000001#7 rs2 rs1 0b111#3 rd 0b01100#5
  | .lrW rd rs1 aq rl => encAmo 0b00010#5 aq rl 0#5 rs1 rd
  | .scW rd rs1 rs2 aq rl => encAmo 0b00011#5 aq rl rs2 rs1 rd
  | .amoswapW rd rs1 rs2 aq rl => encAmo 0b00001#5 aq rl rs2 rs1 rd
  | .amoaddW rd rs1 rs2 aq rl => encAmo 0b00000#5 aq rl rs2 rs1 rd
  | .amoxorW rd rs1 rs2 aq rl => encAmo 0b00100#5 aq rl rs2 rs1 rd
  | .amoandW rd rs1 rs2 aq rl => encAmo 0b01100#5 aq rl rs2 rs1 rd
  | .amoorW rd rs1 rs2 aq rl => encAmo 0b01000#5 aq rl rs2 rs1 rd
  | .amominW rd rs1 rs2 aq rl => encAmo 0b10000#5 aq rl rs2 rs1 rd
  | .amomaxW rd rs1 rs2 aq rl => encAmo 0b10100#5 aq rl rs2 rs1 rd
  | .amominuW rd rs1 rs2 aq rl => encAmo 0b11000#5 aq rl rs2 rs1 rd
  | .amomaxuW rd rs1 rs2 aq rl => encAmo 0b11100#5 aq rl rs2 rs1 rd
  | .flw rd rs1 imm => encI imm rs1 0b010#3 rd 0b00001#5
  | .fsw rs1 rs2 imm => encS imm rs2 rs1 0b010#3 0b01001#5
  | .fmaddS rd rs1 rs2 rs3 rm => encR4 rs3 rs2 rs1 rm rd 0b10000#5
  | .fmsubS rd rs1 rs2 rs3 rm => encR4 rs3 rs2 rs1 rm rd 0b10001#5
  | .fnmsubS rd rs1 rs2 rs3 rm => encR4 rs3 rs2 rs1 rm rd 0b10010#5
  | .fnmaddS rd rs1 rs2 rs3 rm => encR4 rs3 rs2 rs1 rm rd 0b10011#5
  | .faddS rd rs1 rs2 rm => encR 0b0000000#7 rs2 rs1 rm rd 0b10100#5
  | .fsubS rd rs1 rs2 rm => encR 0b0000100#7 rs2 rs1 rm rd 0b10100#5
  | .fmulS rd rs1 rs2 rm => encR 0b0001000#7 rs2 rs1 rm rd 0b10100#5
  | .fdivS rd rs1 rs2 rm => encR 0b0001100#7 rs2 rs1 rm rd 0b10100#5
  | .fsqrtS rd rs1 rm => encR 0b0101100#7 0#5 rs1 rm rd 0b10100#5
  | .fsgnjS rd rs1 rs2 => encR 0b0010000#7 rs2 rs1 0b000#3 rd 0b10100#5
  | .fsgnjnS rd rs1 rs2 => encR 0b0010000#7 rs2 rs1 0b001#3 rd 0b10100#5
  | .fsgnjxS rd rs1 rs2 => encR 0b0010000#7 rs2 rs1 0b010#3 rd 0b10100#5
  | .fminS rd rs1 rs2 => encR 0b0010100#7 rs2 rs1 0b000#3 rd 0b10100#5
  | .fmaxS rd rs1 rs2 => encR 0b0010100#7 rs2 rs1 0b001#3 rd 0b10100#5
  | .fcvtWS rd rs1 rm => encR 0b1100000#7 0b00000#5 rs1 rm rd 0b10100#5
  | .fcvtWuS rd rs1 rm => encR 0b1100000#7 0b00001#5 rs1 rm rd 0b10100#5
  | .fmvXW rd rs1 => encR 0b1110000#7 0#5 rs1 0b000#3 rd 0b10100#5
  | .feqS rd rs1 rs2 => encR 0b1010000#7 rs2 rs1 0b010#3 rd 0b10100#5
  | .fltS rd rs1 rs2 => encR 0b1010000#7 rs2 rs1 0b001#3 rd 0b10100#5
  | .fleS rd rs1 rs2 => encR 0b1010000#7 rs2 rs1 0b000#3 rd 0b10100#5
  | .fclassS rd rs1 => encR 0b1110000#7 0#5 rs1 0b001#3 rd 0b10100#5
  | .fcvtSW rd rs1 rm => encR 0b1101000#7 0b00000#5 rs1 rm rd 0b10100#5
  | .fcvtSWu rd rs1 rm => encR 0b1101000#7 0b00001#5 rs1 rm rd 0b10100#5
  | .fmvWX rd rs1 => encR 0b1111000#7 0#5 rs1 0b000#3 rd 0b10100#5

/-- The four bytes of a word as memory holds them, the lowest address first (R79). -/
def wordBytes (w : Word) : List Byte :=
  [w.extractLsb' 0 8, w.extractLsb' 8 8, w.extractLsb' 16 8, w.extractLsb' 24 8]

/-- The word whose bits are the low `nbits` bits of `w`, the rest 0. -/
def tableWord (nbits w : Nat) : Word := BitVec.ofNat 32 (w % 2 ^ nbits)

/-- What the decoder reads, in the default configuration, from the instruction whose bits are `w`. -/
def decodeTableWord (nbits w : Nat) : Option Instr :=
  match decodeBytes Params.default (wordBytes (tableWord nbits w)) with
  | .instr i => some i
  | .illegal _ => none

/-! ## The rounding-mode field (R120, R292) -/

/-- What an assembler encodes in `rm` when the operand is left out (R120). -/
def omittedRm : BitVec 3 := 0b111#3

/-- The word with `rm` in `inst[14:12]`. -/
def withRm (w : Word) (rm : BitVec 3) : Word := w.extractLsb' 15 17 ++ rm ++ w.extractLsb' 0 12

/-- The instruction with another `rm` operand; `none` where it has no such operand. -/
def Instr.withRm? (i : Instr) (rm : BitVec 3) : Option Instr :=
  match i with
  | .fmaddS rd rs1 rs2 rs3 _ => some (.fmaddS rd rs1 rs2 rs3 rm)
  | .fmsubS rd rs1 rs2 rs3 _ => some (.fmsubS rd rs1 rs2 rs3 rm)
  | .fnmsubS rd rs1 rs2 rs3 _ => some (.fnmsubS rd rs1 rs2 rs3 rm)
  | .fnmaddS rd rs1 rs2 rs3 _ => some (.fnmaddS rd rs1 rs2 rs3 rm)
  | .faddS rd rs1 rs2 _ => some (.faddS rd rs1 rs2 rm)
  | .fsubS rd rs1 rs2 _ => some (.fsubS rd rs1 rs2 rm)
  | .fmulS rd rs1 rs2 _ => some (.fmulS rd rs1 rs2 rm)
  | .fdivS rd rs1 rs2 _ => some (.fdivS rd rs1 rs2 rm)
  | .fsqrtS rd rs1 _ => some (.fsqrtS rd rs1 rm)
  | .fcvtWS rd rs1 _ => some (.fcvtWS rd rs1 rm)
  | .fcvtWuS rd rs1 _ => some (.fcvtWuS rd rs1 rm)
  | .fcvtSW rd rs1 _ => some (.fcvtSW rd rs1 rm)
  | .fcvtSWu rd rs1 _ => some (.fcvtSWu rd rs1 rm)
  | .lui .. | .auipc .. | .jal .. | .jalr .. | .beq .. | .bne .. | .blt .. | .bge .. | .bltu .. | .bgeu ..
  | .lb .. | .lh .. | .lw .. | .lbu .. | .lhu .. | .sb .. | .sh .. | .sw .. | .addi .. | .slti .. | .sltiu ..
  | .xori .. | .ori .. | .andi .. | .slli .. | .srli .. | .srai .. | .add .. | .sub .. | .sll .. | .slt ..
  | .sltu .. | .xor .. | .srl .. | .sra .. | .or .. | .and .. | .fence .. | .fenceI .. | .ecall .. | .ebreak ..
  | .csrrw .. | .csrrs .. | .csrrc .. | .csrrwi .. | .csrrsi .. | .csrrci .. | .mul .. | .mulh .. | .mulhsu ..
  | .mulhu .. | .div .. | .divu .. | .rem .. | .remu .. | .lrW .. | .scW .. | .amoswapW .. | .amoaddW ..
  | .amoxorW .. | .amoandW .. | .amoorW .. | .amominW .. | .amomaxW .. | .amominuW .. | .amomaxuW .. | .flw ..
  | .fsw .. | .fsgnjS .. | .fsgnjnS .. | .fsgnjxS .. | .fminS .. | .fmaxS .. | .fmvXW .. | .feqS .. | .fltS ..
  | .fleS .. | .fclassS .. | .fmvWX .. => none

/-! ## The opcode table (spec/opcode_table.json; R100, R118) -/

/-- An instruction's row of the opcode table: `match` and `mask`. They apply to `inst | 3`, since bits 1 and 0 are not
examined (R100). -/
def Instr.tableRow : Instr → Word × Word
  | .lui .. => (0x00000037#32, 0x0000007F#32)
  | .auipc .. => (0x00000017#32, 0x0000007F#32)
  | .jal .. => (0x0000006F#32, 0x0000007F#32)
  | .jalr .. => (0x00000067#32, 0x0000707F#32)
  | .beq .. => (0x00000063#32, 0x0000707F#32)
  | .bne .. => (0x00001063#32, 0x0000707F#32)
  | .blt .. => (0x00004063#32, 0x0000707F#32)
  | .bge .. => (0x00005063#32, 0x0000707F#32)
  | .bltu .. => (0x00006063#32, 0x0000707F#32)
  | .bgeu .. => (0x00007063#32, 0x0000707F#32)
  | .lb .. => (0x00000003#32, 0x0000707F#32)
  | .lh .. => (0x00001003#32, 0x0000707F#32)
  | .lw .. => (0x00002003#32, 0x0000707F#32)
  | .lbu .. => (0x00004003#32, 0x0000707F#32)
  | .lhu .. => (0x00005003#32, 0x0000707F#32)
  | .sb .. => (0x00000023#32, 0x0000707F#32)
  | .sh .. => (0x00001023#32, 0x0000707F#32)
  | .sw .. => (0x00002023#32, 0x0000707F#32)
  | .addi .. => (0x00000013#32, 0x0000707F#32)
  | .slti .. => (0x00002013#32, 0x0000707F#32)
  | .sltiu .. => (0x00003013#32, 0x0000707F#32)
  | .xori .. => (0x00004013#32, 0x0000707F#32)
  | .ori .. => (0x00006013#32, 0x0000707F#32)
  | .andi .. => (0x00007013#32, 0x0000707F#32)
  | .slli .. => (0x00001013#32, 0x0000707F#32)
  | .srli .. => (0x00005013#32, 0x4000707F#32)
  | .srai .. => (0x40005013#32, 0x4000707F#32)
  | .add .. => (0x00000033#32, 0xFE00707F#32)
  | .sub .. => (0x40000033#32, 0xFE00707F#32)
  | .sll .. => (0x00001033#32, 0xFE00707F#32)
  | .slt .. => (0x00002033#32, 0xFE00707F#32)
  | .sltu .. => (0x00003033#32, 0xFE00707F#32)
  | .xor .. => (0x00004033#32, 0xFE00707F#32)
  | .srl .. => (0x00005033#32, 0xFE00707F#32)
  | .sra .. => (0x40005033#32, 0xFE00707F#32)
  | .or .. => (0x00006033#32, 0xFE00707F#32)
  | .and .. => (0x00007033#32, 0xFE00707F#32)
  | .fence .. => (0x0000000F#32, 0x0000707F#32)
  | .fenceI .. => (0x0000100F#32, 0x0000707F#32)
  | .ecall .. => (0x00000073#32, 0xFFF0707F#32)
  | .ebreak .. => (0x00100073#32, 0xFFF0707F#32)
  | .csrrw .. => (0x00001073#32, 0x0000707F#32)
  | .csrrs .. => (0x00002073#32, 0x0000707F#32)
  | .csrrc .. => (0x00003073#32, 0x0000707F#32)
  | .csrrwi .. => (0x00005073#32, 0x0000707F#32)
  | .csrrsi .. => (0x00006073#32, 0x0000707F#32)
  | .csrrci .. => (0x00007073#32, 0x0000707F#32)
  | .mul .. => (0x02000033#32, 0xFE00707F#32)
  | .mulh .. => (0x02001033#32, 0xFE00707F#32)
  | .mulhsu .. => (0x02002033#32, 0xFE00707F#32)
  | .mulhu .. => (0x02003033#32, 0xFE00707F#32)
  | .div .. => (0x02004033#32, 0xFE00707F#32)
  | .divu .. => (0x02005033#32, 0xFE00707F#32)
  | .rem .. => (0x02006033#32, 0xFE00707F#32)
  | .remu .. => (0x02007033#32, 0xFE00707F#32)
  | .lrW .. => (0x1000202F#32, 0xF9F0707F#32)
  | .scW .. => (0x1800202F#32, 0xF800707F#32)
  | .amoswapW .. => (0x0800202F#32, 0xF800707F#32)
  | .amoaddW .. => (0x0000202F#32, 0xF800707F#32)
  | .amoxorW .. => (0x2000202F#32, 0xF800707F#32)
  | .amoandW .. => (0x6000202F#32, 0xF800707F#32)
  | .amoorW .. => (0x4000202F#32, 0xF800707F#32)
  | .amominW .. => (0x8000202F#32, 0xF800707F#32)
  | .amomaxW .. => (0xA000202F#32, 0xF800707F#32)
  | .amominuW .. => (0xC000202F#32, 0xF800707F#32)
  | .amomaxuW .. => (0xE000202F#32, 0xF800707F#32)
  | .flw .. => (0x00002007#32, 0x0000707F#32)
  | .fsw .. => (0x00002027#32, 0x0000707F#32)
  | .fmaddS .. => (0x00000043#32, 0x0600007F#32)
  | .fmsubS .. => (0x00000047#32, 0x0600007F#32)
  | .fnmsubS .. => (0x0000004B#32, 0x0600007F#32)
  | .fnmaddS .. => (0x0000004F#32, 0x0600007F#32)
  | .faddS .. => (0x00000053#32, 0xFE00007F#32)
  | .fsubS .. => (0x08000053#32, 0xFE00007F#32)
  | .fmulS .. => (0x10000053#32, 0xFE00007F#32)
  | .fdivS .. => (0x18000053#32, 0xFE00007F#32)
  | .fsqrtS .. => (0x58000053#32, 0xFFF0007F#32)
  | .fsgnjS .. => (0x20000053#32, 0xFE00707F#32)
  | .fsgnjnS .. => (0x20001053#32, 0xFE00707F#32)
  | .fsgnjxS .. => (0x20002053#32, 0xFE00707F#32)
  | .fminS .. => (0x28000053#32, 0xFE00707F#32)
  | .fmaxS .. => (0x28001053#32, 0xFE00707F#32)
  | .fcvtWS .. => (0xC0000053#32, 0xFFF0007F#32)
  | .fcvtWuS .. => (0xC0100053#32, 0xFFF0007F#32)
  | .fmvXW .. => (0xE0000053#32, 0xFFF0707F#32)
  | .feqS .. => (0xA0002053#32, 0xFE00707F#32)
  | .fltS .. => (0xA0001053#32, 0xFE00707F#32)
  | .fleS .. => (0xA0000053#32, 0xFE00707F#32)
  | .fclassS .. => (0xE0001053#32, 0xFFF0707F#32)
  | .fcvtSW .. => (0xD0000053#32, 0xFFF0007F#32)
  | .fcvtSWu .. => (0xD0100053#32, 0xFFF0007F#32)
  | .fmvWX .. => (0xF0000053#32, 0xFFF0707F#32)

/-- The word lies in the instruction's row. -/
def Instr.rowMatches (i : Instr) (w : Word) : Prop := (w ||| 3#32) &&& i.tableRow.2 = i.tableRow.1

end Sys2Proof
end

