-- ==== Sys2Proof/Machine/State.lean ====
section
/-! DEFINITION. The state of the machine as plain data (10_state.md), the environment's side of the bus (20_memory.md R61),
the reasons a step can stop, and the state after reset. -/

namespace Sys2Proof.Machine

/-- The values of the exception latch (R26, R350), a closed set (U5, log 15). -/
inductive ExceptionKind where
  | none | instMisaligned | illegalInst | envCall | breakpoint | memFault
  deriving DecidableEq, Repr

/-- The width of a data transaction: 1, 2 or 4 bytes (R62, R63). -/
inductive Width where
  | byte | half | word
  deriving DecidableEq, Repr

/-- Memory behind the bus: address and byte, addresses strictly rising, no entry equal to what an unlisted address reads
as (R60, R79). -/
abbrev Memory := List Host.Cell

/-- What a byte no entry lists reads as. DESIGN CHOICE (log 2, unsafe): 0, as in the spec's test vectors. -/
def Memory.unlisted : Byte := 0#8

/-- What a memory-port callback does when the core calls it (R62, R63, R64, R76). -/
structure BusReply where
  /-- `none`: the reference memory answers a read and takes a write (R79). `some v`: a read or fetch returns `v`, cut to
  the transaction's width, and a write is absorbed without reaching the reference memory (log 3). -/
  data : Option Word
  /-- The value the callback stores in the latch, if any (R76, R403). -/
  latch : Option ExceptionKind
  deriving DecidableEq, Repr

/-- The reply of the reference memory, which never sets the latch (R76, R79). -/
def BusReply.reference : BusReply := { data := .none, latch := .none }

/-- One write the environment makes through the accessors or in its own memory (R42, R212, R403). -/
inductive EnvWrite where
  | x (r : Reg) (v : Word)
  | f (r : Reg) (v : Word)
  | pc (v : Word)
  | latch (k : ExceptionKind)
  | mem (a : Word) (b : Byte)
  deriving DecidableEq, Repr

/-- What an `on_ecall` / `on_ebreak` handler does, in order (R212). -/
abbrev Handler := List EnvWrite

/-- One transaction on a port, with what crossed it (R61, R68). -/
inductive Transaction where
  | ifetch (addr data : Word)
  | read (addr : Word) (width : Width) (data : Word)
  | write (addr : Word) (width : Width) (data : Word)
  | ecall (pc inst : Word)
  | ebreak (pc inst : Word)
  deriving DecidableEq, Repr

/-- The environment's side of the bus record `io` (R33, R61). -/
structure Bus where
  mem : Memory
  /-- What the memory-port callbacks do next, one entry a transaction; when it is empty the reference memory answers. -/
  replies : List BusReply
  /-- What the handlers do next, one entry an ECALL or EBREAK; when it is empty the reference environment acts. -/
  calls : List Handler
  /-- The transactions made so far, newest first (log 10). -/
  log : List Transaction
  deriving DecidableEq, Repr

/-- The state (10_state.md, opening tuple; R33, R34). -/
structure State where
  /-- The implementation parameters: constant (R2, log 12). -/
  params : Params
  /-- The opaque tag given to create: constant (R34, log 13). -/
  userdata : Nat
  /-- The integer registers (R20). -/
  x : Vector Word 32
  /-- The program counter (R23). -/
  pc : Word
  /-- The exception latch `exception` (R26). -/
  exc : ExceptionKind
  /-- The counter `csr_cycle` (R28). -/
  csrCycle : BitVec 64
  /-- `csr_mstatus` (R29). -/
  csrMstatus : Word
  /-- `csr_fcsr` (R30). -/
  csrFcsr : Word
  /-- The floating-point registers; without EXT_F nothing reaches them (R31). -/
  f : Vector Word 32
  /-- The environment's side of the bus (R33, R61). -/
  bus : Bus
  /-- How many free values have been taken; the model's own counter (log 6). -/
  freeCount : Nat
  deriving DecidableEq, Repr

/-- Faults: none. Nothing the spec describes stops the machine; every exception is a value of the latch in a next state
(R359, R353). No constructor, so nothing raises one. -/
inductive Fault : Type
  deriving DecidableEq, Repr

/-- Refusals. -/
inductive Refusal where
  /-- Raised only by an arm of `exec` whose instruction has no meaning yet; no arm is left with it. Safe. -/
  | notModelled (mnemonic : String)
  deriving DecidableEq, Repr

/-- The integer registers after reset: all zero but `X[2] = DEFAULT_SP` (R391). -/
def resetX (p : Params) : Vector Word 32 := (Vector.replicate 32 0#32).set 2 p.defaultSp

/-- The machine right after create (R390) in the default configuration, with the reference memory and environment
behind the bus and nothing listed in memory. -/
def State.reset : State where
  params := Params.default
  userdata := 0
  x := resetX Params.default
  pc := 0#32
  exc := .none
  csrCycle := 0#64
  csrMstatus := 0#32
  csrFcsr := 0#32
  f := Vector.replicate 32 0#32
  bus := { mem := [], replies := [], calls := [], log := [] }
  freeCount := 0

end Sys2Proof.Machine
end

