-- ==== Sys2Proof/Machine/Ops.lean ====
section
/-! DEFINITION. The named operations over memory, the bus, the registers, the latch and the CSRs. -/

namespace Sys2Proof.Machine

/-! ## Memory (20_memory.md R60, R65, R79) -/

/-- The byte at a key of the list. -/
def Memory.lookup : Memory → Nat → Byte
  | [], _ => Memory.unlisted
  | (k, v) :: rest, a => if k = a then v else Memory.lookup rest a

/-- The list with the byte at a key set, in canonical form. -/
def Memory.insert : Memory → Nat → Byte → Memory
  | [], a, b => if b = Memory.unlisted then [] else [(a, b)]
  | (k, v) :: rest, a, b =>
    if a < k then (if b = Memory.unlisted then (k, v) :: rest else (a, b) :: (k, v) :: rest)
    else if a = k then (if b = Memory.unlisted then rest else (a, b) :: rest)
    else (k, v) :: Memory.insert rest a b

/-- Canonical from a key upward: keys strictly rising, below 2^32, no entry an unlisted byte's value. -/
def Memory.wfFrom : Nat → Memory → Bool
  | _, [] => true
  | lo, (k, v) :: rest => decide (lo ≤ k) && decide (k < 2 ^ 32) && v != Memory.unlisted && Memory.wfFrom (k + 1) rest

/-- The canonical form, in which equal memories are equal lists. -/
def Memory.wf (m : Memory) : Bool := Memory.wfFrom 0 m

/-- The byte at an address: `M[a]` of R79. -/
def Memory.byte (m : Memory) (a : Word) : Byte := Memory.lookup m a.toNat

/-- The memory with `M[a] <- b`. -/
def Memory.setByte (m : Memory) (a : Word) (b : Byte) : Memory := Memory.insert m a.toNat b

/-- `read(addr, n)` of R79: little-endian, addresses modulo 2^32, no alignment check (R66); zero above the width. -/
def Memory.read (m : Memory) (a : Word) : Width → Word
  | .byte => (m.byte a).setWidth 32
  | .half => (m.byte (a + 1#32) ++ m.byte a).setWidth 32
  | .word => m.byte (a + 3#32) ++ m.byte (a + 2#32) ++ m.byte (a + 1#32) ++ m.byte a

/-- `write(addr, n, v)` of R79: the low `n` bytes of `v`, the least significant at the lowest address. -/
def Memory.write (m : Memory) (a : Word) (n : Width) (v : Word) : Memory :=
  match n with
  | .byte => m.setByte a (v.extractLsb' 0 8)
  | .half => (m.setByte a (v.extractLsb' 0 8)).setByte (a + 1#32) (v.extractLsb' 8 8)
  | .word =>
    (((m.setByte a (v.extractLsb' 0 8)).setByte (a + 1#32) (v.extractLsb' 8 8)).setByte (a + 2#32)
      (v.extractLsb' 16 8)).setByte (a + 3#32) (v.extractLsb' 24 8)

/-- How many bytes a width has (R62). -/
def Width.bytes : Width → Nat
  | .byte => 1
  | .half => 2
  | .word => 4

/-- The low `8n` bits of a value: what the port carries (R62, R63). -/
def Width.cut (n : Width) (v : Word) : Word :=
  match n with
  | .byte => (v.setWidth 8).setWidth 32
  | .half => (v.setWidth 16).setWidth 32
  | .word => v

/-! ## Registers (R21, R31) -/

/-- `x[r]`: `X[0]` reads as zero (R21). -/
def State.readX (s : State) (r : Reg) : Word := if r = 0#5 then 0#32 else s.x[r.toNat]'r.isLt

/-- `x[r] <- v`: no effect on `X[0]` (R21). -/
def State.writeX (s : State) (r : Reg) (v : Word) : State :=
  if r = 0#5 then s else { s with x := s.x.set r.toNat v r.isLt }

/-- `f[r]` (R31): `F[0]` is an ordinary register. -/
def State.readF (s : State) (r : Reg) : Word := s.f[r.toNat]'r.isLt

/-- `f[r] <- v` (R31). -/
def State.writeF (s : State) (r : Reg) (v : Word) : State := { s with f := s.f.set r.toNat v r.isLt }

/-- `pc <- t`. -/
def State.setPc (s : State) (t : Word) : State := { s with pc := t }

/-- `pc <- pc + 4`, modulo 2^32 (R25). -/
def State.advance (s : State) : State := s.setPc (s.pc + 4#32)

/-! ## The exception latch (60_exceptions.md) -/

/-- `raise <Kind>` (R359): the whole of taking an exception on this hardware is this one write of the latch. No program
counter, status or cause is saved, no mode changes, nothing is vectored (R356, R364). -/
def State.raise (s : State) (k : ExceptionKind) : State := { s with exc := k }

/-- `PC <- t` with the misalignment check of a jump or taken branch (R170): the misaligned target stays in `PC`. -/
def State.jumpTo (s : State) (t : Word) : State :=
  if t.extractLsb' 0 2 = 0#2 then s.setPc t else (s.setPc t).raise .instMisaligned

/-- The effect of an illegal word (R353): only the latch; `PC` stays at the word. -/
def State.illegal (s : State) : State := s.raise .illegalInst

/-- Return from an exception (R361): not an instruction but the environment's action between steps; it clears the latch
and puts `PC` where it wants. Nothing else is restored, since nothing was saved. -/
def State.resume (s : State) (t : Word) : State := { s with exc := .none, pc := t }

/-- `EXC_CODE` (R351): numbers for interchange between tools only. -/
def ExceptionKind.code : ExceptionKind → Nat
  | .none => 0
  | .instMisaligned => 1
  | .illegalInst => 2
  | .envCall => 3
  | .breakpoint => 4
  | .memFault => 5

/-! ## Counter and CSRs (R28, R39 to R41) -/

/-- The driver's `csr_cycle <- csr_cycle + 1` after every execution unit (R395). Past 2^64 - 1 the spec gives no value: a
free one (R28, D25, log 6). -/
def State.retire (s : State) : State :=
  if s.csrCycle = BitVec.allOnes 64 then
    { s with csrCycle := Config.cyclePastMax s.freeCount, freeCount := s.freeCount + 1 }
  else { s with csrCycle := s.csrCycle + 1#64 }

/-- `csr_read(a)` (R40): no side effect; an unknown CSR reads 0. -/
def State.readCsr (s : State) (a : BitVec 12) : Word :=
  if a = 0xC00#12 then s.csrCycle.extractLsb' 0 32
  else if a = 0xC80#12 then s.csrCycle.extractLsb' 32 32
  else if a = 0x300#12 then s.csrMstatus
  else if a = 0x003#12 then s.csrFcsr
  else 0#32

/-- `csr_write(a, v)` (R41, C1): only `mstatus` takes a write; every other write is dropped. -/
def State.writeCsr (s : State) (a : BitVec 12) (v : Word) : State :=
  if a = 0x300#12 then { s with csrMstatus := v } else s

/-! ## The environment's writes (R42, R212) -/

/-- One write of the environment. `X[0]` is not writable (R21, D24); without EXT_F there is no `F` (R31, log 14). -/
def State.applyWrite (s : State) : EnvWrite → State
  | .x r v => s.writeX r v
  | .f r v => if s.params.extF then s.writeF r v else s
  | .pc v => s.setPc v
  | .latch k => s.raise k
  | .mem a b => { s with bus := { s.bus with mem := s.bus.mem.setByte a b } }

/-- The environment's writes in order. -/
def State.applyWrites (s : State) : Handler → State
  | [] => s
  | w :: ws => (s.applyWrite w).applyWrites ws

/-! ## Port transactions (R61 to R64) -/

/-- The reply the next memory-port transaction gets. -/
def Bus.nextReply (b : Bus) : BusReply := b.replies.headD BusReply.reference

/-- The latch after a callback (R76). -/
def BusReply.latched (r : BusReply) (k : ExceptionKind) : ExceptionKind := r.latch.getD k

/-- What a read of `n` bytes at `a` returns (R62): the callback's value, or the reference memory's. -/
def Bus.answer (b : Bus) (a : Word) (n : Width) : Word :=
  match b.nextReply.data with
  | some v => n.cut v
  | none => b.mem.read a n

/-- The bus after a read transaction `t`. -/
def Bus.afterRead (b : Bus) (t : Transaction) : Bus := { b with replies := b.replies.tail, log := t :: b.log }

/-- Memory after a write transaction (R63): the reference memory takes it unless the callback absorbs it. -/
def Bus.memAfterWrite (b : Bus) (a : Word) (n : Width) (v : Word) : Memory :=
  match b.nextReply.data with
  | some _ => b.mem
  | none => b.mem.write a n v

/-- `IFetch(PC)` (R64): the word, and the state after the transaction. -/
def State.iFetch (s : State) : Word × State :=
  (s.bus.answer s.pc .word,
   { s with exc := s.bus.nextReply.latched s.exc,
            bus := s.bus.afterRead (.ifetch s.pc (s.bus.answer s.pc .word)) })

/-- `MemRead(a, n)` (R62): the value in the low `8n` bits, and the state after the transaction. -/
def State.memRead (s : State) (a : Word) (n : Width) : Word × State :=
  (s.bus.answer a n,
   { s with exc := s.bus.nextReply.latched s.exc, bus := s.bus.afterRead (.read a n (s.bus.answer a n)) })

/-- `MemWrite(a, n, v)` (R63): only the low `8n` bits of `v` reach the port. -/
def State.memWrite (s : State) (a : Word) (n : Width) (v : Word) : State :=
  { s with exc := s.bus.nextReply.latched s.exc,
           bus := { s.bus with mem := s.bus.memAfterWrite a n v, replies := s.bus.replies.tail,
                               log := .write a n (n.cut v) :: s.bus.log } }

/-- One environment-port transaction: the handler runs, the next scripted one or `ref` (R212). -/
def State.callHandler (s : State) (t : Transaction) (ref : Handler) : State :=
  { s with bus := { s.bus with calls := s.bus.calls.tail, log := t :: s.bus.log } }.applyWrites (s.bus.calls.headD ref)

/-- `env.on_ecall(pc, inst)` (R210); the reference environment sets `env_call` (R79). -/
def State.onEcall (s : State) (inst : Word) : State := s.callHandler (.ecall s.pc inst) [.latch .envCall]

/-- `env.on_ebreak(pc, inst)` (R211); the reference environment sets `breakpoint` (R79). -/
def State.onEbreak (s : State) (inst : Word) : State := s.callHandler (.ebreak s.pc inst) [.latch .breakpoint]

/-! ## How an execution unit ends -/

/-- `x[rd] <- v; pc <- pc + 4` (R130). -/
def State.finishX (s : State) (rd : Reg) (v : Word) : State := (s.writeX rd v).advance

/-- `f[rd] <- v; pc <- pc + 4` (R296). -/
def State.finishF (s : State) (rd : Reg) (v : Word) : State := (s.writeF rd v).advance

/-! ## Placing an instruction -/

/-- The state with a word in memory where the next fetch reads it, the latch clear, and the reference memory answering
that fetch even when replies are pending (log 9). -/
def State.placeWord (s : State) (w : Word) : State :=
  { s with exc := .none,
           bus := { s.bus with mem := s.bus.mem.write s.pc .word w,
                               replies := if s.bus.replies = [] then [] else BusReply.reference :: s.bus.replies } }

end Sys2Proof.Machine
end

