-- ==== Sys2Proof/Machine/Operands.lean ====
section
/-! DEFINITION. The operand forms: the five immediates, `zimm`, shift amounts, effective addresses, and the extensions of a
loaded value (30_encoding.md R92 to R98, 42_load_store_fence.md R190). -/

namespace Sys2Proof.Machine

/-- `I_imm` and `S_imm`: sign-extended 12-bit immediates (R92, R93). -/
def imm12 (imm : BitVec 12) : Word := imm.signExtend 32

/-- `B_imm` (R94). -/
def immB (imm : BitVec 13) : Word := imm.signExtend 32

/-- `J_imm` (R96). -/
def immJ (imm : BitVec 21) : Word := imm.signExtend 32

/-- `U_imm` (R95). -/
def immU (imm : BitVec 20) : Word := imm ++ 0#12

/-- `zimm`, zero-extended, never sign-extended (R98, R213 f). -/
def zimmOf (z : BitVec 5) : Word := z.setWidth 32

/-- Base plus displacement, modulo 2^32: the address of a load or a store (R77, R190, R196, R297, R298). -/
def State.ea (s : State) (rs1 : Reg) (imm : BitVec 12) : Word := s.readX rs1 + imm12 imm

/-- The shift amount of SLL, SRL, SRA: the low five bits of `x[rs2]` (R144, D22). -/
def shiftAmount (v : Word) : Nat := (v.extractLsb' 0 5).toNat

/-- `sext_8` of the low 8 bits (R191). -/
def sext8 (v : Word) : Word := (v.setWidth 8).signExtend 32
/-- `sext_16` of the low 16 bits (R192). -/
def sext16 (v : Word) : Word := (v.setWidth 16).signExtend 32
/-- `zext_8` of the low 8 bits (R194). -/
def zext8 (v : Word) : Word := (v.setWidth 8).setWidth 32
/-- `zext_16` of the low 16 bits (R195). -/
def zext16 (v : Word) : Word := (v.setWidth 16).setWidth 32

end Sys2Proof.Machine
end

