-- ==== Sys2Proof/Machine/Flags.lean ====
section
/-! DEFINITION. The hardware has no condition codes (10_state.md R35). This file holds what it has instead: the comparisons,
their 0 / 1 result, the branch conditions, and the sequential flag of an execution unit (70_reset_and_hazards.md R397). -/

namespace Sys2Proof.Machine

/-- A comparison's result in a register: exactly 0 or 1 (R35, R134). -/
def boolWord (b : Bool) : Word := if b then 1#32 else 0#32

/-- `s(a) < s(b)` (R152 d). -/
def ltSigned (a b : Word) : Bool := decide (a.toInt < b.toInt)

/-- `u(a) < u(b)` (R152 d). -/
def ltUnsigned (a b : Word) : Bool := decide (a.toNat < b.toNat)

/-- The sequential flag an execution unit returns for an instruction begun in state `s` (R397, D26): false for JAL, JALR,
ECALL, EBREAK and a taken branch, true for the rest. It is an output to the driver, not state. -/
def sequential (i : Instr) (s : State) : Bool :=
  match i with
  | .jal _ _ => false
  | .jalr _ _ _ => false
  | .ecall _ _ _ => false
  | .ebreak _ _ _ => false
  | .beq rs1 rs2 _ => !(s.readX rs1 == s.readX rs2)
  | .bne rs1 rs2 _ => s.readX rs1 == s.readX rs2
  | .blt rs1 rs2 _ => !ltSigned (s.readX rs1) (s.readX rs2)
  | .bge rs1 rs2 _ => ltSigned (s.readX rs1) (s.readX rs2)
  | .bltu rs1 rs2 _ => !ltUnsigned (s.readX rs1) (s.readX rs2)
  | .bgeu rs1 rs2 _ => ltUnsigned (s.readX rs1) (s.readX rs2)
  | .lui .. | .auipc .. | .lb .. | .lh .. | .lw .. | .lbu .. | .lhu .. | .sb .. | .sh .. | .sw .. | .addi ..
  | .slti .. | .sltiu .. | .xori .. | .ori .. | .andi .. | .slli .. | .srli .. | .srai .. | .add .. | .sub ..
  | .sll .. | .slt .. | .sltu .. | .xor .. | .srl .. | .sra .. | .or .. | .and .. | .fence .. | .fenceI ..
  | .csrrw .. | .csrrs .. | .csrrc .. | .csrrwi .. | .csrrsi .. | .csrrci .. | .mul .. | .mulh .. | .mulhsu ..
  | .mulhu .. | .div .. | .divu .. | .rem .. | .remu .. | .lrW .. | .scW .. | .amoswapW .. | .amoaddW ..
  | .amoxorW .. | .amoandW .. | .amoorW .. | .amominW .. | .amomaxW .. | .amominuW .. | .amomaxuW .. | .flw ..
  | .fsw .. | .fmaddS .. | .fmsubS .. | .fnmsubS .. | .fnmaddS .. | .faddS .. | .fsubS .. | .fmulS ..
  | .fdivS .. | .fsqrtS .. | .fsgnjS .. | .fsgnjnS .. | .fsgnjxS .. | .fminS .. | .fmaxS .. | .fcvtWS ..
  | .fcvtWuS .. | .fmvXW .. | .feqS .. | .fltS .. | .fleS .. | .fclassS .. | .fcvtSW .. | .fcvtSWu ..
  | .fmvWX .. => true

end Sys2Proof.Machine
end

