-- ==== Sys2Proof/Machine/Atomic.lean ====
section
/-! DEFINITION. The A extension (45_a_extension.md). `aq` and `rl` are ignored (R260, D28); there is no reservation (R78). -/

namespace Sys2Proof.Machine

/-- The shape of the nine AMOs (R263): one read of the word at `x[rs1]`, one write of `op t x[rs2]` to it, the old word to
`rd`, `pc + 4`; all sources are read first. -/
def State.amo (s : State) (rd rs1 rs2 : Reg) (op : Word → Word → Word) : State :=
  ((s.memRead (s.readX rs1) .word).2.memWrite (s.readX rs1) .word
    (op (s.memRead (s.readX rs1) .word).1 (s.readX rs2))).finishX rd (s.memRead (s.readX rs1) .word).1

/-- AMOMIN.W's operation (R268): signed. -/
def minSigned (t v : Word) : Word := if ltSigned t v then t else v
/-- AMOMAX.W's operation (R269): signed. -/
def maxSigned (t v : Word) : Word := if ltSigned v t then t else v
/-- AMOMINU.W's operation (R270): unsigned. -/
def minUnsigned (t v : Word) : Word := if ltUnsigned t v then t else v
/-- AMOMAXU.W's operation (R271): unsigned. -/
def maxUnsigned (t v : Word) : Word := if ltUnsigned v t then t else v

/-- LR.W (R261): a load of the word at `x[rs1]`; it reserves nothing. -/
def execLrW (rd rs1 : Reg) (_aq _rl : BitVec 1) (s : State) : Host.Outcome State Fault Refusal :=
  .next ((s.memRead (s.readX rs1) .word).2.finishX rd (s.memRead (s.readX rs1) .word).1)

/-- SC.W (R262): always stores, always answers 0. -/
def execScW (rd rs1 rs2 : Reg) (_aq _rl : BitVec 1) (s : State) : Host.Outcome State Fault Refusal :=
  .next ((s.memWrite (s.readX rs1) .word (s.readX rs2)).finishX rd 0#32)

/-- AMOSWAP.W (R263). -/
def execAmoswapW (rd rs1 rs2 : Reg) (_aq _rl : BitVec 1) (s : State) : Host.Outcome State Fault Refusal :=
  .next (s.amo rd rs1 rs2 (fun _ v => v))

/-- AMOADD.W (R264). -/
def execAmoaddW (rd rs1 rs2 : Reg) (_aq _rl : BitVec 1) (s : State) : Host.Outcome State Fault Refusal :=
  .next (s.amo rd rs1 rs2 (fun t v => t + v))

/-- AMOXOR.W (R265). -/
def execAmoxorW (rd rs1 rs2 : Reg) (_aq _rl : BitVec 1) (s : State) : Host.Outcome State Fault Refusal :=
  .next (s.amo rd rs1 rs2 (fun t v => t ^^^ v))

/-- AMOAND.W (R266). -/
def execAmoandW (rd rs1 rs2 : Reg) (_aq _rl : BitVec 1) (s : State) : Host.Outcome State Fault Refusal :=
  .next (s.amo rd rs1 rs2 (fun t v => t &&& v))

/-- AMOOR.W (R267). -/
def execAmoorW (rd rs1 rs2 : Reg) (_aq _rl : BitVec 1) (s : State) : Host.Outcome State Fault Refusal :=
  .next (s.amo rd rs1 rs2 (fun t v => t ||| v))

/-- AMOMIN.W (R268). -/
def execAmominW (rd rs1 rs2 : Reg) (_aq _rl : BitVec 1) (s : State) : Host.Outcome State Fault Refusal :=
  .next (s.amo rd rs1 rs2 minSigned)

/-- AMOMAX.W (R269). -/
def execAmomaxW (rd rs1 rs2 : Reg) (_aq _rl : BitVec 1) (s : State) : Host.Outcome State Fault Refusal :=
  .next (s.amo rd rs1 rs2 maxSigned)

/-- AMOMINU.W (R270). -/
def execAmominuW (rd rs1 rs2 : Reg) (_aq _rl : BitVec 1) (s : State) : Host.Outcome State Fault Refusal :=
  .next (s.amo rd rs1 rs2 minUnsigned)

/-- AMOMAXU.W (R271). -/
def execAmomaxuW (rd rs1 rs2 : Reg) (_aq _rl : BitVec 1) (s : State) : Host.Outcome State Fault Refusal :=
  .next (s.amo rd rs1 rs2 maxUnsigned)

end Sys2Proof.Machine
end

