-- ==== Sys2Proof/Machine/Control.lean ====
section
/-! DEFINITION. The control transfer instructions (41_control_transfer.md): JAL, JALR and the six branches. -/

namespace Sys2Proof.Machine

/-- The common part of the branches (R173): taken, the offset and the misalignment check; not taken, `pc + 4` and no
check. -/
def State.branch (s : State) (taken : Bool) (imm : BitVec 13) : State :=
  if taken then s.jumpTo (s.pc + immB imm) else s.advance

/-- JALR's target (R172): the sum with bit 0 cleared. -/
def jalrTarget (base : Word) (imm : BitVec 12) : Word := (base + imm12 imm) &&& 0xFFFFFFFE#32

/-- JAL (R171): the link is written even when the target is misaligned (R170, D6). -/
def execJal (rd : Reg) (imm : BitVec 21) (s : State) : Host.Outcome State Fault Refusal :=
  .next ((s.writeX rd (s.pc + 4#32)).jumpTo (s.pc + immJ imm))

/-- JALR (R172): `rs1` is read before `rd` is written (D7). -/
def execJalr (rd rs1 : Reg) (imm : BitVec 12) (s : State) : Host.Outcome State Fault Refusal :=
  .next ((s.writeX rd (s.pc + 4#32)).jumpTo (jalrTarget (s.readX rs1) imm))

/-- BEQ (R174). -/
def execBeq (rs1 rs2 : Reg) (imm : BitVec 13) (s : State) : Host.Outcome State Fault Refusal :=
  .next (s.branch (s.readX rs1 == s.readX rs2) imm)

/-- BNE (R175). -/
def execBne (rs1 rs2 : Reg) (imm : BitVec 13) (s : State) : Host.Outcome State Fault Refusal :=
  .next (s.branch (s.readX rs1 != s.readX rs2) imm)

/-- BLT (R176). -/
def execBlt (rs1 rs2 : Reg) (imm : BitVec 13) (s : State) : Host.Outcome State Fault Refusal :=
  .next (s.branch (ltSigned (s.readX rs1) (s.readX rs2)) imm)

/-- BGE (R177). -/
def execBge (rs1 rs2 : Reg) (imm : BitVec 13) (s : State) : Host.Outcome State Fault Refusal :=
  .next (s.branch (!ltSigned (s.readX rs1) (s.readX rs2)) imm)

/-- BLTU (R178). -/
def execBltu (rs1 rs2 : Reg) (imm : BitVec 13) (s : State) : Host.Outcome State Fault Refusal :=
  .next (s.branch (ltUnsigned (s.readX rs1) (s.readX rs2)) imm)

/-- BGEU (R179). -/
def execBgeu (rs1 rs2 : Reg) (imm : BitVec 13) (s : State) : Host.Outcome State Fault Refusal :=
  .next (s.branch (!ltUnsigned (s.readX rs1) (s.readX rs2)) imm)

end Sys2Proof.Machine
end

