-- ==== Sys2Proof/Machine/FloatArith.lean ====
section
/-! DEFINITION. The arithmetic of the F extension (46_f_extension.md R290 to R323). A finite binary32 value is a whole number
of quanta of 2^-149, so values, sums and products are exact integers here, and each result is rounded once at the end
(R291). An operation whose result is `NaN` answers `none`; `nanResult` then gives the pattern (R293). -/

namespace Sys2Proof.Machine

/-! ## Format (R290) -/

/-- `sign(v)`. -/
def fSign (v : Word) : Bool := v.getLsbD 31
/-- `exp(v)`. -/
def fExp (v : Word) : Nat := (v.extractLsb' 23 8).toNat
/-- `frac(v)`. -/
def fFrac (v : Word) : Nat := (v.extractLsb' 0 23).toNat

def isNaN (v : Word) : Bool := decide (fExp v = 255 ∧ fFrac v ≠ 0)
def isInf (v : Word) : Bool := decide (fExp v = 255 ∧ fFrac v = 0)
def isZero (v : Word) : Bool := decide (v.extractLsb' 0 31 = 0#31)

/-- `neg(v)`. -/
def fNeg (v : Word) : Word := v ^^^ 0x80000000#32

/-- The pattern with these three fields. -/
def pack (sign : Bool) (exp frac : Nat) : Word :=
  BitVec.ofBool sign ++ BitVec.ofNat 8 exp ++ BitVec.ofNat 23 frac

def fInf (sign : Bool) : Word := pack sign 255 0
def fZero (sign : Bool) : Word := pack sign 0 0

/-- `|val(v)|` in quanta of 2^-149, for a finite `v`: a subnormal is `frac`, a normal
`(2^23 + frac) * 2^(exp - 150 + 149)`. -/
def magnitude (v : Word) : Nat :=
  if fExp v = 0 then fFrac v else (2 ^ 23 + fFrac v) * 2 ^ (fExp v - 1)

/-- `val(v)` in quanta of 2^-149, for a finite `v`. -/
def value (v : Word) : Int := if fSign v then -(magnitude v : Int) else (magnitude v : Int)

/-- One quantum is 1 / `quanta`. -/
def quanta : Nat := 2 ^ 149

/-! ## Rounding (R291) -/

/-- `rne_int(a / b)`: the nearest integer, the even one of two equally near. -/
def rneDiv (a b : Nat) : Nat :=
  if 2 * (a % b) < b then a / b
  else if b < 2 * (a % b) then a / b + 1
  else a / b + (a / b) % 2

/-- `e + 126` of R291 for a magnitude whose whole number of quanta is `t`: the spacing is `2^k` quanta. -/
def spacing (t : Nat) : Nat := Nat.log2 t - 23

/-- The end of `round_f32`: the pattern of `m = n * 2^k` quanta, `n` at most 2^24; an infinity from 2^128 on, a zero of the
same sign for `n = 0`. -/
def assemble (neg : Bool) (k n : Nat) : Word :=
  if 2 ^ (128 + 149) ≤ n * 2 ^ k then fInf neg
  else if n = 0 then fZero neg
  else if n < 2 ^ 23 then pack neg 0 n
  else if n < 2 ^ 24 then pack neg (k + 1) (n - 2 ^ 23)
  else pack neg (k + 2) 0

/-- `round_f32` of the non-zero rational whose magnitude is `num / den` quanta. -/
def roundQuotient (neg : Bool) (num den : Nat) : Word :=
  assemble neg (spacing (num / den)) (rneDiv num (den * 2 ^ spacing (num / den)))

/-- `round_f32` of the non-zero rational `num / den` quanta. -/
def roundInt (num : Int) (den : Nat) : Word := roundQuotient (decide (num < 0)) num.natAbs den

/-- The integer square root by its bits, from the highest down: the greatest `r` with `r * r ≤ n` among `acc` plus the
numbers of so many bits. -/
def sqrtBits : Nat → Nat → Nat → Nat
  | 0, _, acc => acc
  | b + 1, n, acc => if (acc + 2 ^ b) * (acc + 2 ^ b) ≤ n then sqrtBits b n (acc + 2 ^ b) else sqrtBits b n acc

/-- `floor(sqrt(n))` for `n < 2^50`. -/
def floorSqrt (n : Nat) : Nat := sqrtBits 25 n 0

/-- `rne_int(sqrt(a) / 2^k)`: the floor, or one more when `sqrt(a) / 2^k` is past the half way point, or at it from an odd
floor. -/
def rneSqrt (a k : Nat) : Nat :=
  if 4 * a < (2 * floorSqrt (a / 4 ^ k) + 1) ^ 2 * 4 ^ k then floorSqrt (a / 4 ^ k)
  else if (2 * floorSqrt (a / 4 ^ k) + 1) ^ 2 * 4 ^ k < 4 * a then floorSqrt (a / 4 ^ k) + 1
  else floorSqrt (a / 4 ^ k) + floorSqrt (a / 4 ^ k) % 2

/-- `round_f32(sqrt(r))` for the positive rational `r` of `m` quanta: `sqrt(r)` is `sqrt(m * 2^149)` quanta, and its
spacing exponent is that of the floor of the root, whose binary logarithm is half that of `m * 2^149`. -/
def roundSqrt (m : Nat) : Word :=
  assemble false (Nat.log2 (m * quanta) / 2 - 23) (rneSqrt (m * quanta) (Nat.log2 (m * quanta) / 2 - 23))

/-! ## NaN results (R293) -/

/-- `NAN_RESULT`: always a quiet NaN, whatever the parameter. -/
def nanResult (rule : NanRule) (op : FOp) (a b c : Word) : Word :=
  match rule with
  | .constant sign payload => sign ++ 0xFF#8 ++ 1#1 ++ payload
  | .unspecified =>
    (Config.freeNan op a b c).extractLsb' 22 1 ++ 0xFF#8 ++ 1#1 ++ (Config.freeNan op a b c).extractLsb' 0 22

/-! ## Arithmetic (R299 to R303): the clauses in the order of the rules -/

/-- `fadd` (R299). -/
def fadd (a b : Word) : Option Word :=
  if isNaN a || isNaN b then none
  else if isInf a && isInf b && fSign a != fSign b then none
  else if isInf a then some a
  else if isInf b then some b
  else if isZero a && isZero b && fSign a == fSign b then some a
  else if isZero a && isZero b then some (fZero false)
  else if value a + value b = 0 then some (fZero false)
  else some (roundInt (value a + value b) 1)

/-- `fsub` (R300). -/
def fsub (a b : Word) : Option Word := if isNaN a || isNaN b then none else fadd a (fNeg b)

/-- `fmul` (R301): a product of two whole numbers of quanta is a whole number of 2^-298. -/
def fmul (a b : Word) : Option Word :=
  if isNaN a || isNaN b then none
  else if (isInf a && isZero b) || (isZero a && isInf b) then none
  else if isInf a || isInf b then some (fInf (fSign a != fSign b))
  else if isZero a || isZero b then some (fZero (fSign a != fSign b))
  else some (roundInt (value a * value b) quanta)

/-- `fdiv` (R302). -/
def fdiv (a b : Word) : Option Word :=
  if isNaN a || isNaN b then none
  else if (isInf a && isInf b) || (isZero a && isZero b) then none
  else if isInf a then some (fInf (fSign a != fSign b))
  else if isInf b then some (fZero (fSign a != fSign b))
  else if isZero b then some (fInf (fSign a != fSign b))
  else if isZero a then some (fZero (fSign a != fSign b))
  else some (roundQuotient (fSign a != fSign b) (magnitude a * quanta) (magnitude b))

/-- `fsqrt` (R303). -/
def fsqrt (a : Word) : Option Word :=
  if isNaN a then none
  else if isZero a then some a
  else if fSign a then none
  else if isInf a then some (fInf false)
  else some (roundSqrt (magnitude a))

/-- `fma` (R319): one rounding; the product and the addend meet in units of 2^-298. -/
def fma (a b c : Word) : Option Word :=
  if isNaN a || isNaN b || isNaN c then none
  else if (isInf a && isZero b) || (isZero a && isInf b) then none
  else if (isInf a || isInf b) && isInf c && fSign c != (fSign a != fSign b) then none
  else if isInf a || isInf b then some (fInf (fSign a != fSign b))
  else if isInf c then some c
  else if (isZero a || isZero b) && isZero c && fSign c == (fSign a != fSign b) then some c
  else if (isZero a || isZero b) && isZero c then some (fZero false)
  else if isZero a || isZero b then some c
  else if value a * value b + value c * quanta = 0 then some (fZero false)
  else some (roundInt (value a * value b + value c * quanta) quanta)

/-- FMSUB.S's function (R320). -/
def fmsub (a b c : Word) : Option Word :=
  if isNaN a || isNaN b || isNaN c then none else fma a b (fNeg c)

/-- FNMSUB.S's function (R321). -/
def fnmsub (a b c : Word) : Option Word :=
  if isNaN a || isNaN b || isNaN c then none else fma (fNeg a) b c

/-- FNMADD.S's function (R322). -/
def fnmadd (a b c : Word) : Option Word :=
  if isNaN a || isNaN b || isNaN c then none else fma (fNeg a) b (fNeg c)

/-! ## Order, comparisons, minimum and maximum (R307, R308, R312 to R314) -/

/-- The extended real a non-NaN operand compares as, in quanta: an infinity is beyond every finite value, and the two
zeros are equal. -/
def orderKey (v : Word) : Int :=
  if isInf v then (if fSign v then -(2 ^ 277 : Int) else 2 ^ 277) else value v

/-- `feq` (R312). -/
def feq (a b : Word) : Bool := !isNaN a && !isNaN b && decide (orderKey a = orderKey b)
/-- `flt` (R313). -/
def flt (a b : Word) : Bool := !isNaN a && !isNaN b && decide (orderKey a < orderKey b)
/-- `fle` (R314). -/
def fle (a b : Word) : Bool := !isNaN a && !isNaN b && decide (orderKey a ≤ orderKey b)

/-- `fmin` (R307). -/
def fmin (a b : Word) : Option Word :=
  if isNaN a && isNaN b then none
  else if isNaN a then some b
  else if isNaN b then some a
  else if isZero a && isZero b && fSign a != fSign b then some (fZero true)
  else if flt a b then some a
  else some b

/-- `fmax` (R308). -/
def fmax (a b : Word) : Option Word :=
  if isNaN a && isNaN b then none
  else if isNaN a then some b
  else if isNaN b then some a
  else if isZero a && isZero b && fSign a != fSign b then some (fZero false)
  else if flt b a then some a
  else some b

/-! ## Sign injection (R304 to R306) -/

/-- FSGNJ.S. -/
def fsgnj (a b : Word) : Word := b.extractLsb' 31 1 ++ a.extractLsb' 0 31
/-- FSGNJN.S. -/
def fsgnjn (a b : Word) : Word := ~~~(b.extractLsb' 31 1) ++ a.extractLsb' 0 31
/-- FSGNJX.S. -/
def fsgnjx (a b : Word) : Word := (a.extractLsb' 31 1 ^^^ b.extractLsb' 31 1) ++ a.extractLsb' 0 31

/-! ## Classification (R295) -/

/-- `fclass`: the mask of R295's table. -/
def fclass (v : Word) : Word :=
  if v = 0xFF800000#32 then 0x001#32
  else if fSign v ∧ 1 ≤ fExp v ∧ fExp v ≤ 254 then 0x002#32
  else if fSign v ∧ fExp v = 0 ∧ fFrac v ≠ 0 then 0x004#32
  else if v = 0x80000000#32 then 0x008#32
  else if v = 0x00000000#32 then 0x010#32
  else if fExp v = 0 ∧ fFrac v ≠ 0 then 0x020#32
  else if 1 ≤ fExp v ∧ fExp v ≤ 254 then 0x040#32
  else if v = 0x7F800000#32 then 0x080#32
  else if v.getLsbD 22 = false then 0x100#32
  else 0x200#32

/-! ## Conversions (R309, R310, R316, R317) -/

/-- `rint` of a finite value, as `F2I_ROUND` says (R309); both roundings are the same for `r` and `-r`. -/
def rint (mode : F2IRound) (v : Word) : Int :=
  let n := match mode with
    | .rne => rneDiv (magnitude v) quanta
    | .rtz => magnitude v / quanta
  if fSign v then -(n : Int) else (n : Int)

/-- `f2i` (R309). -/
def f2i (mode : F2IRound) (v : Word) : Word :=
  if isNaN v then 0x7FFFFFFF#32
  else if isInf v then (if fSign v then 0x80000000#32 else 0x7FFFFFFF#32)
  else if 2 ^ 31 - 1 < rint mode v then 0x7FFFFFFF#32
  else if rint mode v < -2 ^ 31 then 0x80000000#32
  else BitVec.ofInt 32 (rint mode v)

/-- `f2u` (R310). -/
def f2u (mode : F2IRound) (v : Word) : Word :=
  if isNaN v then 0xFFFFFFFF#32
  else if isInf v then (if fSign v then 0#32 else 0xFFFFFFFF#32)
  else if 2 ^ 32 - 1 < rint mode v then 0xFFFFFFFF#32
  else if rint mode v < 0 then 0#32
  else BitVec.ofInt 32 (rint mode v)

/-- FCVT.S.W's function (R316). -/
def i2f (v : Word) : Word := if v = 0#32 then fZero false else roundInt (v.toInt * quanta) 1

/-- FCVT.S.WU's function (R317). -/
def u2f (v : Word) : Word := if v = 0#32 then fZero false else roundInt (v.toNat * quanta) 1

end Sys2Proof.Machine
end

