-- ==== Sys2Proof/Machine/Float.lean ====
section
/-! DEFINITION. The instructions of the F extension (46_f_extension.md). `rm` is decoded and ignored (R120, R292); no flag is set
and nothing is latched (R294). -/

namespace Sys2Proof.Machine

/-- The end of a value-level instruction with a floating-point result: `none` is a NaN, `NAN_RESULT` of the instruction
and its operand patterns (R293). -/
def State.finishArith (s : State) (op : FOp) (rd : Reg) (result : Option Word) (a b c : Word) : State :=
  s.finishF rd (result.getD (nanResult s.params.nanRule op a b c))

/-- FLW (R297): all 32 bits as they are. -/
def execFlw (rd rs1 : Reg) (imm : BitVec 12) (s : State) : Host.Outcome State Fault Refusal :=
  .next ((s.memRead (s.ea rs1 imm) .word).2.finishF rd (s.memRead (s.ea rs1 imm) .word).1)

/-- FSW (R298). -/
def execFsw (rs1 rs2 : Reg) (imm : BitVec 12) (s : State) : Host.Outcome State Fault Refusal :=
  .next (s.memWrite (s.ea rs1 imm) .word (s.readF rs2)).advance

/-- FADD.S (R299). -/
def execFaddS (rd rs1 rs2 : Reg) (_rm : BitVec 3) (s : State) : Host.Outcome State Fault Refusal :=
  .next (s.finishArith .fadd rd (fadd (s.readF rs1) (s.readF rs2)) (s.readF rs1) (s.readF rs2) 0#32)

/-- FSUB.S (R300). -/
def execFsubS (rd rs1 rs2 : Reg) (_rm : BitVec 3) (s : State) : Host.Outcome State Fault Refusal :=
  .next (s.finishArith .fsub rd (fsub (s.readF rs1) (s.readF rs2)) (s.readF rs1) (s.readF rs2) 0#32)

/-- FMUL.S (R301). -/
def execFmulS (rd rs1 rs2 : Reg) (_rm : BitVec 3) (s : State) : Host.Outcome State Fault Refusal :=
  .next (s.finishArith .fmul rd (fmul (s.readF rs1) (s.readF rs2)) (s.readF rs1) (s.readF rs2) 0#32)

/-- FDIV.S (R302). -/
def execFdivS (rd rs1 rs2 : Reg) (_rm : BitVec 3) (s : State) : Host.Outcome State Fault Refusal :=
  .next (s.finishArith .fdiv rd (fdiv (s.readF rs1) (s.readF rs2)) (s.readF rs1) (s.readF rs2) 0#32)

/-- FSQRT.S (R303). -/
def execFsqrtS (rd rs1 : Reg) (_rm : BitVec 3) (s : State) : Host.Outcome State Fault Refusal :=
  .next (s.finishArith .fsqrt rd (fsqrt (s.readF rs1)) (s.readF rs1) 0#32 0#32)

/-- FSGNJ.S (R304). -/
def execFsgnjS (rd rs1 rs2 : Reg) (s : State) : Host.Outcome State Fault Refusal :=
  .next (s.finishF rd (fsgnj (s.readF rs1) (s.readF rs2)))

/-- FSGNJN.S (R305). -/
def execFsgnjnS (rd rs1 rs2 : Reg) (s : State) : Host.Outcome State Fault Refusal :=
  .next (s.finishF rd (fsgnjn (s.readF rs1) (s.readF rs2)))

/-- FSGNJX.S (R306). -/
def execFsgnjxS (rd rs1 rs2 : Reg) (s : State) : Host.Outcome State Fault Refusal :=
  .next (s.finishF rd (fsgnjx (s.readF rs1) (s.readF rs2)))

/-- FMIN.S (R307). -/
def execFminS (rd rs1 rs2 : Reg) (s : State) : Host.Outcome State Fault Refusal :=
  .next (s.finishArith .fmin rd (fmin (s.readF rs1) (s.readF rs2)) (s.readF rs1) (s.readF rs2) 0#32)

/-- FMAX.S (R308). -/
def execFmaxS (rd rs1 rs2 : Reg) (s : State) : Host.Outcome State Fault Refusal :=
  .next (s.finishArith .fmax rd (fmax (s.readF rs1) (s.readF rs2)) (s.readF rs1) (s.readF rs2) 0#32)

/-- FCVT.W.S (R309). -/
def execFcvtWS (rd rs1 : Reg) (_rm : BitVec 3) (s : State) : Host.Outcome State Fault Refusal :=
  .next (s.finishX rd (f2i s.params.f2iRound (s.readF rs1)))

/-- FCVT.WU.S (R310). -/
def execFcvtWuS (rd rs1 : Reg) (_rm : BitVec 3) (s : State) : Host.Outcome State Fault Refusal :=
  .next (s.finishX rd (f2u s.params.f2iRound (s.readF rs1)))

/-- FMV.X.W (R311). -/
def execFmvXW (rd rs1 : Reg) (s : State) : Host.Outcome State Fault Refusal :=
  .next (s.finishX rd (s.readF rs1))

/-- FEQ.S (R312). -/
def execFeqS (rd rs1 rs2 : Reg) (s : State) : Host.Outcome State Fault Refusal :=
  .next (s.finishX rd (boolWord (feq (s.readF rs1) (s.readF rs2))))

/-- FLT.S (R313). -/
def execFltS (rd rs1 rs2 : Reg) (s : State) : Host.Outcome State Fault Refusal :=
  .next (s.finishX rd (boolWord (flt (s.readF rs1) (s.readF rs2))))

/-- FLE.S (R314). -/
def execFleS (rd rs1 rs2 : Reg) (s : State) : Host.Outcome State Fault Refusal :=
  .next (s.finishX rd (boolWord (fle (s.readF rs1) (s.readF rs2))))

/-- FCLASS.S (R315). -/
def execFclassS (rd rs1 : Reg) (s : State) : Host.Outcome State Fault Refusal :=
  .next (s.finishX rd (fclass (s.readF rs1)))

/-- FCVT.S.W (R316). -/
def execFcvtSW (rd rs1 : Reg) (_rm : BitVec 3) (s : State) : Host.Outcome State Fault Refusal :=
  .next (s.finishF rd (i2f (s.readX rs1)))

/-- FCVT.S.WU (R317). -/
def execFcvtSWu (rd rs1 : Reg) (_rm : BitVec 3) (s : State) : Host.Outcome State Fault Refusal :=
  .next (s.finishF rd (u2f (s.readX rs1)))

/-- FMV.W.X (R318). -/
def execFmvWX (rd rs1 : Reg) (s : State) : Host.Outcome State Fault Refusal :=
  .next (s.finishF rd (s.readX rs1))

/-- FMADD.S (R319). -/
def execFmaddS (rd rs1 rs2 rs3 : Reg) (_rm : BitVec 3) (s : State) : Host.Outcome State Fault Refusal :=
  .next (s.finishArith .fmadd rd (fma (s.readF rs1) (s.readF rs2) (s.readF rs3))
    (s.readF rs1) (s.readF rs2) (s.readF rs3))

/-- FMSUB.S (R320). -/
def execFmsubS (rd rs1 rs2 rs3 : Reg) (_rm : BitVec 3) (s : State) : Host.Outcome State Fault Refusal :=
  .next (s.finishArith .fmsub rd (fmsub (s.readF rs1) (s.readF rs2) (s.readF rs3))
    (s.readF rs1) (s.readF rs2) (s.readF rs3))

/-- FNMSUB.S (R321). -/
def execFnmsubS (rd rs1 rs2 rs3 : Reg) (_rm : BitVec 3) (s : State) : Host.Outcome State Fault Refusal :=
  .next (s.finishArith .fnmsub rd (fnmsub (s.readF rs1) (s.readF rs2) (s.readF rs3))
    (s.readF rs1) (s.readF rs2) (s.readF rs3))

/-- FNMADD.S (R322). -/
def execFnmaddS (rd rs1 rs2 rs3 : Reg) (_rm : BitVec 3) (s : State) : Host.Outcome State Fault Refusal :=
  .next (s.finishArith .fnmadd rd (fnmadd (s.readF rs1) (s.readF rs2) (s.readF rs3))
    (s.readF rs1) (s.readF rs2) (s.readF rs3))

end Sys2Proof.Machine
end

