-- ==== Sys2Proof/Machine/Integer.lean ====
section
/-! DEFINITION. The integer computational instructions (40_integer_computational.md): LUI, AUIPC, OP-IMM, OP. Each reads
its sources, writes `rd`, and advances `PC` (R130). -/

namespace Sys2Proof.Machine

/-- LUI (R131). -/
def execLui (rd : Reg) (imm : BitVec 20) (s : State) : Host.Outcome State Fault Refusal :=
  .next (s.finishX rd (immU imm))

/-- AUIPC (R132): `pc` is the address of the AUIPC itself. -/
def execAuipc (rd : Reg) (imm : BitVec 20) (s : State) : Host.Outcome State Fault Refusal :=
  .next (s.finishX rd (immU imm + s.pc))

/-- ADDI (R133). -/
def execAddi (rd rs1 : Reg) (imm : BitVec 12) (s : State) : Host.Outcome State Fault Refusal :=
  .next (s.finishX rd (s.readX rs1 + imm12 imm))

/-- SLTI (R134). -/
def execSlti (rd rs1 : Reg) (imm : BitVec 12) (s : State) : Host.Outcome State Fault Refusal :=
  .next (s.finishX rd (boolWord (ltSigned (s.readX rs1) (imm12 imm))))

/-- SLTIU (R135): the immediate is sign-extended, then compared as unsigned. -/
def execSltiu (rd rs1 : Reg) (imm : BitVec 12) (s : State) : Host.Outcome State Fault Refusal :=
  .next (s.finishX rd (boolWord (ltUnsigned (s.readX rs1) (imm12 imm))))

/-- XORI (R136). -/
def execXori (rd rs1 : Reg) (imm : BitVec 12) (s : State) : Host.Outcome State Fault Refusal :=
  .next (s.finishX rd (s.readX rs1 ^^^ imm12 imm))

/-- ORI (R137). -/
def execOri (rd rs1 : Reg) (imm : BitVec 12) (s : State) : Host.Outcome State Fault Refusal :=
  .next (s.finishX rd (s.readX rs1 ||| imm12 imm))

/-- ANDI (R138). -/
def execAndi (rd rs1 : Reg) (imm : BitVec 12) (s : State) : Host.Outcome State Fault Refusal :=
  .next (s.finishX rd (s.readX rs1 &&& imm12 imm))

/-- SLLI (R139): `inst[31:25]` is ignored. -/
def execSlli (rd rs1 : Reg) (shamt : BitVec 5) (_hi : BitVec 7) (s : State) : Host.Outcome State Fault Refusal :=
  .next (s.finishX rd (s.readX rs1 <<< shamt.toNat))

/-- SRLI (R140): `inst[31]` and `inst[29:25]` are ignored. -/
def execSrli (rd rs1 : Reg) (shamt : BitVec 5) (_b31 : BitVec 1) (_b29 : BitVec 5) (s : State) :
    Host.Outcome State Fault Refusal :=
  .next (s.finishX rd (s.readX rs1 >>> shamt.toNat))

/-- SRAI (R141): `inst[31]` and `inst[29:25]` are ignored. -/
def execSrai (rd rs1 : Reg) (shamt : BitVec 5) (_b31 : BitVec 1) (_b29 : BitVec 5) (s : State) :
    Host.Outcome State Fault Refusal :=
  .next (s.finishX rd ((s.readX rs1).sshiftRight shamt.toNat))

/-- ADD (R142). -/
def execAdd (rd rs1 rs2 : Reg) (s : State) : Host.Outcome State Fault Refusal :=
  .next (s.finishX rd (s.readX rs1 + s.readX rs2))

/-- SUB (R143). -/
def execSub (rd rs1 rs2 : Reg) (s : State) : Host.Outcome State Fault Refusal :=
  .next (s.finishX rd (s.readX rs1 - s.readX rs2))

/-- SLL (R144). -/
def execSll (rd rs1 rs2 : Reg) (s : State) : Host.Outcome State Fault Refusal :=
  .next (s.finishX rd (s.readX rs1 <<< shiftAmount (s.readX rs2)))

/-- SLT (R145). -/
def execSlt (rd rs1 rs2 : Reg) (s : State) : Host.Outcome State Fault Refusal :=
  .next (s.finishX rd (boolWord (ltSigned (s.readX rs1) (s.readX rs2))))

/-- SLTU (R146). -/
def execSltu (rd rs1 rs2 : Reg) (s : State) : Host.Outcome State Fault Refusal :=
  .next (s.finishX rd (boolWord (ltUnsigned (s.readX rs1) (s.readX rs2))))

/-- XOR (R147). -/
def execXor (rd rs1 rs2 : Reg) (s : State) : Host.Outcome State Fault Refusal :=
  .next (s.finishX rd (s.readX rs1 ^^^ s.readX rs2))

/-- SRL (R148). -/
def execSrl (rd rs1 rs2 : Reg) (s : State) : Host.Outcome State Fault Refusal :=
  .next (s.finishX rd (s.readX rs1 >>> shiftAmount (s.readX rs2)))

/-- SRA (R149). -/
def execSra (rd rs1 rs2 : Reg) (s : State) : Host.Outcome State Fault Refusal :=
  .next (s.finishX rd ((s.readX rs1).sshiftRight (shiftAmount (s.readX rs2))))

/-- OR (R150). -/
def execOr (rd rs1 rs2 : Reg) (s : State) : Host.Outcome State Fault Refusal :=
  .next (s.finishX rd (s.readX rs1 ||| s.readX rs2))

/-- AND (R151). -/
def execAnd (rd rs1 rs2 : Reg) (s : State) : Host.Outcome State Fault Refusal :=
  .next (s.finishX rd (s.readX rs1 &&& s.readX rs2))

end Sys2Proof.Machine
end

