-- ==== Sys2Proof/Machine/LoadStore.lean ====
section
/-! DEFINITION. Loads, stores and fences (42_load_store_fence.md). -/

namespace Sys2Proof.Machine

/-- The common part of the loads (R190): one read, the extended value to `rd`, `pc + 4`. The read is made even when `rd`
is `x0`. -/
def State.load (s : State) (rd rs1 : Reg) (imm : BitVec 12) (n : Width) (ext : Word → Word) : State :=
  (s.memRead (s.ea rs1 imm) n).2.finishX rd (ext (s.memRead (s.ea rs1 imm) n).1)

/-- The common part of the stores (R196): one write, `pc + 4`. -/
def State.store (s : State) (a : Word) (n : Width) (v : Word) : State := (s.memWrite a n v).advance

/-- LB (R191). -/
def execLb (rd rs1 : Reg) (imm : BitVec 12) (s : State) : Host.Outcome State Fault Refusal :=
  .next (s.load rd rs1 imm .byte sext8)

/-- LH (R192). -/
def execLh (rd rs1 : Reg) (imm : BitVec 12) (s : State) : Host.Outcome State Fault Refusal :=
  .next (s.load rd rs1 imm .half sext16)

/-- LW (R193). -/
def execLw (rd rs1 : Reg) (imm : BitVec 12) (s : State) : Host.Outcome State Fault Refusal :=
  .next (s.load rd rs1 imm .word id)

/-- LBU (R194). -/
def execLbu (rd rs1 : Reg) (imm : BitVec 12) (s : State) : Host.Outcome State Fault Refusal :=
  .next (s.load rd rs1 imm .byte zext8)

/-- LHU (R195). -/
def execLhu (rd rs1 : Reg) (imm : BitVec 12) (s : State) : Host.Outcome State Fault Refusal :=
  .next (s.load rd rs1 imm .half zext16)

/-- SB (R197). -/
def execSb (rs1 rs2 : Reg) (imm : BitVec 12) (s : State) : Host.Outcome State Fault Refusal :=
  .next (s.store (s.ea rs1 imm) .byte (s.readX rs2))

/-- SH (R198). -/
def execSh (rs1 rs2 : Reg) (imm : BitVec 12) (s : State) : Host.Outcome State Fault Refusal :=
  .next (s.store (s.ea rs1 imm) .half (s.readX rs2))

/-- SW (R199). -/
def execSw (rs1 rs2 : Reg) (imm : BitVec 12) (s : State) : Host.Outcome State Fault Refusal :=
  .next (s.store (s.ea rs1 imm) .word (s.readX rs2))

/-- FENCE (R200, D11): only `pc + 4`, whatever its fields hold. -/
def execFence (_rd _rs1 : Reg) (_succ _pred _fm : BitVec 4) (s : State) : Host.Outcome State Fault Refusal :=
  .next s.advance

/-- FENCE.I (R201, D11): only `pc + 4`. -/
def execFenceI (_rd _rs1 : Reg) (_imm : BitVec 12) (s : State) : Host.Outcome State Fault Refusal :=
  .next s.advance

end Sys2Proof.Machine
end

