-- ==== Sys2Proof/Machine/MulDiv.lean ====
section
/-! DEFINITION. The M extension (44_m_extension.md). The operands are read as integers, the result is computed exactly and
narrowed at the end. -/

namespace Sys2Proof.Machine

/-- MUL's `f` (R241): the low 32 bits of the product. -/
def mulLow (a b : Word) : Word := a * b

/-- The upper 32 bits of a 64-bit two's-complement product (R242, R243, R244). -/
def highWord (product : Int) : Word := (BitVec.ofInt 64 product).extractLsb' 32 32

/-- MULH's `f` (R242): signed by signed. -/
def mulHigh (a b : Word) : Word := highWord (a.toInt * b.toInt)

/-- MULHSU's `f` (R243): `rs1` signed, `rs2` unsigned. -/
def mulHighSU (a b : Word) : Word := highWord (a.toInt * (b.toNat : Int))

/-- MULHU's `f` (R244): unsigned by unsigned. -/
def mulHighU (a b : Word) : Word := highWord ((a.toNat : Int) * (b.toNat : Int))

/-- DIV's `f` (R245): rounded toward zero, with the two sentinel cases. -/
def divSigned (a b : Word) : Word :=
  if b = 0#32 then 0xFFFFFFFF#32
  else if a = 0x80000000#32 ∧ b = 0xFFFFFFFF#32 then 0x80000000#32
  else BitVec.ofInt 32 (a.toInt.tdiv b.toInt)

/-- DIVU's `f` (R246). -/
def divUnsigned (a b : Word) : Word :=
  if b = 0#32 then 0xFFFFFFFF#32 else BitVec.ofNat 32 (a.toNat / b.toNat)

/-- REM's `f` (R247): the sign follows the dividend. -/
def remSigned (a b : Word) : Word :=
  if b = 0#32 then a
  else if a = 0x80000000#32 ∧ b = 0xFFFFFFFF#32 then 0#32
  else BitVec.ofInt 32 (a.toInt - b.toInt * a.toInt.tdiv b.toInt)

/-- REMU's `f` (R248). -/
def remUnsigned (a b : Word) : Word :=
  if b = 0#32 then a else BitVec.ofNat 32 (a.toNat % b.toNat)

/-- MUL (R241). -/
def execMul (rd rs1 rs2 : Reg) (s : State) : Host.Outcome State Fault Refusal :=
  .next (s.finishX rd (mulLow (s.readX rs1) (s.readX rs2)))

/-- MULH (R242). -/
def execMulh (rd rs1 rs2 : Reg) (s : State) : Host.Outcome State Fault Refusal :=
  .next (s.finishX rd (mulHigh (s.readX rs1) (s.readX rs2)))

/-- MULHSU (R243). -/
def execMulhsu (rd rs1 rs2 : Reg) (s : State) : Host.Outcome State Fault Refusal :=
  .next (s.finishX rd (mulHighSU (s.readX rs1) (s.readX rs2)))

/-- MULHU (R244). -/
def execMulhu (rd rs1 rs2 : Reg) (s : State) : Host.Outcome State Fault Refusal :=
  .next (s.finishX rd (mulHighU (s.readX rs1) (s.readX rs2)))

/-- DIV (R245). -/
def execDiv (rd rs1 rs2 : Reg) (s : State) : Host.Outcome State Fault Refusal :=
  .next (s.finishX rd (divSigned (s.readX rs1) (s.readX rs2)))

/-- DIVU (R246). -/
def execDivu (rd rs1 rs2 : Reg) (s : State) : Host.Outcome State Fault Refusal :=
  .next (s.finishX rd (divUnsigned (s.readX rs1) (s.readX rs2)))

/-- REM (R247). -/
def execRem (rd rs1 rs2 : Reg) (s : State) : Host.Outcome State Fault Refusal :=
  .next (s.finishX rd (remSigned (s.readX rs1) (s.readX rs2)))

/-- REMU (R248). -/
def execRemu (rd rs1 rs2 : Reg) (s : State) : Host.Outcome State Fault Refusal :=
  .next (s.finishX rd (remUnsigned (s.readX rs1) (s.readX rs2)))

end Sys2Proof.Machine
end

