-- ==== Sys2Proof/Machine/System.lean ====
section
/-! DEFINITION. ECALL, EBREAK and the CSR instructions (43_system_csr.md). -/

namespace Sys2Proof.Machine

/-- ECALL (R210, D8): the handler first, with `PC` still at the ECALL, then `PC + 4` on what the handler left. The whole
word goes to the handler. -/
def execEcall (rd rs1 : Reg) (lo : BitVec 2) (s : State) : Host.Outcome State Fault Refusal :=
  .next (s.onEcall (encode (.ecall rd rs1 lo))).advance

/-- EBREAK (R211, D8). -/
def execEbreak (rd rs1 : Reg) (lo : BitVec 2) (s : State) : Host.Outcome State Fault Refusal :=
  .next (s.onEbreak (encode (.ebreak rd rs1 lo))).advance

/-- The common part of the CSR instructions (R213): read, write `new old`, the old value to `rd`, `pc + 4`. -/
def State.csrAccess (s : State) (rd : Reg) (csr : BitVec 12) (new : Word → Word) : State :=
  (s.writeCsr csr (new (s.readCsr csr))).finishX rd (s.readCsr csr)

/-- CSRRW (R214). -/
def execCsrrw (rd rs1 : Reg) (csr : BitVec 12) (s : State) : Host.Outcome State Fault Refusal :=
  .next (s.csrAccess rd csr (fun _ => s.readX rs1))

/-- CSRRS (R215). -/
def execCsrrs (rd rs1 : Reg) (csr : BitVec 12) (s : State) : Host.Outcome State Fault Refusal :=
  .next (s.csrAccess rd csr (fun old => old ||| s.readX rs1))

/-- CSRRC (R216). -/
def execCsrrc (rd rs1 : Reg) (csr : BitVec 12) (s : State) : Host.Outcome State Fault Refusal :=
  .next (s.csrAccess rd csr (fun old => old &&& ~~~(s.readX rs1)))

/-- CSRRWI (R217). -/
def execCsrrwi (rd : Reg) (zimm : BitVec 5) (csr : BitVec 12) (s : State) : Host.Outcome State Fault Refusal :=
  .next (s.csrAccess rd csr (fun _ => zimmOf zimm))

/-- CSRRSI (R218). -/
def execCsrrsi (rd : Reg) (zimm : BitVec 5) (csr : BitVec 12) (s : State) : Host.Outcome State Fault Refusal :=
  .next (s.csrAccess rd csr (fun old => old ||| zimmOf zimm))

/-- CSRRCI (R219). -/
def execCsrrci (rd : Reg) (zimm : BitVec 5) (csr : BitVec 12) (s : State) : Host.Outcome State Fault Refusal :=
  .next (s.csrAccess rd csr (fun old => old &&& ~~~(zimmOf zimm)))

end Sys2Proof.Machine
end

