-- ==== Sys2Proof/Machine/Environment.lean ====
section
/-! DEFINITION. What the environment does outside a step (70_reset_and_hazards.md R390 to R394, R403): create and reset. -/

namespace Sys2Proof.Machine

/-- `reset(pc)` (R391): registers and CSRs cleared, `X[2]` the default stack address, the latch `none`. The constants, the
environment's side of the bus and memory are untouched. Without EXT_F there is no `F` to clear. -/
def State.resetTo (s : State) (pc : Word) : State :=
  { s with x := resetX s.params, pc := pc, exc := .none, csrCycle := 0#64, csrMstatus := 0#32, csrFcsr := 0#32,
           f := if s.params.extF then Vector.replicate 32 0#32 else s.f }

/-- `create(io, userdata)` (R390): the two constants are fixed, then `reset(0)`. -/
def State.create (params : Params) (userdata : Nat) (io : Bus) : State :=
  State.resetTo
    { params := params, userdata := userdata, x := Vector.replicate 32 0#32, pc := 0#32, exc := .none, csrCycle := 0#64,
      csrMstatus := 0#32, csrFcsr := 0#32, f := Vector.replicate 32 0#32, bus := io, freeCount := 0 }
    0#32

end Sys2Proof.Machine
end

