-- ==== Sys2Proof/Machine/Driver.lean ====
section
/-! DEFINITION. The execution driver (70_reset_and_hazards.md R395 to R397): one instruction, `step(cycles)`, and the
source's own two nested loops with the sequential flag. -/

namespace Sys2Proof.Machine

/-- `step1` (R395), for a state whose latch is `none`: fetch, dispatch, execute or latch `illegal_inst`, count. The word a
callback returned is executed even when the callback set the latch (R76). -/
def step1 (s : State) : Host.Outcome State Fault Refusal :=
  match decodeWord s.params s.iFetch.1 with
  | .instr i =>
    match exec i s.iFetch.2 with
    | .next t => .next t.retire
    | .fault r => .fault r
    | .refused r => .refused r
  | .illegal _ => .next s.iFetch.2.illegal.retire

/-- The sequential flag the execution unit returns to the driver in `step1` (R397). -/
def sequential1 (s : State) : Bool :=
  match decodeWord s.params s.iFetch.1 with
  | .instr i => sequential i s.iFetch.2
  | .illegal _ => false

/-- The condition of the driver's loops (R395). -/
def running (target : Nat) (s : State) : Bool := decide (s.csrCycle.toNat < target) && s.exc == .none

/-- `while running: step1` (R395's normative form), at most `fuel` times round. -/
def driverLoop : Nat → Nat → State → Host.Outcome State Fault Refusal
  | 0, _, s => .next s
  | fuel + 1, target, s =>
    if running target s then
      match step1 s with
      | .next t => driverLoop fuel target t
      | .fault r => .fault r
      | .refused r => .refused r
    else .next s

/-- `step(cycles)` (R395). Under the premise `csr_cycle + cycles < 2^64` (D25) each time round adds one to the counter, so the
bound of `cycles` rounds never acts. Where the premise fails the spec says nothing; DESIGN CHOICE (log 19): the target is the
number `csr_cycle + cycles`, not reduced, and the call ends after `cycles` instructions or the first that leaves a latch. -/
def driver (cycles : Nat) (s : State) : Host.Outcome State Fault Refusal :=
  driverLoop cycles (s.csrCycle.toNat + cycles) s

/-- The loop as the source writes it (R395), the JIT line left out: `inner` says whether control is at the head of the inner
loop or of the outer one. The inner loop is left when its condition fails or the unit was not sequential. -/
def sourceLoop : Nat → Bool → Nat → State → Host.Outcome State Fault Refusal
  | 0, _, _, s => .next s
  | fuel + 1, false, target, s => if running target s then sourceLoop fuel true target s else .next s
  | fuel + 1, true, target, s =>
    if running target s then
      match step1 s with
      | .next t => sourceLoop fuel (sequential1 s) target t
      | .fault r => .fault r
      | .refused r => .refused r
    else sourceLoop fuel false target s

/-- The source's `step(cycles)`: at most two loop heads an instruction, and two to leave, so under D25's premise the bound on
loop heads never acts. Where the premise fails it bounds the loop heads, not the instructions, and may answer otherwise than
`driver`: DESIGN CHOICE (log 19). -/
def driverSource (cycles : Nat) (s : State) : Host.Outcome State Fault Refusal :=
  sourceLoop (2 * cycles + 3) false (s.csrCycle.toNat + cycles) s

end Sys2Proof.Machine
end

