-- ==== Sys2Proof/Machine/Step.lean ====
section
/-! DEFINITION. One step of the machine, and placing an instruction where the next step fetches it. -/

namespace Sys2Proof.Machine

/-- `step(1)` (R395): one instruction when the latch is `none`; a latched state stays as it is (R27). At the counter's maximum,
where D25's premise fails, it runs its instruction all the same (DESIGN CHOICE, log 19), and the counter is log 6's. -/
def step (s : State) : Host.Outcome State Fault Refusal :=
  if s.exc = .none then step1 s else .next s

/-- The state in which the next step fetches and runs the instruction whose bits are `w` (log 9). -/
def State.withFetchWord (s : State) (nbits w : Nat) : State := s.placeWord (tableWord nbits w)

end Sys2Proof.Machine
end

