-- ==== Sys2Proof/Machine/FloatLaws.lean ====
section
/-! DEFINITION. The eight laws of the F unit (46_f_extension.md R324), each by a name of its own, in the rule's order. The first
two are the source's; the others the spec derives from R291 to R322. -/

namespace Sys2Proof.Machine

/-- The integer register an instruction of the F extension names as its destination. -/
def fIntDest : Instr → Option Reg
  | .fcvtWS rd _ _ | .fcvtWuS rd _ _ | .fmvXW rd _ | .feqS rd _ _ | .fltS rd _ _ | .fleS rd _ _ | .fclassS rd _ => some rd
  | .flw .. | .fsw .. | .fmaddS .. | .fmsubS .. | .fnmsubS .. | .fnmaddS .. | .faddS .. | .fsubS .. | .fmulS .. | .fdivS ..
  | .fsqrtS .. | .fsgnjS .. | .fsgnjnS .. | .fsgnjxS .. | .fminS .. | .fmaxS .. | .fcvtSW .. | .fcvtSWu .. | .fmvWX .. => none
  | .lui .. | .auipc .. | .jal .. | .jalr .. | .beq .. | .bne .. | .blt .. | .bge .. | .bltu .. | .bgeu ..
  | .lb .. | .lh .. | .lw .. | .lbu .. | .lhu .. | .sb .. | .sh .. | .sw .. | .addi .. | .slti .. | .sltiu ..
  | .xori .. | .ori .. | .andi .. | .slli .. | .srli .. | .srai .. | .add .. | .sub .. | .sll .. | .slt ..
  | .sltu .. | .xor .. | .srl .. | .sra .. | .or .. | .and .. | .fence .. | .fenceI .. | .ecall .. | .ebreak ..
  | .csrrw .. | .csrrs .. | .csrrc .. | .csrrwi .. | .csrrsi .. | .csrrci .. | .mul .. | .mulh .. | .mulhsu ..
  | .mulhu .. | .div .. | .divu .. | .rem .. | .remu .. | .lrW .. | .scW .. | .amoswapW .. | .amoaddW ..
  | .amoxorW .. | .amoandW .. | .amoorW .. | .amominW .. | .amomaxW .. | .amominuW .. | .amomaxuW .. => none

/-- The results of the value-level operations of R299 to R303, R307, R308, R319 to R322 on three operand patterns; `none` is a
NaN result (R293). -/
def arithResults (a b c : Word) : List (Option Word) :=
  [fadd a b, fsub a b, fmul a b, fdiv a b, fsqrt a, fma a b c, fmsub a b c, fnmsub a b c, fnmadd a b c, fmin a b, fmax a b]

/-- R324 (1): FMV.X.W and then FMV.W.X of the register it wrote give the pattern back, NaNs included; through `x0`, which
keeps nothing (R21), they give 0. -/
def LawMoveRoundTrip : Prop :=
  ∀ (s : State) (rd fs fd : Reg), ∃ t u, exec (.fmvXW rd fs) s = .next t ∧ exec (.fmvWX fd rd) t = .next u ∧
    u.readF fd = if rd = 0#5 then 0#32 else s.readF fs

/-- R324 (2): `fclass` sets exactly one bit, of ten, for every pattern. -/
def LawClassOneBit : Prop := ∀ v : Word, ∃ k, k < 10 ∧ fclass v = BitVec.ofNat 32 (2 ^ k)

/-- R324 (3): no F instruction changes `csr_fcsr`, the latch, or any integer register but a named `rd`. What the port callback
of an FLW or FSW stores in the latch is the callback's, not the instruction's (R76, log 3). -/
def LawFloatFrame : Prop :=
  ∀ (i : Instr) (s t : State), i.extension = some .f → exec i s = .next t →
    t.csrFcsr = s.csrFcsr ∧ (∀ r, fIntDest i ≠ some r → t.readX r = s.readX r) ∧
    (t.exc = s.exc ∨ t.exc = s.bus.nextReply.latched s.exc ∧
      ((∃ rd rs1 imm, i = .flw rd rs1 imm) ∨ ∃ rs1 rs2 imm, i = .fsw rs1 rs2 imm))

/-- R324 (4): addition and multiplication commute: in value for every `NAN_RESULT`, and as instructions where it is a constant. -/
def LawCommutes : Prop :=
  (∀ a b : Word, fadd a b = fadd b a ∧ fmul a b = fmul b a) ∧
  ∀ (s : State) (sign : BitVec 1) (payload : BitVec 22) (rd a b : Reg) (rm : BitVec 3),
    s.params.nanRule = .constant sign payload →
    exec (.faddS rd a b rm) s = exec (.faddS rd b a rm) s ∧ exec (.fmulS rd a b rm) s = exec (.fmulS rd b a rm) s

/-- R324 (5): no operation produces a signalling NaN. A result is never a NaN but `NAN_RESULT`, which is quiet. -/
def LawNoSignallingNan : Prop :=
  ∀ (rule : NanRule) (op : FOp) (a b c : Word),
    fclass (nanResult rule op a b c) = 0x200#32 ∧
    (∀ r ∈ arithResults a b c, (∀ w, r = some w → isNaN w = false) ∧
      fclass (r.getD (nanResult rule op a b c)) ≠ 0x100#32) ∧
    isNaN (i2f a) = false ∧ isNaN (u2f a) = false ∧ fclass (i2f a) ≠ 0x100#32 ∧ fclass (u2f a) ≠ 0x100#32

/-- R324 (6): FCVT.S.W and then FCVT.W.S give back an integer of magnitude at most 2^24, whatever `F2I_ROUND` and the two
`rm`. -/
def LawConvertRoundTrip : Prop :=
  (∀ (mode : F2IRound) (a : Word), a.toInt.natAbs ≤ 2 ^ 24 → f2i mode (i2f a) = a) ∧
  ∀ (s : State) (rs fd rd : Reg) (rm rm' : BitVec 3), (s.readX rs).toInt.natAbs ≤ 2 ^ 24 →
    ∃ t u, exec (.fcvtSW fd rs rm) s = .next t ∧ exec (.fcvtWS rd fd rm') t = .next u ∧
      u.readX rd = if rd = 0#5 then 0#32 else s.readX rs

/-- R324 (7): the sign injections of a pattern with itself: FSGNJ.S moves it, FSGNJN.S twice gives it back, FSGNJX.S clears the
sign. -/
def LawSignInjection : Prop :=
  ∀ a : Word, fsgnj a a = a ∧ fsgnjn (fsgnjn a a) (fsgnjn a a) = a ∧ (fsgnjx a a).getLsbD 31 = false

/-- R324 (8): the eight values of `rm` of one instruction give equal results (R292). -/
def LawRmWithoutEffect : Prop :=
  ∀ (i j : Instr) (rm : BitVec 3) (s : State), i.withRm? rm = some j → exec j s = exec i s

end Sys2Proof.Machine
end

