-- ==== Sys2Proof/Safety.lean ====
section
/-! DEFINITION. The words the claims are stated in: what an instruction leaves alone, what a port transaction does, the
invariant of a run, the transaction table of R68, and the F unit's arithmetic over the rational and real numbers, written
from the spec without the model's own arithmetic. -/

namespace Sys2Proof.Machine

/-! ## Frames -/

/-- Every integer register reads as before. -/
def KeptX (s t : State) : Prop := ∀ r, t.readX r = s.readX r

/-- Every floating-point register reads as before. -/
def KeptF (s t : State) : Prop := ∀ r, t.readF r = s.readF r

/-- `rd` reads `v` and every other integer register as before; with `rd = x0` nothing is written (R21). -/
def WroteX (s t : State) (rd : Reg) (v : Word) : Prop := ∀ r, t.readX r = if r = rd ∧ rd ≠ 0#5 then v else s.readX r

/-- `rd` reads `v` and every other floating-point register as before (R31). -/
def WroteF (s t : State) (rd : Reg) (v : Word) : Prop := ∀ r, t.readF r = if r = rd then v else s.readF r

/-- The counter and the two CSRs are as before. -/
def KeptCsrs (s t : State) : Prop :=
  t.csrCycle = s.csrCycle ∧ t.csrMstatus = s.csrMstatus ∧ t.csrFcsr = s.csrFcsr

/-- The constants and the model's own counter of free values are as before. -/
def KeptConst (s t : State) : Prop := t.params = s.params ∧ t.userdata = s.userdata ∧ t.freeCount = s.freeCount

/-- No transaction, the latch as before, and every byte of memory reads as before. -/
def Quiet (s t : State) : Prop :=
  t.exc = s.exc ∧ t.bus = s.bus ∧ ∀ a : Word, t.bus.mem.byte a = s.bus.mem.byte a

/-- The core's side of a unit that writes the integer register `rd` and ends with `PC = pc'`. -/
structure EndX (s t : State) (rd : Reg) (v pc' : Word) : Prop where
  x : WroteX s t rd v
  f : KeptF s t
  csrs : KeptCsrs s t
  const : KeptConst s t
  pc : t.pc = pc'

/-- The core's side of a unit that writes the floating-point register `rd` and ends with `pc + 4`. -/
structure EndF (s t : State) (rd : Reg) (v : Word) : Prop where
  x : KeptX s t
  f : WroteF s t rd v
  csrs : KeptCsrs s t
  const : KeptConst s t
  pc : t.pc = s.pc + 4#32

/-- The core's side of a unit that writes no register and ends with `PC = pc'`. -/
structure End0 (s t : State) (pc' : Word) : Prop where
  x : KeptX s t
  f : KeptF s t
  csrs : KeptCsrs s t
  const : KeptConst s t
  pc : t.pc = pc'

/-- `i` runs in `s`: it answers a next state in which `rd` holds `v`, `PC` is four further, nothing else has changed, and
the sequential flag is true. -/
def CompletesX (i : Instr) (s : State) (rd : Reg) (v : Word) : Prop :=
  ∃ t, exec i s = .next t ∧ EndX s t rd v (s.pc + 4#32) ∧ Quiet s t ∧ sequential i s = true

/-- The same with a floating-point destination whose new value meets `p`. -/
def CompletesF (i : Instr) (s : State) (rd : Reg) (p : Word → Prop) : Prop :=
  ∃ t v, exec i s = .next t ∧ p v ∧ EndF s t rd v ∧ Quiet s t ∧ sequential i s = true

/-- The same with no destination. -/
def Completes0 (i : Instr) (s : State) : Prop :=
  ∃ t, exec i s = .next t ∧ End0 s t (s.pc + 4#32) ∧ Quiet s t ∧ sequential i s = true

/-- Words with this slot, and no further selector, decode to `mk` of them (R101). -/
def SelectedBySlot (slot : BitVec 5) (mk : Word → Instr) : Prop :=
  ∀ p w, slotOf w = slot → decodeWord p w = .instr (mk w)

/-- Words with this slot and `funct3` decode to `mk` of them where its extension is present (R102 to R109, R117). -/
def SelectedBy3 (slot : BitVec 5) (f3 : BitVec 3) (mk : Word → Instr) : Prop :=
  ∀ p w, slotOf w = slot → funct3Of w = f3 → (mk w).present p = true → decodeWord p w = .instr (mk w)

/-- Words with this slot, `funct7` and `funct3` decode to `mk` of them where its extension is present (R105, R112). -/
def SelectedBy73 (slot : BitVec 5) (f7 : BitVec 7) (f3 : BitVec 3) (mk : Word → Instr) : Prop :=
  ∀ p w, slotOf w = slot → funct7Of w = f7 → funct3Of w = f3 → (mk w).present p = true → decodeWord p w = .instr (mk w)

/-- AMO-slot words with this `funct5` decode to `mk` of them where the extension is present (R110). -/
def SelectedByF5 (f5 : BitVec 5) (mk : Word → Instr) : Prop :=
  ∀ p w, slotOf w = 0b01011#5 → funct3Of w = 0b010#3 → w.extractLsb' 27 5 = f5 → (mk w).present p = true →
    decodeWord p w = .instr (mk w)

/-- Words with this slot and `funct3` are illegal under every parameter setting (R114). -/
def IllegalBy3 (slot : BitVec 5) (f3 : BitVec 3) : Prop :=
  ∀ p w, slotOf w = slot → funct3Of w = f3 → ∃ r, decodeWord p w = .illegal r

/-! ## Port transactions (20_memory.md) -/

/-- The number `n` bytes at `a` hold, the lowest address least significant, addresses modulo 2^32 (R79). -/
def littleEndian (m : Memory) (a : Word) : Nat → Nat
  | 0 => 0
  | k + 1 => littleEndian m a k + (m.byte (a + BitVec.ofNat 32 k)).toNat * 256 ^ k

/-- What the next read of `n` bytes at `a` returns: the callback's value cut to the width, or the reference memory's. -/
def answered (s : State) (a : Word) (n : Width) : Nat :=
  match s.bus.replies with
  | { data := some v, latch := _ } :: _ => v.toNat % 2 ^ (8 * n.bytes)
  | _ => littleEndian s.bus.mem a n.bytes

/-- The next callback takes a write for itself (the reference memory does not see it). -/
def absorbs (s : State) : Bool :=
  match s.bus.replies with
  | { data := some _, latch := _ } :: _ => true
  | _ => false

/-- The latch after the next callback: the kind it stores, or the old value. -/
def latchAfter (s : State) : ExceptionKind :=
  match s.bus.replies with
  | { data := _, latch := some k } :: _ => k
  | _ => s.exc

/-- One read of `n` bytes at `a`: its log entry, one callback used, memory and handlers as before (R62, R76). -/
structure ReadOnce (s t : State) (a : Word) (n : Width) : Prop where
  log : t.bus.log = .read a n (BitVec.ofNat 32 (answered s a n)) :: s.bus.log
  replies : t.bus.replies = s.bus.replies.tail
  calls : t.bus.calls = s.bus.calls
  exc : t.exc = latchAfter s
  bytes : ∀ b : Word, t.bus.mem.byte b = s.bus.mem.byte b

/-- One write of the low `n` bytes of `v` at `a`: its log entry, one callback used, and, unless the callback absorbs the
write, exactly the bytes `a` to `a + n - 1` (modulo 2^32) changed (R63, R76, R79). -/
structure WroteOnce (s t : State) (a : Word) (n : Width) (v : Word) : Prop where
  log : t.bus.log = .write a n (BitVec.ofNat 32 (v.toNat % 2 ^ (8 * n.bytes))) :: s.bus.log
  replies : t.bus.replies = s.bus.replies.tail
  calls : t.bus.calls = s.bus.calls
  exc : t.exc = latchAfter s
  bytes : ∀ b : Word, t.bus.mem.byte b =
    if absorbs s = false ∧ (b - a).toNat < n.bytes then v.extractLsb' (8 * (b - a).toNat) 8 else s.bus.mem.byte b

/-- The transactions of a port, without the data a read answered. -/
inductive PortShape where
  | ifetch (addr : Word)
  | read (addr : Word) (width : Width)
  | write (addr : Word) (width : Width)
  | ecall (pc inst : Word)
  | ebreak (pc inst : Word)
  deriving DecidableEq, Repr

/-- A transaction without its data. -/
def Transaction.shape : Transaction → PortShape
  | .ifetch a _ => .ifetch a
  | .read a n _ => .read a n
  | .write a n _ => .write a n
  | .ecall p i => .ecall p i
  | .ebreak p i => .ebreak p i

/-- R68's table: the transactions of an instruction begun in `s` (whose word is `w`), in order, after its fetch. -/
def portTable (i : Instr) (w : Word) (s : State) : List PortShape :=
  match i with
  | .lb _ rs1 imm => [.read (s.readX rs1 + imm.signExtend 32) .byte]
  | .lbu _ rs1 imm => [.read (s.readX rs1 + imm.signExtend 32) .byte]
  | .lh _ rs1 imm => [.read (s.readX rs1 + imm.signExtend 32) .half]
  | .lhu _ rs1 imm => [.read (s.readX rs1 + imm.signExtend 32) .half]
  | .lw _ rs1 imm => [.read (s.readX rs1 + imm.signExtend 32) .word]
  | .flw _ rs1 imm => [.read (s.readX rs1 + imm.signExtend 32) .word]
  | .lrW _ rs1 _ _ => [.read (s.readX rs1) .word]
  | .sb rs1 _ imm => [.write (s.readX rs1 + imm.signExtend 32) .byte]
  | .sh rs1 _ imm => [.write (s.readX rs1 + imm.signExtend 32) .half]
  | .sw rs1 _ imm => [.write (s.readX rs1 + imm.signExtend 32) .word]
  | .fsw rs1 _ imm => [.write (s.readX rs1 + imm.signExtend 32) .word]
  | .scW _ rs1 _ _ _ => [.write (s.readX rs1) .word]
  | .amoswapW _ rs1 _ _ _ | .amoaddW _ rs1 _ _ _ | .amoxorW _ rs1 _ _ _ | .amoandW _ rs1 _ _ _
  | .amoorW _ rs1 _ _ _ | .amominW _ rs1 _ _ _ | .amomaxW _ rs1 _ _ _ | .amominuW _ rs1 _ _ _
  | .amomaxuW _ rs1 _ _ _ => [.read (s.readX rs1) .word, .write (s.readX rs1) .word]
  | .ecall _ _ _ => [.ecall s.pc w]
  | .ebreak _ _ _ => [.ebreak s.pc w]
  | .lui .. | .auipc .. | .jal .. | .jalr .. | .beq .. | .bne .. | .blt .. | .bge .. | .bltu .. | .bgeu ..
  | .addi .. | .slti .. | .sltiu .. | .xori .. | .ori .. | .andi .. | .slli .. | .srli .. | .srai .. | .add ..
  | .sub .. | .sll .. | .slt .. | .sltu .. | .xor .. | .srl .. | .sra .. | .or .. | .and .. | .fence ..
  | .fenceI .. | .csrrw .. | .csrrs .. | .csrrc .. | .csrrwi .. | .csrrsi .. | .csrrci .. | .mul .. | .mulh ..
  | .mulhsu .. | .mulhu .. | .div .. | .divu .. | .rem .. | .remu .. | .fmaddS .. | .fmsubS .. | .fnmsubS ..
  | .fnmaddS .. | .faddS .. | .fsubS .. | .fmulS .. | .fdivS .. | .fsqrtS .. | .fsgnjS .. | .fsgnjnS ..
  | .fsgnjxS .. | .fminS .. | .fmaxS .. | .fcvtWS .. | .fcvtWuS .. | .fmvXW .. | .feqS .. | .fltS .. | .fleS ..
  | .fclassS .. | .fcvtSW .. | .fcvtSWu .. | .fmvWX .. => []

/-! ## The environment's writes (43_system_csr.md R212) -/

/-- The last value a handler writes to `X[r]`, if any. -/
def lastX (r : Reg) : Handler → Option Word
  | [] => none
  | .x r' v :: ws => (lastX r ws).or (if r' = r then some v else none)
  | .f _ _ :: ws | .pc _ :: ws | .latch _ :: ws | .mem _ _ :: ws => lastX r ws

/-- The last value a handler writes to `F[r]`, if any. -/
def lastF (r : Reg) : Handler → Option Word
  | [] => none
  | .f r' v :: ws => (lastF r ws).or (if r' = r then some v else none)
  | .x _ _ :: ws | .pc _ :: ws | .latch _ :: ws | .mem _ _ :: ws => lastF r ws

/-- The last value a handler writes to `PC`, if any. -/
def lastPc : Handler → Option Word
  | [] => none
  | .pc v :: ws => (lastPc ws).or (some v)
  | .x _ _ :: ws | .f _ _ :: ws | .latch _ :: ws | .mem _ _ :: ws => lastPc ws

/-- The last kind a handler stores in the latch, if any. -/
def lastLatch : Handler → Option ExceptionKind
  | [] => none
  | .latch k :: ws => (lastLatch ws).or (some k)
  | .x _ _ :: ws | .f _ _ :: ws | .pc _ :: ws | .mem _ _ :: ws => lastLatch ws

/-- The last byte a handler stores at `a`, if any. -/
def lastMem (a : Word) : Handler → Option Byte
  | [] => none
  | .mem a' b :: ws => (lastMem a ws).or (if a' = a then some b else none)
  | .x _ _ :: ws | .f _ _ :: ws | .pc _ :: ws | .latch _ :: ws => lastMem a ws

/-- An environment-port transaction `tr` in which the handler does `h`, then `PC + 4` on what it left (R210 to R212). -/
structure Called (s t : State) (tr : Transaction) (h : Handler) : Prop where
  x : ∀ r, r ≠ 0#5 → t.readX r = (lastX r h).getD (s.readX r)
  x0 : t.readX 0#5 = 0#32
  f : s.params.extF = true → ∀ r, t.readF r = (lastF r h).getD (s.readF r)
  pc : t.pc = (lastPc h).getD s.pc + 4#32
  exc : t.exc = (lastLatch h).getD s.exc
  csrs : KeptCsrs s t
  const : KeptConst s t
  log : t.bus.log = tr :: s.bus.log
  replies : t.bus.replies = s.bus.replies
  calls : t.bus.calls = s.bus.calls.tail
  bytes : ∀ a, t.bus.mem.byte a = (lastMem a h).getD (s.bus.mem.byte a)

/-! ## What whole groups of instructions do -/

/-- A multiple of 4. -/
def aligned (a : Word) : Prop := a.toNat % 4 = 0

/-- A conditional branch (R173): taken, `PC` is the target and a misaligned one is latched; not taken, `pc + 4` and no
check. Nothing else changes. -/
def BranchDoes (i : Instr) (s : State) (imm : BitVec 13) (taken : Prop) : Prop :=
  ∃ t, exec i s = .next t ∧
    (taken → End0 s t (s.pc + imm.signExtend 32) ∧ sequential i s = false ∧
      (aligned (s.pc + imm.signExtend 32) → t.exc = s.exc) ∧
      (¬ aligned (s.pc + imm.signExtend 32) → t.exc = .instMisaligned)) ∧
    (¬ taken → End0 s t (s.pc + 4#32) ∧ sequential i s = true ∧ t.exc = s.exc) ∧
    t.bus = s.bus ∧ ∀ a, t.bus.mem.byte a = s.bus.mem.byte a

/-- A load into an integer register (R190): one read of `n` bytes at `a`, `v` to `rd`. -/
def LoadDoes (i : Instr) (s : State) (rd : Reg) (a : Word) (n : Width) (v : Word) : Prop :=
  ∃ t, exec i s = .next t ∧ EndX s t rd v (s.pc + 4#32) ∧ ReadOnce s t a n ∧ sequential i s = true

/-- A store (R196): one write of the low `n` bytes of `v` at `a`. -/
def StoreDoes (i : Instr) (s : State) (a : Word) (n : Width) (v : Word) : Prop :=
  ∃ t, exec i s = .next t ∧ End0 s t (s.pc + 4#32) ∧ WroteOnce s t a n v ∧ sequential i s = true

/-- An AMO (R263): one read of the word at `a`, then one write of `op old x[rs2]` to it, the old word to `rd`. -/
def AmoDoes (i : Instr) (s : State) (rd rs1 rs2 : Reg) (op : Word → Word → Word) : Prop :=
  ∃ u t, exec i s = .next t ∧ ReadOnce s u (s.readX rs1) .word ∧
    WroteOnce u t (s.readX rs1) .word (op (BitVec.ofNat 32 (answered s (s.readX rs1) .word)) (s.readX rs2)) ∧
    EndX s t rd (BitVec.ofNat 32 (answered s (s.readX rs1) .word)) (s.pc + 4#32) ∧ sequential i s = true

/-- R39's table: what a CSR address reads as. -/
def csrTable (s : State) (a : BitVec 12) : Word :=
  if a = 0xC00#12 then BitVec.ofNat 32 (s.csrCycle.toNat % 2 ^ 32)
  else if a = 0xC80#12 then BitVec.ofNat 32 (s.csrCycle.toNat / 2 ^ 32)
  else if a = 0x300#12 then s.csrMstatus
  else if a = 0x003#12 then s.csrFcsr
  else 0#32

/-- A CSR instruction (R213): the old value to `rd`; `mstatus`, and only it, takes the new one. -/
def CsrDoes (i : Instr) (s : State) (rd : Reg) (csr : BitVec 12) (new : Word) : Prop :=
  ∃ t, exec i s = .next t ∧ WroteX s t rd (csrTable s csr) ∧ KeptF s t ∧ t.pc = s.pc + 4#32 ∧
    t.csrMstatus = (if csr = 0x300#12 then new else s.csrMstatus) ∧ t.csrCycle = s.csrCycle ∧ t.csrFcsr = s.csrFcsr ∧
    KeptConst s t ∧ Quiet s t ∧ sequential i s = true

/-! ## The invariant of a run (10_state.md R37) -/

/-- A handler's write leaves `PC` a multiple of 4: a duty of the environment (R371, premise of R24). -/
def EnvWrite.keepsAlignment : EnvWrite → Prop
  | .pc v => aligned v
  | .x _ _ | .f _ _ | .latch _ | .mem _ _ => True

/-- `X[0]` is 0; `PC` is aligned unless the latch is `inst_misaligned`; memory is in canonical form; and no pending handler
breaks its duty. -/
structure RunInv (s : State) : Prop where
  zero : s.x[0] = 0#32
  pc : aligned s.pc ∨ s.exc = .instMisaligned
  mem : s.bus.mem.wf = true
  env : ∀ h ∈ s.bus.calls, ∀ w ∈ h, w.keepsAlignment

/-! ## The F unit over the numbers (46_f_extension.md) -/

/-- `val(v)` of a finite pattern (R290's table). -/
def valQ (v : Word) : ℚ :=
  (if v.getLsbD 31 then -1 else 1) *
    (if (v.extractLsb' 23 8).toNat = 0 then (v.extractLsb' 0 23).toNat * (2 : ℚ) ^ (-149 : ℤ)
     else (2 ^ 23 + (v.extractLsb' 0 23).toNat) * (2 : ℚ) ^ (((v.extractLsb' 23 8).toNat : ℤ) - 150))

/-- `n` is `rne_int(t)` (R291). -/
def NearestEven (t : ℝ) (n : ℤ) : Prop := |t - n| ≤ 1 / 2 ∧ (|t - n| = 1 / 2 → Even n)

/-- `w` is `round_f32(r)` for a non-zero real `r` (R291): `e = max(floor(log2(|r|)), -126)`, `q = 2^(e-23)`,
`n = rne_int(|r| / q)`, and the three cases of `m = n * q`. -/
def RoundsTo (r : ℝ) (w : Word) : Prop :=
  ∃ e n : ℤ, e = max (Int.log 2 |r|) (-126) ∧ NearestEven (|r| / (2 : ℝ) ^ (e - 23)) n ∧
    ((2 : ℝ) ^ (128 : ℤ) ≤ n * (2 : ℝ) ^ (e - 23) → (r < 0 → w = 0xFF800000#32) ∧ (0 < r → w = 0x7F800000#32)) ∧
    (n = 0 → (r < 0 → w = 0x80000000#32) ∧ (0 < r → w = 0x00000000#32)) ∧
    (n ≠ 0 → n * (2 : ℝ) ^ (e - 23) < (2 : ℝ) ^ (128 : ℤ) →
      (w.extractLsb' 23 8).toNat ≠ 255 ∧ (w.getLsbD 31 = true ↔ r < 0) ∧
        |((valQ w : ℚ) : ℝ)| = n * (2 : ℝ) ^ (e - 23))

/-- A pattern with the sign `s` and these low 31 bits. -/
def signed (s : Bool) (low : BitVec 31) : Word := BitVec.ofBool s ++ low

/-- `w` is `fadd(a, b)` of R299, `nan` being `NAN_RESULT`. -/
def AddIs (nan a b w : Word) : Prop :=
  if isNaN a ∨ isNaN b then w = nan
  else if isInf a ∧ isInf b ∧ a.getLsbD 31 ≠ b.getLsbD 31 then w = nan
  else if isInf a then w = a
  else if isInf b then w = b
  else if isZero a ∧ isZero b ∧ a.getLsbD 31 = b.getLsbD 31 then w = a
  else if isZero a ∧ isZero b then w = 0#32
  else if valQ a + valQ b = 0 then w = 0#32
  else RoundsTo ((valQ a + valQ b : ℚ) : ℝ) w

/-- `w` is `fmul(a, b)` of R301. -/
def MulIs (nan a b w : Word) : Prop :=
  if isNaN a ∨ isNaN b then w = nan
  else if (isInf a ∧ isZero b) ∨ (isZero a ∧ isInf b) then w = nan
  else if isInf a ∨ isInf b then w = signed (a.getLsbD 31 ^^ b.getLsbD 31) 0x7F800000#31
  else if isZero a ∨ isZero b then w = signed (a.getLsbD 31 ^^ b.getLsbD 31) 0#31
  else RoundsTo ((valQ a * valQ b : ℚ) : ℝ) w

/-- `w` is `fdiv(a, b)` of R302. -/
def DivIs (nan a b w : Word) : Prop :=
  if isNaN a ∨ isNaN b then w = nan
  else if (isInf a ∧ isInf b) ∨ (isZero a ∧ isZero b) then w = nan
  else if isInf a then w = signed (a.getLsbD 31 ^^ b.getLsbD 31) 0x7F800000#31
  else if isInf b then w = signed (a.getLsbD 31 ^^ b.getLsbD 31) 0#31
  else if isZero b then w = signed (a.getLsbD 31 ^^ b.getLsbD 31) 0x7F800000#31
  else if isZero a then w = signed (a.getLsbD 31 ^^ b.getLsbD 31) 0#31
  else RoundsTo ((valQ a / valQ b : ℚ) : ℝ) w

/-- `w` is `fsqrt(a)` of R303. -/
def SqrtIs (nan a w : Word) : Prop :=
  if isNaN a then w = nan
  else if isZero a then w = a
  else if a.getLsbD 31 then w = nan
  else if isInf a then w = 0x7F800000#32
  else RoundsTo (Real.sqrt ((valQ a : ℚ) : ℝ)) w

/-- `w` is `fma(a, b, c)` of R319. -/
def FmaIs (nan a b c w : Word) : Prop :=
  if isNaN a ∨ isNaN b ∨ isNaN c then w = nan
  else if (isInf a ∧ isZero b) ∨ (isZero a ∧ isInf b) then w = nan
  else if (isInf a ∨ isInf b) ∧ isInf c ∧ c.getLsbD 31 ≠ (a.getLsbD 31 ^^ b.getLsbD 31) then w = nan
  else if isInf a ∨ isInf b then w = signed (a.getLsbD 31 ^^ b.getLsbD 31) 0x7F800000#31
  else if isInf c then w = c
  else if (isZero a ∨ isZero b) ∧ isZero c ∧ c.getLsbD 31 = (a.getLsbD 31 ^^ b.getLsbD 31) then w = c
  else if (isZero a ∨ isZero b) ∧ isZero c then w = 0#32
  else if isZero a ∨ isZero b then w = c
  else if valQ a * valQ b + valQ c = 0 then w = 0#32
  else RoundsTo ((valQ a * valQ b + valQ c : ℚ) : ℝ) w

/-- `neg(v)` of R290. -/
def negated (v : Word) : Word := v ^^^ 0x80000000#32

/-- `n` is `rint(t)` (R309): `rne_int`, or truncation toward zero. -/
def IsRint : F2IRound → ℝ → ℤ → Prop
  | .rne, t, n => NearestEven t n
  | .rtz, t, n => (0 ≤ t → n = ⌊t⌋) ∧ (t < 0 → n = ⌈t⌉)

/-- `w` is `f2i(a)` of R309. -/
def F2iIs (mode : F2IRound) (a w : Word) : Prop :=
  if isNaN a then w = 0x7FFFFFFF#32
  else if isInf a then w = (if a.getLsbD 31 then 0x80000000#32 else 0x7FFFFFFF#32)
  else ∃ n, IsRint mode ((valQ a : ℚ) : ℝ) n ∧
    w = (if 2 ^ 31 - 1 < n then 0x7FFFFFFF#32 else if n < -2 ^ 31 then 0x80000000#32 else BitVec.ofInt 32 n)

/-- `w` is `f2u(a)` of R310. -/
def F2uIs (mode : F2IRound) (a w : Word) : Prop :=
  if isNaN a then w = 0xFFFFFFFF#32
  else if isInf a then w = (if a.getLsbD 31 then 0x00000000#32 else 0xFFFFFFFF#32)
  else ∃ n, IsRint mode ((valQ a : ℚ) : ℝ) n ∧
    w = (if 2 ^ 32 - 1 < n then 0xFFFFFFFF#32 else if n < 0 then 0x00000000#32 else BitVec.ofInt 32 n)

/-- The order of R312 on extended reals: `a < b`, for operands that are not NaN. -/
def Below (a b : Word) : Prop :=
  if isInf a ∧ isInf b then a.getLsbD 31 = true ∧ b.getLsbD 31 = false
  else if isInf a then a.getLsbD 31 = true
  else if isInf b then b.getLsbD 31 = false
  else valQ a < valQ b

end Sys2Proof.Machine
end

