-- ==== Sys2Proof/Certificates/Slice0/Obligations.lean ====
section
/-! DEFINITION. The statements for the provers. Each docstring names the rules of spec/ it rests on. A statement whose
docstring names a decision D<n> of spec/92_eei_decisions.md, a "[from general knowledge]" or "[derived]" mark of the spec, or a
log entry, rests on that choice and is marked 'derived' in OBLIGATIONS.json. -/

open Sys2Proof Sys2Proof.Machine

/-! ## Encoding and decode (30_encoding.md) -/

/-- Decode and encode agree: every well-formed instruction, with every operand at every value, decodes back from its word,
under every parameter setting that has its extension (R99 to R113, with the general-knowledge selectors G1 to G6). -/
def Obligations.DecodeOfEncode : Prop :=
  ∀ (p : Params) (i : Instr), i.wellFormed p = true → decodeWord p (encode i) = .instr i

/-- The other direction: what the decoder answers is well-formed, and its encoding is the word, but for `inst[1:0]`, which only
ECALL and EBREAK keep (R100, D9, log 11). -/
def Obligations.EncodeOfDecode : Prop :=
  ∀ (p : Params) (w : Word) (i : Instr), decodeWord p w = .instr i →
    i.wellFormed p = true ∧ encode i ||| 3#32 = w ||| 3#32 ∧
      (∀ rd rs1 lo, i = .ecall rd rs1 lo ∨ i = .ebreak rd rs1 lo → encode i = w)

/-- R119, immediate round trip: for every value in a format's range, a word that holds its bits where the format puts them
gives the value back. -/
def Obligations.ImmediateRoundTrip : Prop :=
  ∀ v w : Word,
    (-2048 ≤ v.toInt → v.toInt ≤ 2047 → w.extractLsb' 20 12 = v.extractLsb' 0 12 → imm12 (iImmOf w) = v) ∧
    (-2048 ≤ v.toInt → v.toInt ≤ 2047 → w.extractLsb' 25 7 = v.extractLsb' 5 7 → w.extractLsb' 7 5 = v.extractLsb' 0 5 →
      imm12 (sImmOf w) = v) ∧
    (-4096 ≤ v.toInt → v.toInt ≤ 4094 → v.toInt % 2 = 0 → w.extractLsb' 31 1 = v.extractLsb' 12 1 →
      w.extractLsb' 25 6 = v.extractLsb' 5 6 → w.extractLsb' 8 4 = v.extractLsb' 1 4 →
      w.extractLsb' 7 1 = v.extractLsb' 11 1 → immB (bImmOf w) = v) ∧
    (v.toNat % 4096 = 0 → w.extractLsb' 12 20 = v.extractLsb' 12 20 → immU (uImmOf w) = v) ∧
    (-1048576 ≤ v.toInt → v.toInt ≤ 1048574 → v.toInt % 2 = 0 → w.extractLsb' 31 1 = v.extractLsb' 20 1 →
      w.extractLsb' 21 10 = v.extractLsb' 1 10 → w.extractLsb' 20 1 = v.extractLsb' 11 1 →
      w.extractLsb' 12 8 = v.extractLsb' 12 8 → immJ (jImmOf w) = v)

/-- `inst[1:0]` selects nothing: a word with other low bits decodes alike, and only the word handed to the environment by ECALL
and EBREAK shows them (R100, D9; R210, R211 `inst`). -/
def Obligations.LowBitsSelectNothing : Prop :=
  ∀ (p : Params) (w : Word) (lo : BitVec 2),
    decodeWord p (w.extractLsb' 2 30 ++ lo) =
      match decodeWord p w with
      | .instr (.ecall rd rs1 _) => .instr (.ecall rd rs1 lo)
      | .instr (.ebreak rd rs1 _) => .instr (.ebreak rd rs1 lo)
      | d => d

/-- The decoder is the opcode table: a word decodes exactly when it lies in a row whose extension is present, to an
instruction of that row, and no word lies in two rows (R114, R118 "[derived]", spec/opcode_table.json). -/
def Obligations.DecoderIsTheOpcodeTable : Prop :=
  (∀ (p : Params) (w : Word) (i : Instr), decodeWord p w = .instr i → i.rowMatches w ∧ i.present p = true) ∧
  (∀ (p : Params) (w : Word) (j : Instr), j.rowMatches w → j.present p = true →
    ∃ i, decodeWord p w = .instr i ∧ i.tableRow = j.tableRow) ∧
  (∀ (w : Word) (i j : Instr), i.rowMatches w → j.rowMatches w → i.tableRow = j.tableRow)

/-- Extension gating (R117, D1): a word of a present extension decodes as with every extension on; a word of an absent one
latches `illegal_inst` and leaves `PC`. That the step answers at a counter of 2^64 - 1 too, past D25's premise, is the model's
choice (log 19). -/
def Obligations.ExtensionGating : Prop :=
  ∀ (s : State) (i : Instr), s.exc = .none →
    decodeWord { s.params with extM := true, extA := true, extF := true, extZicsr := true, extZifencei := true }
      (s.bus.answer s.pc .word) = .instr i →
    (i.present s.params = true → decodeWord s.params (s.bus.answer s.pc .word) = .instr i) ∧
    (i.present s.params = false → ∃ t, step s = .next t ∧ t.exc = .illegalInst ∧ t.pc = s.pc)

/-- The custom, reserved, RV64 and long-instruction slots latch `illegal_inst`, whatever the parameters and the other bits of the
word (R116). That the step answers at a counter of 2^64 - 1 too, past D25's premise, is the model's choice (log 19). -/
def Obligations.UnpopulatedSlotsLatchIllegal : Prop :=
  ∀ s : State, s.exc = .none →
    slotOf (s.bus.answer s.pc .word) ∈
      [0b00010#5, 0b01010#5, 0b10110#5, 0b11110#5, 0b10101#5, 0b11010#5, 0b11101#5, 0b00110#5, 0b01110#5, 0b00111#5,
        0b01111#5, 0b10111#5, 0b11111#5] →
    ∃ t, step s = .next t ∧ t.exc = .illegalInst

/-- Words written out from the spec's examples and encoding tables decode to what they stand for (R131, R138, R140, R171,
R175, R199, R243, R214, R262, R298, R299, R319, R315). A sanity statement. -/
def Obligations.SampleWordsDecode : Prop :=
  decodeWord Params.default 0x123452B7#32 = .instr (.lui 5#5 0x12345#20) ∧
  decodeWord Params.default 0x0FF37293#32 = .instr (.andi 5#5 6#5 0x0FF#12) ∧
  decodeWord Params.default 0x00435293#32 = .instr (.srli 5#5 6#5 4#5 0#1 0#5) ∧
  decodeWord Params.default 0xFF9FF0EF#32 = .instr (.jal 1#5 0x1FFFF8#21) ∧
  decodeWord Params.default 0xFE029CE3#32 = .instr (.bne 5#5 0#5 0x1FF8#13) ∧
  decodeWord Params.default 0x00532423#32 = .instr (.sw 6#5 5#5 8#12) ∧
  decodeWord Params.default 0x027322B3#32 = .instr (.mulhsu 5#5 6#5 7#5) ∧
  decodeWord Params.default 0xC00312F3#32 = .instr (.csrrw 5#5 6#5 0xC00#12) ∧
  decodeWord Params.default 0x187322AF#32 = .instr (.scW 5#5 6#5 7#5 0#1 0#1) ∧
  decodeWord Params.default 0x00152427#32 = .instr (.fsw 10#5 1#5 8#12) ∧
  decodeWord Params.default 0x0020F1D3#32 = .instr (.faddS 3#5 1#5 2#5 7#3) ∧
  decodeWord Params.default 0x1820F243#32 = .instr (.fmaddS 4#5 1#5 2#5 3#5 7#3) ∧
  decodeWord Params.default 0xE00092D3#32 = .instr (.fclassS 5#5 1#5)

/-! ## Steps, the latch and the driver (60_exceptions.md, 70_reset_and_hazards.md) -/

/-- A step runs the decoded instruction (R395's `step1`, "[derived]" from the source's loop): when the four bytes at `PC` decode
to `i`, a step is the fetch, the meaning of `i`, and the counter's increment. With an empty reply list the reference memory
answers the fetch (R79; log 3). -/
def Obligations.StepRunsDecodedInstruction : Prop :=
  ∀ (s t : State) (i : Instr), s.exc = .none → s.bus.replies = [] → s.csrCycle ≠ BitVec.allOnes 64 →
    decodeBytes s.params
      [s.bus.mem.byte s.pc, s.bus.mem.byte (s.pc + 1#32), s.bus.mem.byte (s.pc + 2#32), s.bus.mem.byte (s.pc + 3#32)] =
      .instr i →
    exec i { s with bus := { s.bus with
      log := .ifetch s.pc (BitVec.ofNat 32 (littleEndian s.bus.mem s.pc 4)) :: s.bus.log } } = .next t →
    step s = .next { t with csrCycle := t.csrCycle + 1#64 }

/-- An illegal word (R353, D5): the latch, `PC` still at the word, one fetch and nothing else but the counter. -/
def Obligations.IllegalWordOnlyLatches : Prop :=
  ∀ (s : State) (r : Illegal), s.exc = .none → s.csrCycle ≠ BitVec.allOnes 64 →
    decodeWord s.params (s.bus.answer s.pc .word) = .illegal r →
    ∃ t, step s = .next t ∧ t.exc = .illegalInst ∧ t.pc = s.pc ∧ KeptX s t ∧ KeptF s t ∧ KeptConst s t ∧
      t.csrMstatus = s.csrMstatus ∧ t.csrFcsr = s.csrFcsr ∧ t.csrCycle = s.csrCycle + 1#64 ∧
      t.bus.log = .ifetch s.pc (s.bus.answer s.pc .word) :: s.bus.log ∧ t.bus.calls = s.bus.calls ∧
      (∀ a, t.bus.mem.byte a = s.bus.mem.byte a) ∧ sequential1 s = false

/-- R27: the latch is sticky and gates execution: while it is set a step and a driver call change nothing; the core never
stores `none` in it (only a callback or a handler could); reset does; and the environment stores in it what it likes. -/
def Obligations.LatchIsStickyAndGates : Prop :=
  (∀ s : State, s.exc ≠ .none → step s = .next s ∧ ∀ n, driver n s = .next s) ∧
  (∀ (i : Instr) (s t : State), exec i s = .next t → (∀ r ∈ s.bus.replies, r.latch ≠ some .none) →
    (∀ h ∈ s.bus.calls, EnvWrite.latch .none ∉ h) → s.exc ≠ .none → t.exc ≠ .none) ∧
  (∀ (s : State) (pc : Word), (s.resetTo pc).exc = .none) ∧
  (∀ (s : State) (k : ExceptionKind), s.applyWrite (.latch k) = { s with exc := k })

/-- R370: every step that executes counts one, whatever the instruction did (a latched jump, an illegal word, an ECALL);
while the latch is set the counter does not move. -/
def Obligations.EveryStepCountsOne : Prop :=
  ∀ s : State,
    (s.exc = .none → s.csrCycle ≠ BitVec.allOnes 64 → ∃ t, step s = .next t ∧ t.csrCycle = s.csrCycle + 1#64) ∧
    (s.exc ≠ .none → ∃ t, step s = .next t ∧ t.csrCycle = s.csrCycle)

/-- Every step keeps the invariant of a run (R37 "[derived]", with the environment's duty D24 on its handlers as part of it; the
canonical form of memory is the model's own, log 2). -/
def Obligations.StepKeepsInvariant : Prop := ∀ s t : State, RunInv s → step s = .next t → RunInv t

/-- The invariant holds after reset: in `State.reset`, and after `reset(pc)` with an aligned `pc` from any state that has it
(R391, R371). -/
def Obligations.ResetHasInvariant : Prop :=
  RunInv State.reset ∧ ∀ (s : State) (pc : Word), RunInv s → aligned pc → RunInv (s.resetTo pc)

/-- What `reset(pc)` and `create` leave (R390, R391, D20; R393's premise on `DEFAULT_SP`). -/
def Obligations.ResetState : Prop :=
  (∀ (s : State) (pc : Word),
    (s.resetTo pc).pc = pc ∧ (s.resetTo pc).exc = .none ∧ (s.resetTo pc).csrCycle = 0#64 ∧
    (s.resetTo pc).csrMstatus = 0#32 ∧ (s.resetTo pc).csrFcsr = 0#32 ∧
    (∀ r, (s.resetTo pc).readX r = if r = 2#5 then s.params.defaultSp else 0#32) ∧
    (s.params.extF = true → ∀ r, (s.resetTo pc).readF r = 0#32) ∧
    (s.params.spAligned = true → ((s.resetTo pc).readX 2#5).toNat % 16 = 0) ∧
    (s.resetTo pc).bus = s.bus ∧ KeptConst s (s.resetTo pc)) ∧
  (∀ (p : Params) (u : Nat) (io : Bus),
    (State.create p u io).params = p ∧ (State.create p u io).userdata = u ∧ (State.create p u io).bus = io ∧
    (State.create p u io).resetTo 0#32 = State.create p u io)

/-- The sequential flag (R397, D26): when it is true, `PC` is four further and the latch is as it was unless a port callback set
it; so an instruction that latches `inst_misaligned` is not sequential. -/
def Obligations.SequentialFlagMeansPlusFour : Prop :=
  ∀ (i : Instr) (s t : State), exec i s = .next t → sequential i s = true →
    t.pc = s.pc + 4#32 ∧ (t.exc = s.exc ∨ ∃ r ∈ s.bus.replies, r.latch = some t.exc)

/-- Over all instructions: no instruction writes `csr_cycle` or `csr_fcsr`, and only a CSR instruction that names `mstatus`
writes `csr_mstatus` (R28, R30, R41 with C1; R212 for the handlers, whose form is log 18's; R294 for the F unit). -/
def Obligations.OnlyCsrInstructionsWriteMstatus : Prop :=
  ∀ (i : Instr) (s t : State), exec i s = .next t →
    t.csrCycle = s.csrCycle ∧ t.csrFcsr = s.csrFcsr ∧
    (t.csrMstatus ≠ s.csrMstatus → i.extension = some .zicsr ∧ iImmOf (encode i) = 0x300#12)

/-- The core itself latches exactly two kinds (R350, D4). Over all instructions, `exec` leaves the latch as it was, or
`inst_misaligned` with `PC` misaligned, or a kind a port callback (log 3) or a handler (log 18) stores. Over all steps from a
clear latch: an illegal word ends with `illegal_inst` and `PC` at the word, and after any step the latch is clear, or
`inst_misaligned` with `PC` misaligned, or `illegal_inst` on an illegal word, or a callback's or a handler's. -/
def Obligations.CoreLatchesTwoKinds : Prop :=
  (∀ (i : Instr) (s t : State), exec i s = .next t →
    t.exc = s.exc ∨ (t.exc = .instMisaligned ∧ ¬ aligned t.pc) ∨ (∃ r ∈ s.bus.replies, r.latch = some t.exc) ∨
      (∃ rd rs1 lo, i = .ecall rd rs1 lo ∧ EnvWrite.latch t.exc ∈ s.bus.calls.headD [.latch .envCall]) ∨
      (∃ rd rs1 lo, i = .ebreak rd rs1 lo ∧ EnvWrite.latch t.exc ∈ s.bus.calls.headD [.latch .breakpoint])) ∧
  (∀ (s t : State) (d : Decoded), s.exc = .none → d = decodeWord s.params (BitVec.ofNat 32 (answered s s.pc .word)) →
    step s = .next t →
    (∀ r, d = .illegal r → t.exc = .illegalInst ∧ t.pc = s.pc) ∧
    (t.exc = .none ∨ (t.exc = .instMisaligned ∧ ¬ aligned t.pc) ∨ (t.exc = .illegalInst ∧ ∃ r, d = .illegal r) ∨
      (∃ r ∈ s.bus.replies, r.latch = some t.exc) ∨
      (∃ rd rs1 lo, d = .instr (.ecall rd rs1 lo) ∧ EnvWrite.latch t.exc ∈ s.bus.calls.headD [.latch .envCall]) ∨
      (∃ rd rs1 lo, d = .instr (.ebreak rd rs1 lo) ∧ EnvWrite.latch t.exc ∈ s.bus.calls.headD [.latch .breakpoint])))

/-- One step makes exactly its one fetch and then the transactions of R68's table, in order (C2 for the two of an AMO); a
word that latches `illegal_inst` makes none but its fetch. They are read off the model's own log of them (log 10). That the
step answers at a counter of 2^64 - 1 too, past D25's premise, is the model's choice (log 19). -/
def Obligations.PortTransactions : Prop :=
  ∀ s : State, s.exc = .none → ∃ t, step s = .next t ∧
    (∀ i, decodeWord s.params (s.bus.answer s.pc .word) = .instr i →
      t.bus.log.map Transaction.shape =
        (portTable i (s.bus.answer s.pc .word) s).reverse ++ .ifetch s.pc :: s.bus.log.map Transaction.shape) ∧
    (∀ r, decodeWord s.params (s.bus.answer s.pc .word) = .illegal r →
      t.bus.log.map Transaction.shape = .ifetch s.pc :: s.bus.log.map Transaction.shape)

/-- The source's two nested loops with the sequential flag and the one loop that is the driver's normative form reach the same
outcome (R395, R397 "[derived]"; premise D25 on the counter). -/
def Obligations.SourceLoopIsTheDriver : Prop :=
  ∀ (n : Nat) (s : State), s.csrCycle.toNat + n < 2 ^ 64 → driverSource n s = driver n s

/-- `step(a)` then `step(b)` is `step(a + b)` (R395 f; premise D25). -/
def Obligations.DriverSplits : Prop :=
  ∀ (a b : Nat) (s : State), s.csrCycle.toNat + a + b < 2 ^ 64 →
    ∃ t, driver a s = .next t ∧ driver (a + b) s = driver b t

/-- `step(n)` executes the least of `n` and the instructions up to the first after which the latch is set (R395 a, b, e;
premise D25): it is `k` steps, each begun with the latch clear, and `k` is `n` unless the latch is set at the end. -/
def Obligations.DriverStopsAtBudgetOrLatch : Prop :=
  ∀ (n : Nat) (s : State), s.csrCycle.toNat + n < 2 ^ 64 →
    ∃ (k : Nat) (t : State), k ≤ n ∧ driver n s = .next t ∧ Sys2Proof.core.run k s = .next t ∧
      t.csrCycle.toNat = s.csrCycle.toNat + k ∧ (k = n ∨ t.exc ≠ .none) ∧
      ∀ j, j < k → ∃ u : State, Sys2Proof.core.run j s = .next u ∧ u.exc = .none

/-- Return from an exception (R361, R220 with D10): the environment clears the latch and places `PC`; nothing else changes and
the core runs again from there, while without it every step leaves the state as it is. MRET, SRET, URET and WFI are illegal. -/
def Obligations.ReturnIsTheEnvironments : Prop :=
  (∀ (s : State) (a : Word), s.exc ≠ .none →
    step s = .next s ∧
    (s.resume a).exc = .none ∧ (s.resume a).pc = a ∧ KeptX s (s.resume a) ∧ KeptF s (s.resume a) ∧
    KeptCsrs s (s.resume a) ∧ KeptConst s (s.resume a) ∧ (s.resume a).bus = s.bus ∧
    step (s.resume a) = step1 (s.resume a)) ∧
  (∀ p : Params, ∀ w ∈ [0x30200073#32, 0x10200073#32, 0x00200073#32, 0x10500073#32],
    decodeWord p w = .illegal .systemImmediate)

/-- A latch set by the fetch callback (R76, R355, R358; D23; the scripted reply is log 3's, the record of the fetch log
10's): whatever the callback answers and stores, the word it returned is executed as any other. From a clear latch and a
counter below its maximum (D25), when that word decodes to `i` a step is `exec i` in the state after the fetch, which holds
the callback's kind in the latch, with one count; so every effect of `i` is made. Second, of a scripted reply that stores a
kind: an illegal word ends with `illegal_inst`, a jump to a misaligned target with `inst_misaligned`, and a sequential
instruction without transactions of its own with the callback's kind and `PC` four further; that clause sets no premise on
the counter, and that the step answers at 2^64 - 1 too is the model's choice (log 19). -/
def Obligations.FetchFaultStillExecutes : Prop :=
  (∀ (s : State) (w : Word) (i : Instr), s.exc = .none → s.csrCycle ≠ BitVec.allOnes 64 →
    w = BitVec.ofNat 32 (answered s s.pc .word) → decodeWord s.params w = .instr i →
    ∃ t, exec i { s with exc := latchAfter s, bus := { s.bus with
        replies := s.bus.replies.tail, log := .ifetch s.pc w :: s.bus.log } } = .next t ∧
      step s = .next { t with csrCycle := s.csrCycle + 1#64 }) ∧
  (∀ (s : State) (w : Word) (k : ExceptionKind) (rest : List BusReply), s.exc = .none →
    s.bus.replies = { data := some w, latch := some k } :: rest →
    ∃ t, step s = .next t ∧
      (∀ r, decodeWord s.params w = .illegal r → t.exc = .illegalInst ∧ t.pc = s.pc) ∧
      (∀ rd imm, decodeWord s.params w = .instr (.jal rd imm) → ¬ aligned (s.pc + imm.signExtend 32) →
        t.exc = .instMisaligned ∧ t.pc = s.pc + imm.signExtend 32) ∧
      (∀ i, decodeWord s.params w = .instr i → portTable i w s = [] → sequential i s = true →
        t.exc = k ∧ t.pc = s.pc + 4#32))

/-! ## Integer computational instructions (40_integer_computational.md) -/

/-- LUI and AUIPC (R131, R132): encoding, result, frame. -/
def Obligations.UpperImmediates : Prop :=
  SelectedBySlot 0b01101#5 (fun w => .lui (rdOf w) (w.extractLsb' 12 20)) ∧
  SelectedBySlot 0b00101#5 (fun w => .auipc (rdOf w) (w.extractLsb' 12 20)) ∧
  ∀ (s : State) (rd : Reg) (imm : BitVec 20),
    CompletesX (.lui rd imm) s rd (imm ++ 0#12) ∧ CompletesX (.auipc rd imm) s rd ((imm ++ 0#12) + s.pc)

/-- ADDI, SLTI, SLTIU, XORI, ORI, ANDI (R133 to R138): encoding, result, frame. -/
def Obligations.RegisterImmediate : Prop :=
  SelectedBy3 0b00100#5 0b000#3 (fun w => .addi (rdOf w) (rs1Of w) (w.extractLsb' 20 12)) ∧
  SelectedBy3 0b00100#5 0b010#3 (fun w => .slti (rdOf w) (rs1Of w) (w.extractLsb' 20 12)) ∧
  SelectedBy3 0b00100#5 0b011#3 (fun w => .sltiu (rdOf w) (rs1Of w) (w.extractLsb' 20 12)) ∧
  SelectedBy3 0b00100#5 0b100#3 (fun w => .xori (rdOf w) (rs1Of w) (w.extractLsb' 20 12)) ∧
  SelectedBy3 0b00100#5 0b110#3 (fun w => .ori (rdOf w) (rs1Of w) (w.extractLsb' 20 12)) ∧
  SelectedBy3 0b00100#5 0b111#3 (fun w => .andi (rdOf w) (rs1Of w) (w.extractLsb' 20 12)) ∧
  ∀ (s : State) (rd rs1 : Reg) (imm : BitVec 12),
    CompletesX (.addi rd rs1 imm) s rd (BitVec.ofInt 32 ((s.readX rs1).toInt + imm.toInt)) ∧
    CompletesX (.slti rd rs1 imm) s rd (if (s.readX rs1).toInt < imm.toInt then 1#32 else 0#32) ∧
    CompletesX (.sltiu rd rs1 imm) s rd (if (s.readX rs1).toNat < (imm.signExtend 32).toNat then 1#32 else 0#32) ∧
    CompletesX (.xori rd rs1 imm) s rd (s.readX rs1 ^^^ imm.signExtend 32) ∧
    CompletesX (.ori rd rs1 imm) s rd (s.readX rs1 ||| imm.signExtend 32) ∧
    CompletesX (.andi rd rs1 imm) s rd (s.readX rs1 &&& imm.signExtend 32)

/-- SLLI, SRLI, SRAI (R139 to R141): encoding (the bits R104 leaves unexamined take every value), result, frame. -/
def Obligations.ImmediateShifts : Prop :=
  SelectedBy3 0b00100#5 0b001#3 (fun w => .slli (rdOf w) (rs1Of w) (w.extractLsb' 20 5) (w.extractLsb' 25 7)) ∧
  (∀ p w, slotOf w = 0b00100#5 → funct3Of w = 0b101#3 →
    decodeWord p w = .instr (if w.getLsbD 30 = false
      then .srli (rdOf w) (rs1Of w) (w.extractLsb' 20 5) (w.extractLsb' 31 1) (w.extractLsb' 25 5)
      else .srai (rdOf w) (rs1Of w) (w.extractLsb' 20 5) (w.extractLsb' 31 1) (w.extractLsb' 25 5))) ∧
  ∀ (s : State) (rd rs1 : Reg) (shamt : BitVec 5) (hi : BitVec 7) (b31 : BitVec 1) (b29 : BitVec 5),
    CompletesX (.slli rd rs1 shamt hi) s rd (BitVec.ofNat 32 ((s.readX rs1).toNat * 2 ^ shamt.toNat)) ∧
    CompletesX (.srli rd rs1 shamt b31 b29) s rd (BitVec.ofNat 32 ((s.readX rs1).toNat / 2 ^ shamt.toNat)) ∧
    CompletesX (.srai rd rs1 shamt b31 b29) s rd (BitVec.ofInt 32 ((s.readX rs1).toInt / 2 ^ shamt.toNat))

/-- ADD, SUB, SLT, SLTU, XOR, OR, AND (R142, R143, R145, R146, R147, R150, R151): encoding, result, frame. -/
def Obligations.RegisterRegister : Prop :=
  SelectedBy73 0b01100#5 0b0000000#7 0b000#3 (fun w => .add (rdOf w) (rs1Of w) (rs2Of w)) ∧
  SelectedBy73 0b01100#5 0b0100000#7 0b000#3 (fun w => .sub (rdOf w) (rs1Of w) (rs2Of w)) ∧
  SelectedBy73 0b01100#5 0b0000000#7 0b010#3 (fun w => .slt (rdOf w) (rs1Of w) (rs2Of w)) ∧
  SelectedBy73 0b01100#5 0b0000000#7 0b011#3 (fun w => .sltu (rdOf w) (rs1Of w) (rs2Of w)) ∧
  SelectedBy73 0b01100#5 0b0000000#7 0b100#3 (fun w => .xor (rdOf w) (rs1Of w) (rs2Of w)) ∧
  SelectedBy73 0b01100#5 0b0000000#7 0b110#3 (fun w => .or (rdOf w) (rs1Of w) (rs2Of w)) ∧
  SelectedBy73 0b01100#5 0b0000000#7 0b111#3 (fun w => .and (rdOf w) (rs1Of w) (rs2Of w)) ∧
  ∀ (s : State) (rd rs1 rs2 : Reg),
    CompletesX (.add rd rs1 rs2) s rd (BitVec.ofNat 32 ((s.readX rs1).toNat + (s.readX rs2).toNat)) ∧
    CompletesX (.sub rd rs1 rs2) s rd (BitVec.ofInt 32 ((s.readX rs1).toInt - (s.readX rs2).toInt)) ∧
    CompletesX (.slt rd rs1 rs2) s rd (if (s.readX rs1).toInt < (s.readX rs2).toInt then 1#32 else 0#32) ∧
    CompletesX (.sltu rd rs1 rs2) s rd (if (s.readX rs1).toNat < (s.readX rs2).toNat then 1#32 else 0#32) ∧
    CompletesX (.xor rd rs1 rs2) s rd (s.readX rs1 ^^^ s.readX rs2) ∧
    CompletesX (.or rd rs1 rs2) s rd (s.readX rs1 ||| s.readX rs2) ∧
    CompletesX (.and rd rs1 rs2) s rd (s.readX rs1 &&& s.readX rs2)

/-- SLL, SRL, SRA (R144, R148, R149; the mask of the count is D22, general knowledge): encoding, result, frame. -/
def Obligations.RegisterShifts : Prop :=
  SelectedBy73 0b01100#5 0b0000000#7 0b001#3 (fun w => .sll (rdOf w) (rs1Of w) (rs2Of w)) ∧
  SelectedBy73 0b01100#5 0b0000000#7 0b101#3 (fun w => .srl (rdOf w) (rs1Of w) (rs2Of w)) ∧
  SelectedBy73 0b01100#5 0b0100000#7 0b101#3 (fun w => .sra (rdOf w) (rs1Of w) (rs2Of w)) ∧
  ∀ (s : State) (rd rs1 rs2 : Reg),
    CompletesX (.sll rd rs1 rs2) s rd (BitVec.ofNat 32 ((s.readX rs1).toNat * 2 ^ ((s.readX rs2).toNat % 32))) ∧
    CompletesX (.srl rd rs1 rs2) s rd (BitVec.ofNat 32 ((s.readX rs1).toNat / 2 ^ ((s.readX rs2).toNat % 32))) ∧
    CompletesX (.sra rd rs1 rs2) s rd (BitVec.ofInt 32 ((s.readX rs1).toInt / 2 ^ ((s.readX rs2).toNat % 32)))

/-! ## Control transfer (41_control_transfer.md) -/

/-- JAL (R171): encoding, link, target, the check, frame; a misaligned target needs offset bit 1 when `pc` is aligned. -/
def Obligations.JumpAndLink : Prop :=
  SelectedBySlot 0b11011#5 (fun w => .jal (rdOf w) (jImmOf w)) ∧
  ∀ (s : State) (rd : Reg) (imm : BitVec 21),
    (∃ t, exec (.jal rd imm) s = .next t ∧ EndX s t rd (s.pc + 4#32) (s.pc + imm.signExtend 32) ∧
      (aligned (s.pc + imm.signExtend 32) → t.exc = s.exc) ∧
      (¬ aligned (s.pc + imm.signExtend 32) → t.exc = .instMisaligned) ∧
      t.bus = s.bus ∧ (∀ a, t.bus.mem.byte a = s.bus.mem.byte a) ∧ sequential (.jal rd imm) s = false) ∧
    (aligned s.pc → imm.getLsbD 0 = false → (¬ aligned (s.pc + imm.signExtend 32) ↔ imm.getLsbD 1 = true))

/-- JALR (R172; D7 for `rd = rs1`): encoding, link, target with bit 0 cleared, the check, frame. The base is the old value. -/
def Obligations.JumpAndLinkRegister : Prop :=
  SelectedBy3 0b11001#5 0b000#3 (fun w => .jalr (rdOf w) (rs1Of w) (w.extractLsb' 20 12)) ∧
  (∀ f3, f3 ≠ 0b000#3 → IllegalBy3 0b11001#5 f3) ∧
  ∀ (s : State) (rd rs1 : Reg) (imm : BitVec 12),
    ∃ t, exec (.jalr rd rs1 imm) s = .next t ∧
      EndX s t rd (s.pc + 4#32) (BitVec.ofNat 32 ((s.readX rs1 + imm.signExtend 32).toNat / 2 * 2)) ∧
      ((s.readX rs1 + imm.signExtend 32).getLsbD 1 = false → t.exc = s.exc) ∧
      ((s.readX rs1 + imm.signExtend 32).getLsbD 1 = true → t.exc = .instMisaligned) ∧
      t.bus = s.bus ∧ (∀ a, t.bus.mem.byte a = s.bus.mem.byte a) ∧ sequential (.jalr rd rs1 imm) s = false

/-- The six branches (R173 to R179): encoding with its illegal `funct3`, condition, target, the check, frame. -/
def Obligations.Branches : Prop :=
  SelectedBy3 0b11000#5 0b000#3 (fun w => .beq (rs1Of w) (rs2Of w) (bImmOf w)) ∧
  SelectedBy3 0b11000#5 0b001#3 (fun w => .bne (rs1Of w) (rs2Of w) (bImmOf w)) ∧
  SelectedBy3 0b11000#5 0b100#3 (fun w => .blt (rs1Of w) (rs2Of w) (bImmOf w)) ∧
  SelectedBy3 0b11000#5 0b101#3 (fun w => .bge (rs1Of w) (rs2Of w) (bImmOf w)) ∧
  SelectedBy3 0b11000#5 0b110#3 (fun w => .bltu (rs1Of w) (rs2Of w) (bImmOf w)) ∧
  SelectedBy3 0b11000#5 0b111#3 (fun w => .bgeu (rs1Of w) (rs2Of w) (bImmOf w)) ∧
  IllegalBy3 0b11000#5 0b010#3 ∧ IllegalBy3 0b11000#5 0b011#3 ∧
  ∀ (s : State) (rs1 rs2 : Reg) (imm : BitVec 13),
    BranchDoes (.beq rs1 rs2 imm) s imm (s.readX rs1 = s.readX rs2) ∧
    BranchDoes (.bne rs1 rs2 imm) s imm (s.readX rs1 ≠ s.readX rs2) ∧
    BranchDoes (.blt rs1 rs2 imm) s imm ((s.readX rs1).toInt < (s.readX rs2).toInt) ∧
    BranchDoes (.bge rs1 rs2 imm) s imm ((s.readX rs1).toInt ≥ (s.readX rs2).toInt) ∧
    BranchDoes (.bltu rs1 rs2 imm) s imm ((s.readX rs1).toNat < (s.readX rs2).toNat) ∧
    BranchDoes (.bgeu rs1 rs2 imm) s imm ((s.readX rs1).toNat ≥ (s.readX rs2).toNat)

/-! ## Loads, stores, fences (42_load_store_fence.md, 20_memory.md) -/

/-- The five loads (R190 to R195): encoding with its illegal `funct3`, one read at base plus offset, the extended value,
frame. With `rd = x0` the read is made and nothing is written. What a read answers and latches is the next scripted reply's
(log 3, with R76 and D23) or else the reference memory's, in its byte order and with no alignment check (R79, D2, D3); the
transaction is read off the model's log of them (log 10). -/
def Obligations.Loads : Prop :=
  SelectedBy3 0b00000#5 0b000#3 (fun w => .lb (rdOf w) (rs1Of w) (w.extractLsb' 20 12)) ∧
  SelectedBy3 0b00000#5 0b001#3 (fun w => .lh (rdOf w) (rs1Of w) (w.extractLsb' 20 12)) ∧
  SelectedBy3 0b00000#5 0b010#3 (fun w => .lw (rdOf w) (rs1Of w) (w.extractLsb' 20 12)) ∧
  SelectedBy3 0b00000#5 0b100#3 (fun w => .lbu (rdOf w) (rs1Of w) (w.extractLsb' 20 12)) ∧
  SelectedBy3 0b00000#5 0b101#3 (fun w => .lhu (rdOf w) (rs1Of w) (w.extractLsb' 20 12)) ∧
  IllegalBy3 0b00000#5 0b011#3 ∧ IllegalBy3 0b00000#5 0b110#3 ∧ IllegalBy3 0b00000#5 0b111#3 ∧
  ∀ (s : State) (rd rs1 : Reg) (imm : BitVec 12) (a : Word), a = s.readX rs1 + imm.signExtend 32 →
    LoadDoes (.lb rd rs1 imm) s rd a .byte ((BitVec.ofNat 8 (answered s a .byte)).signExtend 32) ∧
    LoadDoes (.lh rd rs1 imm) s rd a .half ((BitVec.ofNat 16 (answered s a .half)).signExtend 32) ∧
    LoadDoes (.lw rd rs1 imm) s rd a .word (BitVec.ofNat 32 (answered s a .word)) ∧
    LoadDoes (.lbu rd rs1 imm) s rd a .byte (BitVec.ofNat 32 (answered s a .byte)) ∧
    LoadDoes (.lhu rd rs1 imm) s rd a .half (BitVec.ofNat 32 (answered s a .half))

/-- The three stores (R196 to R199): encoding with its illegal `funct3`, one write at base plus offset of the low bytes of
`x[rs2]`, frame with every other byte of memory. The next scripted reply may absorb the write and set the latch (log 3, with
R76 and D23); otherwise the reference memory takes it, in its byte order and with no alignment check (R79, D2, D3). Memory is
assumed in the model's canonical form (log 2), and the transaction is read off the model's log of them (log 10). -/
def Obligations.Stores : Prop :=
  SelectedBy3 0b01000#5 0b000#3 (fun w => .sb (rs1Of w) (rs2Of w) (sImmOf w)) ∧
  SelectedBy3 0b01000#5 0b001#3 (fun w => .sh (rs1Of w) (rs2Of w) (sImmOf w)) ∧
  SelectedBy3 0b01000#5 0b010#3 (fun w => .sw (rs1Of w) (rs2Of w) (sImmOf w)) ∧
  IllegalBy3 0b01000#5 0b011#3 ∧ IllegalBy3 0b01000#5 0b100#3 ∧ IllegalBy3 0b01000#5 0b101#3 ∧
  IllegalBy3 0b01000#5 0b110#3 ∧ IllegalBy3 0b01000#5 0b111#3 ∧
  ∀ (s : State) (rs1 rs2 : Reg) (imm : BitVec 12), s.bus.mem.wf = true →
    StoreDoes (.sb rs1 rs2 imm) s (s.readX rs1 + imm.signExtend 32) .byte (s.readX rs2) ∧
    StoreDoes (.sh rs1 rs2 imm) s (s.readX rs1 + imm.signExtend 32) .half (s.readX rs2) ∧
    StoreDoes (.sw rs1 rs2 imm) s (s.readX rs1 + imm.signExtend 32) .word (s.readX rs2)

/-- FENCE and FENCE.I, whatever their fields: only `pc + 4` (R200, R201, D11). -/
def Obligations.Fences : Prop :=
  SelectedBy3 0b00011#5 0b000#3
    (fun w => .fence (rdOf w) (rs1Of w) (w.extractLsb' 20 4) (w.extractLsb' 24 4) (w.extractLsb' 28 4)) ∧
  SelectedBy3 0b00011#5 0b001#3 (fun w => .fenceI (rdOf w) (rs1Of w) (w.extractLsb' 20 12)) ∧
  ∀ (s : State) (rd rs1 : Reg) (succ pred fm : BitVec 4) (imm : BitVec 12),
    Completes0 (.fence rd rs1 succ pred fm) s ∧ Completes0 (.fenceI rd rs1 imm) s

/-- What the reference memory holds at the bytes of a write reads back, and every other byte is as before, for every width
and address, aligned or not, wrapping or not (R65, R66, R73, R79; D2, D3); and a store is seen by the next fetch of its
address with no fence between (R75 "[derived]"). The canonical form is the model's own (log 2), and an empty reply list the
reference memory (log 3). -/
def Obligations.ReadAfterWrite : Prop :=
  (∀ (m : Memory) (a : Word) (n : Width) (v : Word), m.wf = true →
    littleEndian (m.write a n v) a n.bytes = v.toNat % 2 ^ (8 * n.bytes) ∧
    (m.write a n v).read a n = n.cut v ∧
    (∀ b : Word, n.bytes ≤ (b - a).toNat → (m.write a n v).byte b = m.byte b) ∧
    (m.write a n v).wf = true) ∧
  (∀ (s t : State) (rs1 rs2 : Reg) (imm : BitVec 12), s.bus.mem.wf = true → s.bus.replies = [] →
    exec (.sw rs1 rs2 imm) s = .next t →
    (t.setPc (s.readX rs1 + imm.signExtend 32)).iFetch.1 = s.readX rs2)

/-- Canonical memories that hold the same bytes are the same list (the canonical form is the model's own, log 2; M is R79's). -/
def Obligations.MemoryIsItsBytes : Prop :=
  ∀ m n : Memory, m.wf = true → n.wf = true → (∀ a : Word, m.byte a = n.byte a) → m = n

/-! ## System instructions (43_system_csr.md) -/

/-- ECALL and EBREAK under the reference environment (R210, R211, R354, R79; D8, log 3): the handler latches its kind, `PC` is
four further, nothing else changes; the whole word is handed over. -/
def Obligations.CallsUnderTheReferenceEnvironment : Prop :=
  ∀ (s : State) (rd rs1 : Reg) (lo : BitVec 2), s.bus.calls = [] →
    (∃ t, exec (.ecall rd rs1 lo) s = .next t ∧ End0 s t (s.pc + 4#32) ∧ t.exc = .envCall ∧
      t.bus = { s.bus with log := .ecall s.pc (encode (.ecall rd rs1 lo)) :: s.bus.log } ∧
      (∀ a, t.bus.mem.byte a = s.bus.mem.byte a) ∧ sequential (.ecall rd rs1 lo) s = false) ∧
    (∃ t, exec (.ebreak rd rs1 lo) s = .next t ∧ End0 s t (s.pc + 4#32) ∧ t.exc = .breakpoint ∧
      t.bus = { s.bus with log := .ebreak s.pc (encode (.ebreak rd rs1 lo)) :: s.bus.log } ∧
      (∀ a, t.bus.mem.byte a = s.bus.mem.byte a) ∧ sequential (.ebreak rd rs1 lo) s = false)

/-- ECALL and EBREAK with any handler (R210 to R212; D8, D34, log 3, log 18): the registers, `PC`, the latch and memory are as the
handler last wrote them, `PC` then four further; the counter and the CSRs are as before. -/
def Obligations.CallsWithAnyHandler : Prop :=
  ∀ (s : State) (h : Handler) (rest : List Handler) (rd rs1 : Reg) (lo : BitVec 2), s.bus.calls = h :: rest →
    s.bus.mem.wf = true →
    (∃ t, exec (.ecall rd rs1 lo) s = .next t ∧ Called s t (.ecall s.pc (encode (.ecall rd rs1 lo))) h ∧
      sequential (.ecall rd rs1 lo) s = false) ∧
    (∃ t, exec (.ebreak rd rs1 lo) s = .next t ∧ Called s t (.ebreak s.pc (encode (.ebreak rd rs1 lo))) h ∧
      sequential (.ebreak rd rs1 lo) s = false)

/-- The six CSR instructions at every CSR number (R213 to R219 with R39 to R41; D21, D29, D32): encoding, old value to `rd`, new
value to `mstatus` alone, frame. -/
def Obligations.CsrInstructions : Prop :=
  SelectedBy3 0b11100#5 0b001#3 (fun w => .csrrw (rdOf w) (rs1Of w) (w.extractLsb' 20 12)) ∧
  SelectedBy3 0b11100#5 0b010#3 (fun w => .csrrs (rdOf w) (rs1Of w) (w.extractLsb' 20 12)) ∧
  SelectedBy3 0b11100#5 0b011#3 (fun w => .csrrc (rdOf w) (rs1Of w) (w.extractLsb' 20 12)) ∧
  SelectedBy3 0b11100#5 0b101#3 (fun w => .csrrwi (rdOf w) (w.extractLsb' 15 5) (w.extractLsb' 20 12)) ∧
  SelectedBy3 0b11100#5 0b110#3 (fun w => .csrrsi (rdOf w) (w.extractLsb' 15 5) (w.extractLsb' 20 12)) ∧
  SelectedBy3 0b11100#5 0b111#3 (fun w => .csrrci (rdOf w) (w.extractLsb' 15 5) (w.extractLsb' 20 12)) ∧
  ∀ (s : State) (rd rs1 : Reg) (zimm : BitVec 5) (csr : BitVec 12),
    CsrDoes (.csrrw rd rs1 csr) s rd csr (s.readX rs1) ∧
    CsrDoes (.csrrs rd rs1 csr) s rd csr (csrTable s csr ||| s.readX rs1) ∧
    CsrDoes (.csrrc rd rs1 csr) s rd csr (csrTable s csr &&& ~~~(s.readX rs1)) ∧
    CsrDoes (.csrrwi rd zimm csr) s rd csr (BitVec.ofNat 32 zimm.toNat) ∧
    CsrDoes (.csrrsi rd zimm csr) s rd csr (csrTable s csr ||| BitVec.ofNat 32 zimm.toNat) ∧
    CsrDoes (.csrrci rd zimm csr) s rd csr (csrTable s csr &&& ~~~(BitVec.ofNat 32 zimm.toNat))

/-- R41: a CSR write takes effect at 0x300 alone, on `csr_mstatus` alone; a dropped write is no error: CSRRW still answers the
old value in `rd` and goes on. -/
def Obligations.DroppedCsrWrites : Prop :=
  (∀ (s : State) (v : Word), s.writeCsr 0x300#12 v = { s with csrMstatus := v }) ∧
  (∀ (s : State) (a : BitVec 12) (v : Word), a ≠ 0x300#12 → s.writeCsr a v = s) ∧
  (∀ (s : State) (rd rs1 : Reg) (a : BitVec 12), a ≠ 0x300#12 → CompletesX (.csrrw rd rs1 a) s rd (csrTable s a))

/-! ## M extension (44_m_extension.md) -/

/-- MUL, MULH, MULHU, DIVU, REMU (R241, R242, R244, R246, R248): encoding, result as part of the exact product, quotient or
remainder, division by zero, frame. -/
def Obligations.MulMulhMulhuDivuRemu : Prop :=
  SelectedBy73 0b01100#5 0b0000001#7 0b000#3 (fun w => .mul (rdOf w) (rs1Of w) (rs2Of w)) ∧
  SelectedBy73 0b01100#5 0b0000001#7 0b001#3 (fun w => .mulh (rdOf w) (rs1Of w) (rs2Of w)) ∧
  SelectedBy73 0b01100#5 0b0000001#7 0b011#3 (fun w => .mulhu (rdOf w) (rs1Of w) (rs2Of w)) ∧
  SelectedBy73 0b01100#5 0b0000001#7 0b101#3 (fun w => .divu (rdOf w) (rs1Of w) (rs2Of w)) ∧
  SelectedBy73 0b01100#5 0b0000001#7 0b111#3 (fun w => .remu (rdOf w) (rs1Of w) (rs2Of w)) ∧
  ∀ (s : State) (rd rs1 rs2 : Reg),
    CompletesX (.mul rd rs1 rs2) s rd (BitVec.ofInt 32 ((s.readX rs1).toInt * (s.readX rs2).toInt)) ∧
    CompletesX (.mulh rd rs1 rs2) s rd (BitVec.ofInt 32 ((s.readX rs1).toInt * (s.readX rs2).toInt / 2 ^ 32)) ∧
    CompletesX (.mulhu rd rs1 rs2) s rd (BitVec.ofNat 32 ((s.readX rs1).toNat * (s.readX rs2).toNat / 2 ^ 32)) ∧
    CompletesX (.divu rd rs1 rs2) s rd (if s.readX rs2 = 0#32 then 0xFFFFFFFF#32
      else BitVec.ofNat 32 ((s.readX rs1).toNat / (s.readX rs2).toNat)) ∧
    CompletesX (.remu rd rs1 rs2) s rd (if s.readX rs2 = 0#32 then s.readX rs1
      else BitVec.ofNat 32 ((s.readX rs1).toNat % (s.readX rs2).toNat))

/-- MULHSU, DIV and REM (R243, R245, R247: which operand is signed, rounding toward zero and the sign of the remainder are
general knowledge): encoding, result, the special cases, frame. -/
def Obligations.MulhsuDivRem : Prop :=
  SelectedBy73 0b01100#5 0b0000001#7 0b010#3 (fun w => .mulhsu (rdOf w) (rs1Of w) (rs2Of w)) ∧
  SelectedBy73 0b01100#5 0b0000001#7 0b100#3 (fun w => .div (rdOf w) (rs1Of w) (rs2Of w)) ∧
  SelectedBy73 0b01100#5 0b0000001#7 0b110#3 (fun w => .rem (rdOf w) (rs1Of w) (rs2Of w)) ∧
  ∀ (s : State) (rd rs1 rs2 : Reg),
    CompletesX (.mulhsu rd rs1 rs2) s rd
      (BitVec.ofInt 32 ((s.readX rs1).toInt * ((s.readX rs2).toNat : Int) / 2 ^ 32)) ∧
    CompletesX (.div rd rs1 rs2) s rd (if s.readX rs2 = 0#32 then 0xFFFFFFFF#32
      else if s.readX rs1 = 0x80000000#32 ∧ s.readX rs2 = 0xFFFFFFFF#32 then 0x80000000#32
      else BitVec.ofInt 32 ((s.readX rs1).toInt.tdiv (s.readX rs2).toInt)) ∧
    CompletesX (.rem rd rs1 rs2) s rd (if s.readX rs2 = 0#32 then s.readX rs1
      else if s.readX rs1 = 0x80000000#32 ∧ s.readX rs2 = 0xFFFFFFFF#32 then 0#32
      else BitVec.ofInt 32 ((s.readX rs1).toInt.tmod (s.readX rs2).toInt))

/-- The laws of multiplication and division (R249; the excluded cases of law 2 are "[derived]"). -/
def Obligations.MultiplyDivideLaws : Prop :=
  ∀ a b : Word,
    mulHighU a b ++ mulLow a b = BitVec.ofNat 64 (a.toNat * b.toNat) ∧
    mulHigh a b ++ mulLow a b = BitVec.ofInt 64 (a.toInt * b.toInt) ∧
    mulHighSU a b ++ mulLow a b = BitVec.ofInt 64 (a.toInt * (b.toNat : Int)) ∧
    divSigned a b * b + remSigned a b = a ∧ divUnsigned a b * b + remUnsigned a b = a ∧
    divSigned a 0#32 = 0xFFFFFFFF#32 ∧ remSigned a 0#32 = a ∧ divUnsigned a 0#32 = 0xFFFFFFFF#32 ∧ remUnsigned a 0#32 = a ∧
    divSigned 0x80000000#32 0xFFFFFFFF#32 = 0x80000000#32 ∧ remSigned 0x80000000#32 0xFFFFFFFF#32 = 0#32 ∧
    divUnsigned 0x80000000#32 0xFFFFFFFF#32 = 0#32 ∧ remUnsigned 0x80000000#32 0xFFFFFFFF#32 = 0x80000000#32 ∧
    (b ≠ 0#32 → (remUnsigned a b).toNat < b.toNat) ∧
    (b ≠ 0#32 → ¬ (a = 0x80000000#32 ∧ b = 0xFFFFFFFF#32) →
      (divSigned a b).toInt = (if (a.toInt < 0) = (b.toInt < 0) then 1 else -1) * (a.toInt.natAbs / b.toInt.natAbs : Nat) ∧
      (remSigned a b).toInt = (if a.toInt < 0 then -1 else 1) * (a.toInt.natAbs % b.toInt.natAbs : Nat) ∧
      (remSigned a b).toInt.natAbs < b.toInt.natAbs)

/-! ## A extension (45_a_extension.md) -/

/-- LR.W and SC.W (R261, R262): encoding, one read or one write of the word at `x[rs1]`, SC.W always stores and answers 0,
frame. No state takes a reservation: LR.W changes nothing a load does not. That LR.W with another `rs2` is illegal is D10's
(R110). The scripted replies (log 3, D23), the canonical form (log 2), the log of transactions (log 10) and the byte order
(R79, D2) are as in Loads and Stores; the order of the register write is D7's. -/
def Obligations.LrSc : Prop :=
  (∀ p w, slotOf w = 0b01011#5 → funct3Of w = 0b010#3 → w.extractLsb' 27 5 = 0b00010#5 → p.extA = true →
    (rs2Of w = 0#5 → decodeWord p w = .instr (.lrW (rdOf w) (rs1Of w) (w.extractLsb' 26 1) (w.extractLsb' 25 1))) ∧
    (rs2Of w ≠ 0#5 → ∃ r, decodeWord p w = .illegal r)) ∧
  SelectedByF5 0b00011#5 (fun w => .scW (rdOf w) (rs1Of w) (rs2Of w) (w.extractLsb' 26 1) (w.extractLsb' 25 1)) ∧
  ∀ (s : State) (rd rs1 rs2 : Reg) (aq rl : BitVec 1),
    LoadDoes (.lrW rd rs1 aq rl) s rd (s.readX rs1) .word (BitVec.ofNat 32 (answered s (s.readX rs1) .word)) ∧
    (s.bus.mem.wf = true → ∃ t, exec (.scW rd rs1 rs2 aq rl) s = .next t ∧ EndX s t rd 0#32 (s.pc + 4#32) ∧
      WroteOnce s t (s.readX rs1) .word (s.readX rs2) ∧ sequential (.scW rd rs1 rs2 aq rl) s = true)

/-- AMOSWAP.W, AMOADD.W, AMOXOR.W, AMOAND.W, AMOOR.W (R263 to R267): encoding, the read then the write of the same word, the
old word to `rd`, frame. That an AMO is a read and then a write is C2's and D28's, and that its sources are read first D7's;
the scripted replies (log 3, D23), the canonical form (log 2), the log of transactions (log 10) and the byte order (R79, D2)
are as in Loads and Stores. -/
def Obligations.AmoLogical : Prop :=
  SelectedByF5 0b00001#5 (fun w => .amoswapW (rdOf w) (rs1Of w) (rs2Of w) (w.extractLsb' 26 1) (w.extractLsb' 25 1)) ∧
  SelectedByF5 0b00000#5 (fun w => .amoaddW (rdOf w) (rs1Of w) (rs2Of w) (w.extractLsb' 26 1) (w.extractLsb' 25 1)) ∧
  SelectedByF5 0b00100#5 (fun w => .amoxorW (rdOf w) (rs1Of w) (rs2Of w) (w.extractLsb' 26 1) (w.extractLsb' 25 1)) ∧
  SelectedByF5 0b01100#5 (fun w => .amoandW (rdOf w) (rs1Of w) (rs2Of w) (w.extractLsb' 26 1) (w.extractLsb' 25 1)) ∧
  SelectedByF5 0b01000#5 (fun w => .amoorW (rdOf w) (rs1Of w) (rs2Of w) (w.extractLsb' 26 1) (w.extractLsb' 25 1)) ∧
  ∀ (s : State) (rd rs1 rs2 : Reg) (aq rl : BitVec 1), s.bus.mem.wf = true →
    AmoDoes (.amoswapW rd rs1 rs2 aq rl) s rd rs1 rs2 (fun _ v => v) ∧
    AmoDoes (.amoaddW rd rs1 rs2 aq rl) s rd rs1 rs2 (fun t v => BitVec.ofNat 32 (t.toNat + v.toNat)) ∧
    AmoDoes (.amoxorW rd rs1 rs2 aq rl) s rd rs1 rs2 (fun t v => t ^^^ v) ∧
    AmoDoes (.amoandW rd rs1 rs2 aq rl) s rd rs1 rs2 (fun t v => t &&& v) ∧
    AmoDoes (.amoorW rd rs1 rs2 aq rl) s rd rs1 rs2 (fun t v => t ||| v)

/-- AMOMIN.W, AMOMAX.W, AMOMINU.W, AMOMAXU.W (R268 to R271: signedness is general knowledge, D28, log 16): encoding,
operation, frame. C2, D7, the scripted replies (log 3, D23), the canonical form (log 2), the log of transactions (log 10) and
the byte order (R79, D2) are as in AmoLogical. -/
def Obligations.AmoMinMax : Prop :=
  SelectedByF5 0b10000#5 (fun w => .amominW (rdOf w) (rs1Of w) (rs2Of w) (w.extractLsb' 26 1) (w.extractLsb' 25 1)) ∧
  SelectedByF5 0b10100#5 (fun w => .amomaxW (rdOf w) (rs1Of w) (rs2Of w) (w.extractLsb' 26 1) (w.extractLsb' 25 1)) ∧
  SelectedByF5 0b11000#5 (fun w => .amominuW (rdOf w) (rs1Of w) (rs2Of w) (w.extractLsb' 26 1) (w.extractLsb' 25 1)) ∧
  SelectedByF5 0b11100#5 (fun w => .amomaxuW (rdOf w) (rs1Of w) (rs2Of w) (w.extractLsb' 26 1) (w.extractLsb' 25 1)) ∧
  ∀ (s : State) (rd rs1 rs2 : Reg) (aq rl : BitVec 1), s.bus.mem.wf = true →
    AmoDoes (.amominW rd rs1 rs2 aq rl) s rd rs1 rs2 (fun t v => BitVec.ofInt 32 (min t.toInt v.toInt)) ∧
    AmoDoes (.amomaxW rd rs1 rs2 aq rl) s rd rs1 rs2 (fun t v => BitVec.ofInt 32 (max t.toInt v.toInt)) ∧
    AmoDoes (.amominuW rd rs1 rs2 aq rl) s rd rs1 rs2 (fun t v => BitVec.ofNat 32 (min t.toNat v.toNat)) ∧
    AmoDoes (.amomaxuW rd rs1 rs2 aq rl) s rd rs1 rs2 (fun t v => BitVec.ofNat 32 (max t.toNat v.toNat))

/-! ## F extension (46_f_extension.md) -/

/-- FLW and FSW (R297, R298; D12): encoding, one word transaction, all 32 bits as they are, frame. The scripted replies (log
3, D23), the canonical form (log 2), the log of transactions (log 10) and the byte order (R79, D2, D3) are as in Loads and
Stores. -/
def Obligations.FloatLoadStore : Prop :=
  SelectedBy3 0b00001#5 0b010#3 (fun w => .flw (rdOf w) (rs1Of w) (w.extractLsb' 20 12)) ∧
  SelectedBy3 0b01001#5 0b010#3 (fun w => .fsw (rs1Of w) (rs2Of w) (sImmOf w)) ∧
  ∀ (s : State) (rd rs1 rs2 : Reg) (imm : BitVec 12) (a : Word), a = s.readX rs1 + imm.signExtend 32 →
    (∃ t, exec (.flw rd rs1 imm) s = .next t ∧ EndF s t rd (BitVec.ofNat 32 (answered s a .word)) ∧
      ReadOnce s t a .word ∧ sequential (.flw rd rs1 imm) s = true) ∧
    (s.bus.mem.wf = true → StoreDoes (.fsw rs1 rs2 imm) s a .word (s.readF rs2))

/-- FADD.S and FSUB.S (R299, R300 with R290, R291, R293; D13, D14, D19, log 4): the exact sum or difference rounded once, the
special cases, frame. -/
def Obligations.FloatAddSubtract : Prop :=
  ∀ (s : State) (rd rs1 rs2 : Reg) (rm : BitVec 3) (a b : Word), a = s.readF rs1 → b = s.readF rs2 →
    CompletesF (.faddS rd rs1 rs2 rm) s rd (AddIs (nanResult s.params.nanRule .fadd a b 0#32) a b) ∧
    CompletesF (.fsubS rd rs1 rs2 rm) s rd
      (fun w => if isNaN a ∨ isNaN b then w = nanResult s.params.nanRule .fsub a b 0#32
        else AddIs (nanResult s.params.nanRule .fsub a b 0#32) a (negated b) w)

/-- FMUL.S and FDIV.S (R301, R302 with R290, R291, R293; D13, D14, D19, log 4): the exact product or quotient rounded once, the
special cases, frame. -/
def Obligations.FloatMultiplyDivide : Prop :=
  ∀ (s : State) (rd rs1 rs2 : Reg) (rm : BitVec 3) (a b : Word), a = s.readF rs1 → b = s.readF rs2 →
    CompletesF (.fmulS rd rs1 rs2 rm) s rd (MulIs (nanResult s.params.nanRule .fmul a b 0#32) a b) ∧
    CompletesF (.fdivS rd rs1 rs2 rm) s rd (DivIs (nanResult s.params.nanRule .fdiv a b 0#32) a b)

/-- FSQRT.S (R303 with R290, R291, R293; D13, D14, log 4): the real square root rounded once, the special cases, frame. -/
def Obligations.FloatSquareRoot : Prop :=
  ∀ (s : State) (rd rs1 : Reg) (rm : BitVec 3) (a : Word), a = s.readF rs1 →
    CompletesF (.fsqrtS rd rs1 rm) s rd (SqrtIs (nanResult s.params.nanRule .fsqrt a 0#32 0#32) a)

/-- The four fused multiply-adds (R319 to R322 with R290, R291, R293; D13, D14, D18, log 4): one rounding of the exact value, the
special cases, frame. -/
def Obligations.FloatFused : Prop :=
  ∀ (s : State) (rd rs1 rs2 rs3 : Reg) (rm : BitVec 3) (a b c : Word), a = s.readF rs1 → b = s.readF rs2 → c = s.readF rs3 →
    CompletesF (.fmaddS rd rs1 rs2 rs3 rm) s rd (FmaIs (nanResult s.params.nanRule .fmadd a b c) a b c) ∧
    CompletesF (.fmsubS rd rs1 rs2 rs3 rm) s rd
      (fun w => if isNaN a ∨ isNaN b ∨ isNaN c then w = nanResult s.params.nanRule .fmsub a b c
        else FmaIs (nanResult s.params.nanRule .fmsub a b c) a b (negated c) w) ∧
    CompletesF (.fnmsubS rd rs1 rs2 rs3 rm) s rd
      (fun w => if isNaN a ∨ isNaN b ∨ isNaN c then w = nanResult s.params.nanRule .fnmsub a b c
        else FmaIs (nanResult s.params.nanRule .fnmsub a b c) (negated a) b c w) ∧
    CompletesF (.fnmaddS rd rs1 rs2 rs3 rm) s rd
      (fun w => if isNaN a ∨ isNaN b ∨ isNaN c then w = nanResult s.params.nanRule .fnmadd a b c
        else FmaIs (nanResult s.params.nanRule .fnmadd a b c) (negated a) b (negated c) w)

/-- FSGNJ.S, FSGNJN.S, FSGNJX.S, FMV.X.W, FMV.W.X (R304, R305, R306, R311, R318): encoding, bits moved as they are, frame. -/
def Obligations.FloatBitMoves : Prop :=
  SelectedBy73 0b10100#5 0b0010000#7 0b000#3 (fun w => .fsgnjS (rdOf w) (rs1Of w) (rs2Of w)) ∧
  SelectedBy73 0b10100#5 0b0010000#7 0b001#3 (fun w => .fsgnjnS (rdOf w) (rs1Of w) (rs2Of w)) ∧
  SelectedBy73 0b10100#5 0b0010000#7 0b010#3 (fun w => .fsgnjxS (rdOf w) (rs1Of w) (rs2Of w)) ∧
  (∀ p w, slotOf w = 0b10100#5 → rs2Of w = 0#5 → funct3Of w = 0b000#3 → p.extF = true →
    (funct7Of w = 0b1110000#7 → decodeWord p w = .instr (.fmvXW (rdOf w) (rs1Of w))) ∧
    (funct7Of w = 0b1111000#7 → decodeWord p w = .instr (.fmvWX (rdOf w) (rs1Of w)))) ∧
  ∀ (s : State) (rd rs1 rs2 : Reg) (a b : Word), a = s.readF rs1 → b = s.readF rs2 →
    CompletesF (.fsgnjS rd rs1 rs2) s rd (fun w => w.getLsbD 31 = b.getLsbD 31 ∧ w.setWidth 31 = a.setWidth 31) ∧
    CompletesF (.fsgnjnS rd rs1 rs2) s rd (fun w => w.getLsbD 31 = !b.getLsbD 31 ∧ w.setWidth 31 = a.setWidth 31) ∧
    CompletesF (.fsgnjxS rd rs1 rs2) s rd
      (fun w => w.getLsbD 31 = (a.getLsbD 31 ^^ b.getLsbD 31) ∧ w.setWidth 31 = a.setWidth 31) ∧
    CompletesX (.fmvXW rd rs1) s rd a ∧ CompletesF (.fmvWX rd rs1) s rd (fun w => w = s.readX rs1)

/-- FMIN.S and FMAX.S (R307, R308; D16, D14, log 4): NaN operands, zeros of opposite sign, the order of R312, frame. -/
def Obligations.FloatMinMax : Prop :=
  ∀ (s : State) (rd rs1 rs2 : Reg) (a b : Word), a = s.readF rs1 → b = s.readF rs2 →
    CompletesF (.fminS rd rs1 rs2) s rd (fun w =>
      (isNaN a → isNaN b → w = nanResult s.params.nanRule .fmin a b 0#32) ∧ (isNaN a → ¬ isNaN b → w = b) ∧
      (¬ isNaN a → isNaN b → w = a) ∧
      (¬ isNaN a → ¬ isNaN b →
        (isZero a → isZero b → a.getLsbD 31 ≠ b.getLsbD 31 → w = 0x80000000#32) ∧
        (¬ (isZero a ∧ isZero b ∧ a.getLsbD 31 ≠ b.getLsbD 31) → (Below a b → w = a) ∧ (¬ Below a b → w = b)))) ∧
    CompletesF (.fmaxS rd rs1 rs2) s rd (fun w =>
      (isNaN a → isNaN b → w = nanResult s.params.nanRule .fmax a b 0#32) ∧ (isNaN a → ¬ isNaN b → w = b) ∧
      (¬ isNaN a → isNaN b → w = a) ∧
      (¬ isNaN a → ¬ isNaN b →
        (isZero a → isZero b → a.getLsbD 31 ≠ b.getLsbD 31 → w = 0x00000000#32) ∧
        (¬ (isZero a ∧ isZero b ∧ a.getLsbD 31 ≠ b.getLsbD 31) → (Below b a → w = a) ∧ (¬ Below b a → w = b))))

/-- FEQ.S, FLT.S, FLE.S (R312 to R314, the IEEE 754 order as general knowledge): 0 with a NaN operand, else the order of the
values with both zeros equal; result exactly 0 or 1; frame. -/
def Obligations.FloatCompares : Prop :=
  ∀ (s : State) (rd rs1 rs2 : Reg) (a b : Word), a = s.readF rs1 → b = s.readF rs2 →
    ∃ e l m : Word,
      CompletesX (.feqS rd rs1 rs2) s rd e ∧ CompletesX (.fltS rd rs1 rs2) s rd l ∧ CompletesX (.fleS rd rs1 rs2) s rd m ∧
      (isNaN a ∨ isNaN b → e = 0#32 ∧ l = 0#32 ∧ m = 0#32) ∧
      (¬ isNaN a → ¬ isNaN b →
        (e = 1#32 ↔ ¬ Below a b ∧ ¬ Below b a) ∧ (l = 1#32 ↔ Below a b) ∧ (m = 1#32 ↔ ¬ Below b a)) ∧
      (e = 0#32 ∨ e = 1#32) ∧ (l = 0#32 ∨ l = 1#32) ∧ (m = 0#32 ∨ m = 1#32)

/-- FCLASS.S (R295, R315): encoding, the table of ten classes, exactly one bit for every pattern, frame. -/
def Obligations.FloatClassify : Prop :=
  (∀ p w, slotOf w = 0b10100#5 → funct7Of w = 0b1110000#7 → rs2Of w = 0#5 → funct3Of w = 0b001#3 → p.extF = true →
    decodeWord p w = .instr (.fclassS (rdOf w) (rs1Of w))) ∧
  ∀ (s : State) (rd rs1 : Reg) (v : Word), v = s.readF rs1 →
    ∃ m, CompletesX (.fclassS rd rs1) s rd m ∧ (∃ k, k < 10 ∧ m = BitVec.ofNat 32 (2 ^ k)) ∧
      (m = 0x001#32 ↔ v = 0xFF800000#32) ∧
      (m = 0x002#32 ↔ v.getLsbD 31 = true ∧ 1 ≤ (v.extractLsb' 23 8).toNat ∧ (v.extractLsb' 23 8).toNat ≤ 254) ∧
      (m = 0x004#32 ↔ v.getLsbD 31 = true ∧ v.extractLsb' 23 8 = 0#8 ∧ v.extractLsb' 0 23 ≠ 0#23) ∧
      (m = 0x008#32 ↔ v = 0x80000000#32) ∧
      (m = 0x010#32 ↔ v = 0x00000000#32) ∧
      (m = 0x020#32 ↔ v.getLsbD 31 = false ∧ v.extractLsb' 23 8 = 0#8 ∧ v.extractLsb' 0 23 ≠ 0#23) ∧
      (m = 0x040#32 ↔ v.getLsbD 31 = false ∧ 1 ≤ (v.extractLsb' 23 8).toNat ∧ (v.extractLsb' 23 8).toNat ≤ 254) ∧
      (m = 0x080#32 ↔ v = 0x7F800000#32) ∧
      (m = 0x100#32 ↔ v.extractLsb' 23 8 = 255#8 ∧ v.extractLsb' 0 23 ≠ 0#23 ∧ v.getLsbD 22 = false) ∧
      (m = 0x200#32 ↔ v.extractLsb' 23 8 = 255#8 ∧ v.getLsbD 22 = true)

/-- FCVT.W.S and FCVT.WU.S (R309, R310; D13, D17, log 5): the integer that `F2I_ROUND` gives, saturation, NaN and infinities,
frame. -/
def Obligations.FloatToInteger : Prop :=
  ∀ (s : State) (rd rs1 : Reg) (rm : BitVec 3) (a : Word), a = s.readF rs1 →
    (∃ w, CompletesX (.fcvtWS rd rs1 rm) s rd w ∧ F2iIs s.params.f2iRound a w) ∧
    (∃ w, CompletesX (.fcvtWuS rd rs1 rm) s rd w ∧ F2uIs s.params.f2iRound a w)

/-- FCVT.S.W and FCVT.S.WU (R316, R317 with R291; D13): the integer rounded once, `+0` for 0, frame. -/
def Obligations.IntegerToFloat : Prop :=
  ∀ (s : State) (rd rs1 : Reg) (rm : BitVec 3) (v : Word), v = s.readX rs1 →
    CompletesF (.fcvtSW rd rs1 rm) s rd (fun w => (v = 0#32 → w = 0#32) ∧ (v ≠ 0#32 → RoundsTo (v.toInt : ℝ) w)) ∧
    CompletesF (.fcvtSWu rd rs1 rm) s rd (fun w => (v = 0#32 → w = 0#32) ∧ (v ≠ 0#32 → RoundsTo (v.toNat : ℝ) w))

/-- The eight laws of the F unit (R324, of which 3 to 8 are "[derived]"; R292 with D13, R293 with D14, log 4; the callback of an
FLW or FSW, log 3), in the rule's order and each whole in Machine/FloatLaws.lean: the bit moves give the pattern back; FCLASS.S
sets one bit; no F instruction changes `csr_fcsr`, the latch or an integer register it does not name; addition and
multiplication commute; no operation gives a signalling NaN, whatever the parameter `NAN_RESULT`; an integer of magnitude at most
2^24 survives FCVT.S.W then FCVT.W.S; the sign injections on one register; `rm` changes nothing an instruction does. Last, `rm`
changes nothing of what a word decodes to but itself (R120, R292). -/
def Obligations.FloatUnitLaws : Prop :=
  LawMoveRoundTrip ∧ LawClassOneBit ∧ LawFloatFrame ∧ LawCommutes ∧ LawNoSignallingNan ∧ LawConvertRoundTrip ∧
  LawSignInjection ∧ LawRmWithoutEffect ∧
  ∀ (p : Params) (w : Word) (i j : Instr) (rm : BitVec 3), decodeWord p w = .instr i → i.withRm? rm = some j →
    decodeWord p (withRm w rm) = .instr j

/-- Facts of `round_f32` (R291, with D13): a finite non-zero value rounds to itself; rounding is monotone in the magnitude; from
2^128 - 2^103 on, and only there, it overflows; up to 2^-150, and only there, it gives a zero. Magnitudes are `n / d`
quanta of 2^-149. -/
def Obligations.RoundingFacts : Prop :=
  (∀ v : Word, isNaN v = false → isInf v = false → isZero v = false → roundInt (value v) 1 = v) ∧
  (∀ n d n' d' : Nat, 0 < n → 0 < d → 0 < d' → n * d' ≤ n' * d →
    (roundQuotient false n d).toNat ≤ (roundQuotient false n' d').toNat) ∧
  (∀ (neg : Bool) (n d : Nat), 0 < n → 0 < d →
    (isInf (roundQuotient neg n d) = true ↔ (2 ^ 128 - 2 ^ 103) * 2 ^ 149 * d ≤ n) ∧
    (isZero (roundQuotient neg n d) = true ↔ 2 * n ≤ d) ∧ fSign (roundQuotient neg n d) = neg)
end

