-- ==== Sys2Proof/Laws/Encoding.lean ====
section
/-! SUPPORT. Each field of each format reads back (30_encoding.md R91 to R99): the extractors applied to the encoder's formats. -/

namespace Sys2Proof

/-! ## encR -/

@[simp] theorem slotOf_encR (f7 : BitVec 7) (rs2 rs1 : Reg) (f3 : BitVec 3) (rd : Reg) (slot : BitVec 5) :
    slotOf (encR f7 rs2 rs1 f3 rd slot) = slot := by
  unfold slotOf encR; ext i hi
  simp only [BitVec.getElem_extractLsb', BitVec.getLsbD_append]; grind

@[simp] theorem rdOf_encR (f7 : BitVec 7) (rs2 rs1 : Reg) (f3 : BitVec 3) (rd : Reg) (slot : BitVec 5) :
    rdOf (encR f7 rs2 rs1 f3 rd slot) = rd := by
  unfold rdOf encR; ext i hi
  simp only [BitVec.getElem_extractLsb', BitVec.getLsbD_append]; grind

@[simp] theorem funct3Of_encR (f7 : BitVec 7) (rs2 rs1 : Reg) (f3 : BitVec 3) (rd : Reg) (slot : BitVec 5) :
    funct3Of (encR f7 rs2 rs1 f3 rd slot) = f3 := by
  unfold funct3Of encR; ext i hi
  simp only [BitVec.getElem_extractLsb', BitVec.getLsbD_append]; grind

@[simp] theorem rs1Of_encR (f7 : BitVec 7) (rs2 rs1 : Reg) (f3 : BitVec 3) (rd : Reg) (slot : BitVec 5) :
    rs1Of (encR f7 rs2 rs1 f3 rd slot) = rs1 := by
  unfold rs1Of encR; ext i hi
  simp only [BitVec.getElem_extractLsb', BitVec.getLsbD_append]; grind

@[simp] theorem rs2Of_encR (f7 : BitVec 7) (rs2 rs1 : Reg) (f3 : BitVec 3) (rd : Reg) (slot : BitVec 5) :
    rs2Of (encR f7 rs2 rs1 f3 rd slot) = rs2 := by
  unfold rs2Of encR; ext i hi
  simp only [BitVec.getElem_extractLsb', BitVec.getLsbD_append]; grind

@[simp] theorem funct7Of_encR (f7 : BitVec 7) (rs2 rs1 : Reg) (f3 : BitVec 3) (rd : Reg) (slot : BitVec 5) :
    funct7Of (encR f7 rs2 rs1 f3 rd slot) = f7 := by
  unfold funct7Of encR; ext i hi
  simp only [BitVec.getElem_extractLsb', BitVec.getLsbD_append]; grind

/-! ## encI -/

@[simp] theorem slotOf_encI (imm : BitVec 12) (rs1 : Reg) (f3 : BitVec 3) (rd : Reg) (slot : BitVec 5) :
    slotOf (encI imm rs1 f3 rd slot) = slot := by
  unfold slotOf encI; ext i hi
  simp only [BitVec.getElem_extractLsb', BitVec.getLsbD_append]; grind

@[simp] theorem rdOf_encI (imm : BitVec 12) (rs1 : Reg) (f3 : BitVec 3) (rd : Reg) (slot : BitVec 5) :
    rdOf (encI imm rs1 f3 rd slot) = rd := by
  unfold rdOf encI; ext i hi
  simp only [BitVec.getElem_extractLsb', BitVec.getLsbD_append]; grind

@[simp] theorem funct3Of_encI (imm : BitVec 12) (rs1 : Reg) (f3 : BitVec 3) (rd : Reg) (slot : BitVec 5) :
    funct3Of (encI imm rs1 f3 rd slot) = f3 := by
  unfold funct3Of encI; ext i hi
  simp only [BitVec.getElem_extractLsb', BitVec.getLsbD_append]; grind

@[simp] theorem rs1Of_encI (imm : BitVec 12) (rs1 : Reg) (f3 : BitVec 3) (rd : Reg) (slot : BitVec 5) :
    rs1Of (encI imm rs1 f3 rd slot) = rs1 := by
  unfold rs1Of encI; ext i hi
  simp only [BitVec.getElem_extractLsb', BitVec.getLsbD_append]; grind

@[simp] theorem iImmOf_encI (imm : BitVec 12) (rs1 : Reg) (f3 : BitVec 3) (rd : Reg) (slot : BitVec 5) :
    iImmOf (encI imm rs1 f3 rd slot) = imm := by
  unfold iImmOf encI; ext i hi
  simp only [BitVec.getElem_extractLsb', BitVec.getLsbD_append]; grind

/-! ## encS -/

@[simp] theorem slotOf_encS (imm : BitVec 12) (rs2 rs1 : Reg) (f3 : BitVec 3) (slot : BitVec 5) :
    slotOf (encS imm rs2 rs1 f3 slot) = slot := by
  unfold slotOf encS; ext i hi
  simp only [BitVec.getElem_extractLsb', BitVec.getLsbD_append]; grind

@[simp] theorem funct3Of_encS (imm : BitVec 12) (rs2 rs1 : Reg) (f3 : BitVec 3) (slot : BitVec 5) :
    funct3Of (encS imm rs2 rs1 f3 slot) = f3 := by
  unfold funct3Of encS; ext i hi
  simp only [BitVec.getElem_extractLsb', BitVec.getLsbD_append]; grind

@[simp] theorem rs1Of_encS (imm : BitVec 12) (rs2 rs1 : Reg) (f3 : BitVec 3) (slot : BitVec 5) :
    rs1Of (encS imm rs2 rs1 f3 slot) = rs1 := by
  unfold rs1Of encS; ext i hi
  simp only [BitVec.getElem_extractLsb', BitVec.getLsbD_append]; grind

@[simp] theorem rs2Of_encS (imm : BitVec 12) (rs2 rs1 : Reg) (f3 : BitVec 3) (slot : BitVec 5) :
    rs2Of (encS imm rs2 rs1 f3 slot) = rs2 := by
  unfold rs2Of encS; ext i hi
  simp only [BitVec.getElem_extractLsb', BitVec.getLsbD_append]; grind

@[simp] theorem sImmOf_encS (imm : BitVec 12) (rs2 rs1 : Reg) (f3 : BitVec 3) (slot : BitVec 5) :
    sImmOf (encS imm rs2 rs1 f3 slot) = imm := by
  unfold sImmOf encS; ext i hi
  simp only [BitVec.getElem_append, BitVec.getElem_extractLsb', BitVec.getLsbD_append, BitVec.getLsbD_extractLsb']; grind

/-! ## encB -/

@[simp] theorem slotOf_encB (imm : BitVec 13) (rs2 rs1 : Reg) (f3 : BitVec 3) (slot : BitVec 5) :
    slotOf (encB imm rs2 rs1 f3 slot) = slot := by
  unfold slotOf encB; ext i hi
  simp only [BitVec.getElem_extractLsb', BitVec.getLsbD_append]; grind

@[simp] theorem funct3Of_encB (imm : BitVec 13) (rs2 rs1 : Reg) (f3 : BitVec 3) (slot : BitVec 5) :
    funct3Of (encB imm rs2 rs1 f3 slot) = f3 := by
  unfold funct3Of encB; ext i hi
  simp only [BitVec.getElem_extractLsb', BitVec.getLsbD_append]; grind

@[simp] theorem rs1Of_encB (imm : BitVec 13) (rs2 rs1 : Reg) (f3 : BitVec 3) (slot : BitVec 5) :
    rs1Of (encB imm rs2 rs1 f3 slot) = rs1 := by
  unfold rs1Of encB; ext i hi
  simp only [BitVec.getElem_extractLsb', BitVec.getLsbD_append]; grind

@[simp] theorem rs2Of_encB (imm : BitVec 13) (rs2 rs1 : Reg) (f3 : BitVec 3) (slot : BitVec 5) :
    rs2Of (encB imm rs2 rs1 f3 slot) = rs2 := by
  unfold rs2Of encB; ext i hi
  simp only [BitVec.getElem_extractLsb', BitVec.getLsbD_append]; grind

@[simp] theorem bImmOf_encB (imm : BitVec 13) (rs2 rs1 : Reg) (f3 : BitVec 3) (slot : BitVec 5) (h : imm.getLsbD 0 = false) :
    bImmOf (encB imm rs2 rs1 f3 slot) = imm := by
  unfold bImmOf encB; ext i hi
  simp only [BitVec.getElem_append, BitVec.getElem_extractLsb', BitVec.getLsbD_append, BitVec.getLsbD_extractLsb']; grind

/-! ## encU -/

@[simp] theorem slotOf_encU (imm : BitVec 20) (rd : Reg) (slot : BitVec 5) :
    slotOf (encU imm rd slot) = slot := by
  unfold slotOf encU; ext i hi
  simp only [BitVec.getElem_extractLsb', BitVec.getLsbD_append]; grind

@[simp] theorem rdOf_encU (imm : BitVec 20) (rd : Reg) (slot : BitVec 5) :
    rdOf (encU imm rd slot) = rd := by
  unfold rdOf encU; ext i hi
  simp only [BitVec.getElem_extractLsb', BitVec.getLsbD_append]; grind

@[simp] theorem uImmOf_encU (imm : BitVec 20) (rd : Reg) (slot : BitVec 5) :
    uImmOf (encU imm rd slot) = imm := by
  unfold uImmOf encU; ext i hi
  simp only [BitVec.getElem_extractLsb', BitVec.getLsbD_append]; grind

/-! ## encJ -/

@[simp] theorem slotOf_encJ (imm : BitVec 21) (rd : Reg) (slot : BitVec 5) :
    slotOf (encJ imm rd slot) = slot := by
  unfold slotOf encJ; ext i hi
  simp only [BitVec.getElem_extractLsb', BitVec.getLsbD_append]; grind

@[simp] theorem rdOf_encJ (imm : BitVec 21) (rd : Reg) (slot : BitVec 5) :
    rdOf (encJ imm rd slot) = rd := by
  unfold rdOf encJ; ext i hi
  simp only [BitVec.getElem_extractLsb', BitVec.getLsbD_append]; grind

@[simp] theorem jImmOf_encJ (imm : BitVec 21) (rd : Reg) (slot : BitVec 5) (h : imm.getLsbD 0 = false) :
    jImmOf (encJ imm rd slot) = imm := by
  unfold jImmOf encJ; ext i hi
  simp only [BitVec.getElem_append, BitVec.getElem_extractLsb', BitVec.getLsbD_append, BitVec.getLsbD_extractLsb']; grind

/-! ## encR4 -/

@[simp] theorem slotOf_encR4 (rs3 rs2 rs1 : Reg) (rm : BitVec 3) (rd : Reg) (slot : BitVec 5) :
    slotOf (encR4 rs3 rs2 rs1 rm rd slot) = slot := by
  unfold slotOf encR4; ext i hi
  simp only [BitVec.getElem_extractLsb', BitVec.getLsbD_append]; grind

@[simp] theorem rdOf_encR4 (rs3 rs2 rs1 : Reg) (rm : BitVec 3) (rd : Reg) (slot : BitVec 5) :
    rdOf (encR4 rs3 rs2 rs1 rm rd slot) = rd := by
  unfold rdOf encR4; ext i hi
  simp only [BitVec.getElem_extractLsb', BitVec.getLsbD_append]; grind

@[simp] theorem funct3Of_encR4 (rs3 rs2 rs1 : Reg) (rm : BitVec 3) (rd : Reg) (slot : BitVec 5) :
    funct3Of (encR4 rs3 rs2 rs1 rm rd slot) = rm := by
  unfold funct3Of encR4; ext i hi
  simp only [BitVec.getElem_extractLsb', BitVec.getLsbD_append]; grind

@[simp] theorem rs1Of_encR4 (rs3 rs2 rs1 : Reg) (rm : BitVec 3) (rd : Reg) (slot : BitVec 5) :
    rs1Of (encR4 rs3 rs2 rs1 rm rd slot) = rs1 := by
  unfold rs1Of encR4; ext i hi
  simp only [BitVec.getElem_extractLsb', BitVec.getLsbD_append]; grind

@[simp] theorem rs2Of_encR4 (rs3 rs2 rs1 : Reg) (rm : BitVec 3) (rd : Reg) (slot : BitVec 5) :
    rs2Of (encR4 rs3 rs2 rs1 rm rd slot) = rs2 := by
  unfold rs2Of encR4; ext i hi
  simp only [BitVec.getElem_extractLsb', BitVec.getLsbD_append]; grind

@[simp] theorem rs3Of_encR4 (rs3 rs2 rs1 : Reg) (rm : BitVec 3) (rd : Reg) (slot : BitVec 5) :
    rs3Of (encR4 rs3 rs2 rs1 rm rd slot) = rs3 := by
  unfold rs3Of encR4; ext i hi
  simp only [BitVec.getElem_extractLsb', BitVec.getLsbD_append]; grind

@[simp] theorem fmtOf_encR4 (rs3 rs2 rs1 : Reg) (rm : BitVec 3) (rd : Reg) (slot : BitVec 5) :
    fmtOf (encR4 rs3 rs2 rs1 rm rd slot) = 0b00#2 := by
  unfold fmtOf encR4; ext i hi
  simp only [BitVec.getElem_extractLsb', BitVec.getLsbD_append]; grind

/-! ## encAmo -/

@[simp] theorem slotOf_encAmo (f5 : BitVec 5) (aq rl : BitVec 1) (rs2 rs1 rd : Reg) :
    slotOf (encAmo f5 aq rl rs2 rs1 rd) = 0b01011#5 := by
  unfold slotOf encAmo; ext i hi
  simp only [BitVec.getElem_extractLsb', BitVec.getLsbD_append]; grind

@[simp] theorem rdOf_encAmo (f5 : BitVec 5) (aq rl : BitVec 1) (rs2 rs1 rd : Reg) :
    rdOf (encAmo f5 aq rl rs2 rs1 rd) = rd := by
  unfold rdOf encAmo; ext i hi
  simp only [BitVec.getElem_extractLsb', BitVec.getLsbD_append]; grind

@[simp] theorem funct3Of_encAmo (f5 : BitVec 5) (aq rl : BitVec 1) (rs2 rs1 rd : Reg) :
    funct3Of (encAmo f5 aq rl rs2 rs1 rd) = 0b010#3 := by
  unfold funct3Of encAmo; ext i hi
  simp only [BitVec.getElem_extractLsb', BitVec.getLsbD_append]; grind

@[simp] theorem rs1Of_encAmo (f5 : BitVec 5) (aq rl : BitVec 1) (rs2 rs1 rd : Reg) :
    rs1Of (encAmo f5 aq rl rs2 rs1 rd) = rs1 := by
  unfold rs1Of encAmo; ext i hi
  simp only [BitVec.getElem_extractLsb', BitVec.getLsbD_append]; grind

@[simp] theorem rs2Of_encAmo (f5 : BitVec 5) (aq rl : BitVec 1) (rs2 rs1 rd : Reg) :
    rs2Of (encAmo f5 aq rl rs2 rs1 rd) = rs2 := by
  unfold rs2Of encAmo; ext i hi
  simp only [BitVec.getElem_extractLsb', BitVec.getLsbD_append]; grind

@[simp] theorem rs3Of_encAmo (f5 : BitVec 5) (aq rl : BitVec 1) (rs2 rs1 rd : Reg) :
    rs3Of (encAmo f5 aq rl rs2 rs1 rd) = f5 := by
  unfold rs3Of encAmo; ext i hi
  simp only [BitVec.getElem_extractLsb', BitVec.getLsbD_append]; grind

@[simp] theorem aqOf_encAmo (f5 : BitVec 5) (aq rl : BitVec 1) (rs2 rs1 rd : Reg) :
    aqOf (encAmo f5 aq rl rs2 rs1 rd) = aq := by
  unfold aqOf encAmo; ext i hi
  simp only [BitVec.getElem_extractLsb', BitVec.getLsbD_append]; grind

@[simp] theorem rlOf_encAmo (f5 : BitVec 5) (aq rl : BitVec 1) (rs2 rs1 rd : Reg) :
    rlOf (encAmo f5 aq rl rs2 rs1 rd) = rl := by
  unfold rlOf encAmo; ext i hi
  simp only [BitVec.getElem_extractLsb', BitVec.getLsbD_append]; grind

/-! ## encCall -/

@[simp] theorem slotOf_encCall (imm : BitVec 12) (rs1 rd : Reg) (lo : BitVec 2) :
    slotOf (encCall imm rs1 rd lo) = 0b11100#5 := by
  unfold slotOf encCall; ext i hi
  simp only [BitVec.getElem_extractLsb', BitVec.getLsbD_append]; grind

@[simp] theorem rdOf_encCall (imm : BitVec 12) (rs1 rd : Reg) (lo : BitVec 2) :
    rdOf (encCall imm rs1 rd lo) = rd := by
  unfold rdOf encCall; ext i hi
  simp only [BitVec.getElem_extractLsb', BitVec.getLsbD_append]; grind

@[simp] theorem funct3Of_encCall (imm : BitVec 12) (rs1 rd : Reg) (lo : BitVec 2) :
    funct3Of (encCall imm rs1 rd lo) = 0b000#3 := by
  unfold funct3Of encCall; ext i hi
  simp only [BitVec.getElem_extractLsb', BitVec.getLsbD_append]; grind

@[simp] theorem rs1Of_encCall (imm : BitVec 12) (rs1 rd : Reg) (lo : BitVec 2) :
    rs1Of (encCall imm rs1 rd lo) = rs1 := by
  unfold rs1Of encCall; ext i hi
  simp only [BitVec.getElem_extractLsb', BitVec.getLsbD_append]; grind

@[simp] theorem iImmOf_encCall (imm : BitVec 12) (rs1 rd : Reg) (lo : BitVec 2) :
    iImmOf (encCall imm rs1 rd lo) = imm := by
  unfold iImmOf encCall; ext i hi
  simp only [BitVec.getElem_extractLsb', BitVec.getLsbD_append]; grind

@[simp] theorem lowOf_encCall (imm : BitVec 12) (rs1 rd : Reg) (lo : BitVec 2) :
    lowOf (encCall imm rs1 rd lo) = lo := by
  unfold lowOf encCall; ext i hi
  simp only [BitVec.getElem_extractLsb', BitVec.getLsbD_append]; grind

/-! ## The immediate shifts and FENCE: the fields inside `funct7` and the immediate -/

theorem bit30Of_encR_shift (b31 c : BitVec 1) (b29 : BitVec 5) (rs2 rs1 : Reg) (f3 : BitVec 3) (rd : Reg) (slot : BitVec 5) :
    bit30Of (encR (b31 ++ c ++ b29) rs2 rs1 f3 rd slot) = c ∧
      (encR (b31 ++ c ++ b29) rs2 rs1 f3 rd slot).extractLsb' 31 1 = b31 ∧
      (encR (b31 ++ c ++ b29) rs2 rs1 f3 rd slot).extractLsb' 25 5 = b29 := by
  refine ⟨?_, ?_, ?_⟩ <;> (try unfold bit30Of) <;> unfold encR <;> ext i hi <;>
    simp only [BitVec.getElem_extractLsb', BitVec.getLsbD_append] <;> grind

theorem fenceFields_encI (fm pred succ : BitVec 4) (rs1 : Reg) (f3 : BitVec 3) (rd : Reg) (slot : BitVec 5) :
    (encI (fm ++ pred ++ succ) rs1 f3 rd slot).extractLsb' 20 4 = succ ∧
      (encI (fm ++ pred ++ succ) rs1 f3 rd slot).extractLsb' 24 4 = pred ∧
      (encI (fm ++ pred ++ succ) rs1 f3 rd slot).extractLsb' 28 4 = fm := by
  refine ⟨?_, ?_, ?_⟩ <;> unfold encI <;> ext i hi <;>
    simp only [BitVec.getElem_extractLsb', BitVec.getLsbD_append] <;> grind

/-! ## A word put together again from its fields, with `inst[1:0] = 11` -/

theorem encR_fields (w : Word) :
    encR (funct7Of w) (rs2Of w) (rs1Of w) (funct3Of w) (rdOf w) (slotOf w) = w ||| 3#32 := by
  unfold encR funct7Of rs2Of rs1Of funct3Of rdOf slotOf
  ext i hi
  simp only [BitVec.getElem_append, BitVec.getElem_extractLsb', BitVec.getElem_or]
  interval_cases i <;> simp [BitVec.getLsbD_eq_getElem]

theorem encI_fields (w : Word) : encI (iImmOf w) (rs1Of w) (funct3Of w) (rdOf w) (slotOf w) = w ||| 3#32 := by
  unfold encI iImmOf rs1Of funct3Of rdOf slotOf
  ext i hi
  simp only [BitVec.getElem_append, BitVec.getElem_extractLsb', BitVec.getElem_or]
  interval_cases i <;> simp [BitVec.getLsbD_eq_getElem]

theorem encS_fields (w : Word) : encS (sImmOf w) (rs2Of w) (rs1Of w) (funct3Of w) (slotOf w) = w ||| 3#32 := by
  unfold encS sImmOf rs2Of rs1Of funct3Of slotOf
  ext i hi
  simp only [BitVec.getElem_append, BitVec.getElem_extractLsb', BitVec.getElem_or, BitVec.getLsbD_append,
    BitVec.getLsbD_extractLsb']
  interval_cases i <;> simp [BitVec.getLsbD_eq_getElem]

theorem encB_fields (w : Word) : encB (bImmOf w) (rs2Of w) (rs1Of w) (funct3Of w) (slotOf w) = w ||| 3#32 := by
  unfold encB bImmOf rs2Of rs1Of funct3Of slotOf
  ext i hi
  simp only [BitVec.getElem_append, BitVec.getElem_extractLsb', BitVec.getElem_or, BitVec.getLsbD_append,
    BitVec.getLsbD_extractLsb']
  interval_cases i <;> simp [BitVec.getLsbD_eq_getElem]

theorem encU_fields (w : Word) : encU (uImmOf w) (rdOf w) (slotOf w) = w ||| 3#32 := by
  unfold encU uImmOf rdOf slotOf
  ext i hi
  simp only [BitVec.getElem_append, BitVec.getElem_extractLsb', BitVec.getElem_or]
  interval_cases i <;> simp [BitVec.getLsbD_eq_getElem]

theorem encJ_fields (w : Word) : encJ (jImmOf w) (rdOf w) (slotOf w) = w ||| 3#32 := by
  unfold encJ jImmOf rdOf slotOf
  ext i hi
  simp only [BitVec.getElem_append, BitVec.getElem_extractLsb', BitVec.getElem_or, BitVec.getLsbD_append,
    BitVec.getLsbD_extractLsb']
  interval_cases i <;> simp [BitVec.getLsbD_eq_getElem]

theorem encR4_fields (w : Word) (h : fmtOf w = 0b00#2) :
    encR4 (rs3Of w) (rs2Of w) (rs1Of w) (funct3Of w) (rdOf w) (slotOf w) = w ||| 3#32 := by
  unfold encR4
  rw [← h]
  unfold rs3Of fmtOf rs2Of rs1Of funct3Of rdOf slotOf
  ext i hi
  simp only [BitVec.getElem_append, BitVec.getElem_extractLsb', BitVec.getElem_or]
  interval_cases i <;> simp [BitVec.getLsbD_eq_getElem]

theorem encAmo_fields (w : Word) (hs : slotOf w = 0b01011#5) (hf : funct3Of w = 0b010#3) :
    encAmo (rs3Of w) (aqOf w) (rlOf w) (rs2Of w) (rs1Of w) (rdOf w) = w ||| 3#32 := by
  unfold encAmo
  rw [← hs, ← hf]
  unfold rs3Of aqOf rlOf rs2Of rs1Of funct3Of rdOf slotOf
  ext i hi
  simp only [BitVec.getElem_append, BitVec.getElem_extractLsb', BitVec.getElem_or]
  interval_cases i <;> simp [BitVec.getLsbD_eq_getElem]

/-- ECALL and EBREAK keep their own low bits. -/
theorem encCall_fields (w : Word) (hs : slotOf w = 0b11100#5) (hf : funct3Of w = 0b000#3) :
    encCall (iImmOf w) (rs1Of w) (rdOf w) (lowOf w) = w := by
  unfold encCall
  rw [← hs, ← hf]
  unfold iImmOf rs1Of funct3Of rdOf slotOf lowOf
  ext i hi
  simp only [BitVec.getElem_append, BitVec.getElem_extractLsb']
  interval_cases i <;> simp [BitVec.getLsbD_eq_getElem]

theorem shiftFields (w : Word) : w.extractLsb' 31 1 ++ bit30Of w ++ w.extractLsb' 25 5 = funct7Of w := by
  unfold bit30Of funct7Of
  ext i hi
  simp only [BitVec.getElem_append, BitVec.getElem_extractLsb']
  interval_cases i <;> simp [BitVec.getLsbD_eq_getElem]

theorem fenceFields (w : Word) : w.extractLsb' 28 4 ++ w.extractLsb' 24 4 ++ w.extractLsb' 20 4 = iImmOf w := by
  unfold iImmOf
  ext i hi
  simp only [BitVec.getElem_append, BitVec.getElem_extractLsb']
  interval_cases i <;> simp [BitVec.getLsbD_eq_getElem]

/-- The offsets the extractors give are even. -/
theorem evenOffset_bImmOf (w : Word) : evenOffset (bImmOf w) = true := by
  unfold evenOffset bImmOf
  rw [BitVec.getLsbD_append]; simp
theorem evenOffset_jImmOf (w : Word) : evenOffset (jImmOf w) = true := by
  unfold evenOffset jImmOf
  rw [BitVec.getLsbD_append]; simp

/-! ## withRm: replacing `inst[14:12]` changes no other field (R120) -/

@[simp] theorem slotOf_withRm (w : Word) (rm : BitVec 3) : slotOf (withRm w rm) = slotOf w := by
  unfold slotOf withRm; ext i hi
  simp only [BitVec.getElem_extractLsb', BitVec.getLsbD_append, BitVec.getLsbD_extractLsb']; grind

@[simp] theorem lowOf_withRm (w : Word) (rm : BitVec 3) : lowOf (withRm w rm) = lowOf w := by
  unfold lowOf withRm; ext i hi
  simp only [BitVec.getElem_extractLsb', BitVec.getLsbD_append, BitVec.getLsbD_extractLsb']; grind

@[simp] theorem rdOf_withRm (w : Word) (rm : BitVec 3) : rdOf (withRm w rm) = rdOf w := by
  unfold rdOf withRm; ext i hi
  simp only [BitVec.getElem_extractLsb', BitVec.getLsbD_append, BitVec.getLsbD_extractLsb']; grind

@[simp] theorem rs1Of_withRm (w : Word) (rm : BitVec 3) : rs1Of (withRm w rm) = rs1Of w := by
  unfold rs1Of withRm; ext i hi
  simp only [BitVec.getElem_extractLsb', BitVec.getLsbD_append, BitVec.getLsbD_extractLsb']; grind

@[simp] theorem rs2Of_withRm (w : Word) (rm : BitVec 3) : rs2Of (withRm w rm) = rs2Of w := by
  unfold rs2Of withRm; ext i hi
  simp only [BitVec.getElem_extractLsb', BitVec.getLsbD_append, BitVec.getLsbD_extractLsb']; grind

@[simp] theorem rs3Of_withRm (w : Word) (rm : BitVec 3) : rs3Of (withRm w rm) = rs3Of w := by
  unfold rs3Of withRm; ext i hi
  simp only [BitVec.getElem_extractLsb', BitVec.getLsbD_append, BitVec.getLsbD_extractLsb']; grind

@[simp] theorem fmtOf_withRm (w : Word) (rm : BitVec 3) : fmtOf (withRm w rm) = fmtOf w := by
  unfold fmtOf withRm; ext i hi
  simp only [BitVec.getElem_extractLsb', BitVec.getLsbD_append, BitVec.getLsbD_extractLsb']; grind

@[simp] theorem funct7Of_withRm (w : Word) (rm : BitVec 3) : funct7Of (withRm w rm) = funct7Of w := by
  unfold funct7Of withRm; ext i hi
  simp only [BitVec.getElem_extractLsb', BitVec.getLsbD_append, BitVec.getLsbD_extractLsb']; grind

@[simp] theorem funct3Of_withRm (w : Word) (rm : BitVec 3) : funct3Of (withRm w rm) = rm := by
  unfold funct3Of withRm; ext i hi
  simp only [BitVec.getElem_extractLsb', BitVec.getLsbD_append, BitVec.getLsbD_extractLsb']; grind

end Sys2Proof
end

