-- ==== Sys2Proof/Laws/State.lean ====
section
/-! SUPPORT. One lemma for each field of the state after each update, so that no later proof unfolds a record update; then the
same for reading a register. -/

namespace Sys2Proof.Machine

variable (s : State)

@[simp] theorem State.writeX_params (r : Reg) (v : Word) : (s.writeX r v).params = s.params := by unfold State.writeX; split <;> rfl
@[simp] theorem State.writeX_userdata (r : Reg) (v : Word) : (s.writeX r v).userdata = s.userdata := by unfold State.writeX; split <;> rfl
@[simp] theorem State.writeX_pc (r : Reg) (v : Word) : (s.writeX r v).pc = s.pc := by unfold State.writeX; split <;> rfl
@[simp] theorem State.writeX_exc (r : Reg) (v : Word) : (s.writeX r v).exc = s.exc := by unfold State.writeX; split <;> rfl
@[simp] theorem State.writeX_csrCycle (r : Reg) (v : Word) : (s.writeX r v).csrCycle = s.csrCycle := by unfold State.writeX; split <;> rfl
@[simp] theorem State.writeX_csrMstatus (r : Reg) (v : Word) : (s.writeX r v).csrMstatus = s.csrMstatus := by unfold State.writeX; split <;> rfl
@[simp] theorem State.writeX_csrFcsr (r : Reg) (v : Word) : (s.writeX r v).csrFcsr = s.csrFcsr := by unfold State.writeX; split <;> rfl
@[simp] theorem State.writeX_f (r : Reg) (v : Word) : (s.writeX r v).f = s.f := by unfold State.writeX; split <;> rfl
@[simp] theorem State.writeX_bus (r : Reg) (v : Word) : (s.writeX r v).bus = s.bus := by unfold State.writeX; split <;> rfl
@[simp] theorem State.writeX_freeCount (r : Reg) (v : Word) : (s.writeX r v).freeCount = s.freeCount := by unfold State.writeX; split <;> rfl

@[simp] theorem State.writeF_params (r : Reg) (v : Word) : (s.writeF r v).params = s.params := rfl
@[simp] theorem State.writeF_userdata (r : Reg) (v : Word) : (s.writeF r v).userdata = s.userdata := rfl
@[simp] theorem State.writeF_x (r : Reg) (v : Word) : (s.writeF r v).x = s.x := rfl
@[simp] theorem State.writeF_pc (r : Reg) (v : Word) : (s.writeF r v).pc = s.pc := rfl
@[simp] theorem State.writeF_exc (r : Reg) (v : Word) : (s.writeF r v).exc = s.exc := rfl
@[simp] theorem State.writeF_csrCycle (r : Reg) (v : Word) : (s.writeF r v).csrCycle = s.csrCycle := rfl
@[simp] theorem State.writeF_csrMstatus (r : Reg) (v : Word) : (s.writeF r v).csrMstatus = s.csrMstatus := rfl
@[simp] theorem State.writeF_csrFcsr (r : Reg) (v : Word) : (s.writeF r v).csrFcsr = s.csrFcsr := rfl
@[simp] theorem State.writeF_bus (r : Reg) (v : Word) : (s.writeF r v).bus = s.bus := rfl
@[simp] theorem State.writeF_freeCount (r : Reg) (v : Word) : (s.writeF r v).freeCount = s.freeCount := rfl

@[simp] theorem State.setPc_params (t : Word) : (s.setPc t).params = s.params := rfl
@[simp] theorem State.setPc_userdata (t : Word) : (s.setPc t).userdata = s.userdata := rfl
@[simp] theorem State.setPc_x (t : Word) : (s.setPc t).x = s.x := rfl
@[simp] theorem State.setPc_pc (t : Word) : (s.setPc t).pc = t := rfl
@[simp] theorem State.setPc_exc (t : Word) : (s.setPc t).exc = s.exc := rfl
@[simp] theorem State.setPc_csrCycle (t : Word) : (s.setPc t).csrCycle = s.csrCycle := rfl
@[simp] theorem State.setPc_csrMstatus (t : Word) : (s.setPc t).csrMstatus = s.csrMstatus := rfl
@[simp] theorem State.setPc_csrFcsr (t : Word) : (s.setPc t).csrFcsr = s.csrFcsr := rfl
@[simp] theorem State.setPc_f (t : Word) : (s.setPc t).f = s.f := rfl
@[simp] theorem State.setPc_bus (t : Word) : (s.setPc t).bus = s.bus := rfl
@[simp] theorem State.setPc_freeCount (t : Word) : (s.setPc t).freeCount = s.freeCount := rfl

@[simp] theorem State.advance_params : s.advance.params = s.params := rfl
@[simp] theorem State.advance_userdata : s.advance.userdata = s.userdata := rfl
@[simp] theorem State.advance_x : s.advance.x = s.x := rfl
@[simp] theorem State.advance_pc : s.advance.pc = s.pc + 4#32 := rfl
@[simp] theorem State.advance_exc : s.advance.exc = s.exc := rfl
@[simp] theorem State.advance_csrCycle : s.advance.csrCycle = s.csrCycle := rfl
@[simp] theorem State.advance_csrMstatus : s.advance.csrMstatus = s.csrMstatus := rfl
@[simp] theorem State.advance_csrFcsr : s.advance.csrFcsr = s.csrFcsr := rfl
@[simp] theorem State.advance_f : s.advance.f = s.f := rfl
@[simp] theorem State.advance_bus : s.advance.bus = s.bus := rfl
@[simp] theorem State.advance_freeCount : s.advance.freeCount = s.freeCount := rfl

@[simp] theorem State.raise_params (k : ExceptionKind) : (s.raise k).params = s.params := rfl
@[simp] theorem State.raise_userdata (k : ExceptionKind) : (s.raise k).userdata = s.userdata := rfl
@[simp] theorem State.raise_x (k : ExceptionKind) : (s.raise k).x = s.x := rfl
@[simp] theorem State.raise_pc (k : ExceptionKind) : (s.raise k).pc = s.pc := rfl
@[simp] theorem State.raise_exc (k : ExceptionKind) : (s.raise k).exc = k := rfl
@[simp] theorem State.raise_csrCycle (k : ExceptionKind) : (s.raise k).csrCycle = s.csrCycle := rfl
@[simp] theorem State.raise_csrMstatus (k : ExceptionKind) : (s.raise k).csrMstatus = s.csrMstatus := rfl
@[simp] theorem State.raise_csrFcsr (k : ExceptionKind) : (s.raise k).csrFcsr = s.csrFcsr := rfl
@[simp] theorem State.raise_f (k : ExceptionKind) : (s.raise k).f = s.f := rfl
@[simp] theorem State.raise_bus (k : ExceptionKind) : (s.raise k).bus = s.bus := rfl
@[simp] theorem State.raise_freeCount (k : ExceptionKind) : (s.raise k).freeCount = s.freeCount := rfl

@[simp] theorem State.jumpTo_params (t : Word) : (s.jumpTo t).params = s.params := by unfold State.jumpTo; split <;> rfl
@[simp] theorem State.jumpTo_userdata (t : Word) : (s.jumpTo t).userdata = s.userdata := by unfold State.jumpTo; split <;> rfl
@[simp] theorem State.jumpTo_x (t : Word) : (s.jumpTo t).x = s.x := by unfold State.jumpTo; split <;> rfl
@[simp] theorem State.jumpTo_pc (t : Word) : (s.jumpTo t).pc = t := by unfold State.jumpTo; split <;> rfl
@[simp] theorem State.jumpTo_exc (t : Word) : (s.jumpTo t).exc = if t.extractLsb' 0 2 = 0#2 then s.exc else .instMisaligned := by unfold State.jumpTo; split <;> rfl
@[simp] theorem State.jumpTo_csrCycle (t : Word) : (s.jumpTo t).csrCycle = s.csrCycle := by unfold State.jumpTo; split <;> rfl
@[simp] theorem State.jumpTo_csrMstatus (t : Word) : (s.jumpTo t).csrMstatus = s.csrMstatus := by unfold State.jumpTo; split <;> rfl
@[simp] theorem State.jumpTo_csrFcsr (t : Word) : (s.jumpTo t).csrFcsr = s.csrFcsr := by unfold State.jumpTo; split <;> rfl
@[simp] theorem State.jumpTo_f (t : Word) : (s.jumpTo t).f = s.f := by unfold State.jumpTo; split <;> rfl
@[simp] theorem State.jumpTo_bus (t : Word) : (s.jumpTo t).bus = s.bus := by unfold State.jumpTo; split <;> rfl
@[simp] theorem State.jumpTo_freeCount (t : Word) : (s.jumpTo t).freeCount = s.freeCount := by unfold State.jumpTo; split <;> rfl

@[simp] theorem State.illegal_params : s.illegal.params = s.params := rfl
@[simp] theorem State.illegal_userdata : s.illegal.userdata = s.userdata := rfl
@[simp] theorem State.illegal_x : s.illegal.x = s.x := rfl
@[simp] theorem State.illegal_pc : s.illegal.pc = s.pc := rfl
@[simp] theorem State.illegal_exc : s.illegal.exc = .illegalInst := rfl
@[simp] theorem State.illegal_csrCycle : s.illegal.csrCycle = s.csrCycle := rfl
@[simp] theorem State.illegal_csrMstatus : s.illegal.csrMstatus = s.csrMstatus := rfl
@[simp] theorem State.illegal_csrFcsr : s.illegal.csrFcsr = s.csrFcsr := rfl
@[simp] theorem State.illegal_f : s.illegal.f = s.f := rfl
@[simp] theorem State.illegal_bus : s.illegal.bus = s.bus := rfl
@[simp] theorem State.illegal_freeCount : s.illegal.freeCount = s.freeCount := rfl

@[simp] theorem State.resume_params (t : Word) : (s.resume t).params = s.params := rfl
@[simp] theorem State.resume_userdata (t : Word) : (s.resume t).userdata = s.userdata := rfl
@[simp] theorem State.resume_x (t : Word) : (s.resume t).x = s.x := rfl
@[simp] theorem State.resume_pc (t : Word) : (s.resume t).pc = t := rfl
@[simp] theorem State.resume_exc (t : Word) : (s.resume t).exc = .none := rfl
@[simp] theorem State.resume_csrCycle (t : Word) : (s.resume t).csrCycle = s.csrCycle := rfl
@[simp] theorem State.resume_csrMstatus (t : Word) : (s.resume t).csrMstatus = s.csrMstatus := rfl
@[simp] theorem State.resume_csrFcsr (t : Word) : (s.resume t).csrFcsr = s.csrFcsr := rfl
@[simp] theorem State.resume_f (t : Word) : (s.resume t).f = s.f := rfl
@[simp] theorem State.resume_bus (t : Word) : (s.resume t).bus = s.bus := rfl
@[simp] theorem State.resume_freeCount (t : Word) : (s.resume t).freeCount = s.freeCount := rfl

@[simp] theorem State.retire_params : s.retire.params = s.params := by unfold State.retire; split <;> rfl
@[simp] theorem State.retire_userdata : s.retire.userdata = s.userdata := by unfold State.retire; split <;> rfl
@[simp] theorem State.retire_x : s.retire.x = s.x := by unfold State.retire; split <;> rfl
@[simp] theorem State.retire_pc : s.retire.pc = s.pc := by unfold State.retire; split <;> rfl
@[simp] theorem State.retire_exc : s.retire.exc = s.exc := by unfold State.retire; split <;> rfl
@[simp] theorem State.retire_csrCycle : s.retire.csrCycle = if s.csrCycle = BitVec.allOnes 64 then Config.cyclePastMax s.freeCount else s.csrCycle + 1#64 := by unfold State.retire; split <;> rfl
@[simp] theorem State.retire_csrMstatus : s.retire.csrMstatus = s.csrMstatus := by unfold State.retire; split <;> rfl
@[simp] theorem State.retire_csrFcsr : s.retire.csrFcsr = s.csrFcsr := by unfold State.retire; split <;> rfl
@[simp] theorem State.retire_f : s.retire.f = s.f := by unfold State.retire; split <;> rfl
@[simp] theorem State.retire_bus : s.retire.bus = s.bus := by unfold State.retire; split <;> rfl
@[simp] theorem State.retire_freeCount : s.retire.freeCount = if s.csrCycle = BitVec.allOnes 64 then s.freeCount + 1 else s.freeCount := by unfold State.retire; split <;> rfl

@[simp] theorem State.writeCsr_params (a : BitVec 12) (v : Word) : (s.writeCsr a v).params = s.params := by unfold State.writeCsr; split <;> rfl
@[simp] theorem State.writeCsr_userdata (a : BitVec 12) (v : Word) : (s.writeCsr a v).userdata = s.userdata := by unfold State.writeCsr; split <;> rfl
@[simp] theorem State.writeCsr_x (a : BitVec 12) (v : Word) : (s.writeCsr a v).x = s.x := by unfold State.writeCsr; split <;> rfl
@[simp] theorem State.writeCsr_pc (a : BitVec 12) (v : Word) : (s.writeCsr a v).pc = s.pc := by unfold State.writeCsr; split <;> rfl
@[simp] theorem State.writeCsr_exc (a : BitVec 12) (v : Word) : (s.writeCsr a v).exc = s.exc := by unfold State.writeCsr; split <;> rfl
@[simp] theorem State.writeCsr_csrCycle (a : BitVec 12) (v : Word) : (s.writeCsr a v).csrCycle = s.csrCycle := by unfold State.writeCsr; split <;> rfl
@[simp] theorem State.writeCsr_csrMstatus (a : BitVec 12) (v : Word) : (s.writeCsr a v).csrMstatus = if a = 0x300#12 then v else s.csrMstatus := by unfold State.writeCsr; split <;> rfl
@[simp] theorem State.writeCsr_csrFcsr (a : BitVec 12) (v : Word) : (s.writeCsr a v).csrFcsr = s.csrFcsr := by unfold State.writeCsr; split <;> rfl
@[simp] theorem State.writeCsr_f (a : BitVec 12) (v : Word) : (s.writeCsr a v).f = s.f := by unfold State.writeCsr; split <;> rfl
@[simp] theorem State.writeCsr_bus (a : BitVec 12) (v : Word) : (s.writeCsr a v).bus = s.bus := by unfold State.writeCsr; split <;> rfl
@[simp] theorem State.writeCsr_freeCount (a : BitVec 12) (v : Word) : (s.writeCsr a v).freeCount = s.freeCount := by unfold State.writeCsr; split <;> rfl

@[simp] theorem State.iFetch_params : s.iFetch.2.params = s.params := rfl
@[simp] theorem State.iFetch_userdata : s.iFetch.2.userdata = s.userdata := rfl
@[simp] theorem State.iFetch_x : s.iFetch.2.x = s.x := rfl
@[simp] theorem State.iFetch_pc : s.iFetch.2.pc = s.pc := rfl
@[simp] theorem State.iFetch_exc : s.iFetch.2.exc = s.bus.nextReply.latched s.exc := rfl
@[simp] theorem State.iFetch_csrCycle : s.iFetch.2.csrCycle = s.csrCycle := rfl
@[simp] theorem State.iFetch_csrMstatus : s.iFetch.2.csrMstatus = s.csrMstatus := rfl
@[simp] theorem State.iFetch_csrFcsr : s.iFetch.2.csrFcsr = s.csrFcsr := rfl
@[simp] theorem State.iFetch_f : s.iFetch.2.f = s.f := rfl
@[simp] theorem State.iFetch_bus : s.iFetch.2.bus = s.bus.afterRead (.ifetch s.pc (s.bus.answer s.pc .word)) := rfl
@[simp] theorem State.iFetch_freeCount : s.iFetch.2.freeCount = s.freeCount := rfl

@[simp] theorem State.memRead_params (a : Word) (n : Width) : (s.memRead a n).2.params = s.params := rfl
@[simp] theorem State.memRead_userdata (a : Word) (n : Width) : (s.memRead a n).2.userdata = s.userdata := rfl
@[simp] theorem State.memRead_x (a : Word) (n : Width) : (s.memRead a n).2.x = s.x := rfl
@[simp] theorem State.memRead_pc (a : Word) (n : Width) : (s.memRead a n).2.pc = s.pc := rfl
@[simp] theorem State.memRead_exc (a : Word) (n : Width) : (s.memRead a n).2.exc = s.bus.nextReply.latched s.exc := rfl
@[simp] theorem State.memRead_csrCycle (a : Word) (n : Width) : (s.memRead a n).2.csrCycle = s.csrCycle := rfl
@[simp] theorem State.memRead_csrMstatus (a : Word) (n : Width) : (s.memRead a n).2.csrMstatus = s.csrMstatus := rfl
@[simp] theorem State.memRead_csrFcsr (a : Word) (n : Width) : (s.memRead a n).2.csrFcsr = s.csrFcsr := rfl
@[simp] theorem State.memRead_f (a : Word) (n : Width) : (s.memRead a n).2.f = s.f := rfl
@[simp] theorem State.memRead_bus (a : Word) (n : Width) : (s.memRead a n).2.bus = s.bus.afterRead (.read a n (s.bus.answer a n)) := rfl
@[simp] theorem State.memRead_freeCount (a : Word) (n : Width) : (s.memRead a n).2.freeCount = s.freeCount := rfl

@[simp] theorem State.memWrite_params (a : Word) (n : Width) (v : Word) : (s.memWrite a n v).params = s.params := rfl
@[simp] theorem State.memWrite_userdata (a : Word) (n : Width) (v : Word) : (s.memWrite a n v).userdata = s.userdata := rfl
@[simp] theorem State.memWrite_x (a : Word) (n : Width) (v : Word) : (s.memWrite a n v).x = s.x := rfl
@[simp] theorem State.memWrite_pc (a : Word) (n : Width) (v : Word) : (s.memWrite a n v).pc = s.pc := rfl
@[simp] theorem State.memWrite_exc (a : Word) (n : Width) (v : Word) : (s.memWrite a n v).exc = s.bus.nextReply.latched s.exc := rfl
@[simp] theorem State.memWrite_csrCycle (a : Word) (n : Width) (v : Word) : (s.memWrite a n v).csrCycle = s.csrCycle := rfl
@[simp] theorem State.memWrite_csrMstatus (a : Word) (n : Width) (v : Word) : (s.memWrite a n v).csrMstatus = s.csrMstatus := rfl
@[simp] theorem State.memWrite_csrFcsr (a : Word) (n : Width) (v : Word) : (s.memWrite a n v).csrFcsr = s.csrFcsr := rfl
@[simp] theorem State.memWrite_f (a : Word) (n : Width) (v : Word) : (s.memWrite a n v).f = s.f := rfl
@[simp] theorem State.memWrite_freeCount (a : Word) (n : Width) (v : Word) : (s.memWrite a n v).freeCount = s.freeCount := rfl

@[simp] theorem State.finishX_params (r : Reg) (v : Word) : (s.finishX r v).params = s.params := by simp [State.finishX]
@[simp] theorem State.finishX_userdata (r : Reg) (v : Word) : (s.finishX r v).userdata = s.userdata := by simp [State.finishX]
@[simp] theorem State.finishX_x (r : Reg) (v : Word) : (s.finishX r v).x = (s.writeX r v).x := by simp [State.finishX]
@[simp] theorem State.finishX_pc (r : Reg) (v : Word) : (s.finishX r v).pc = s.pc + 4#32 := by simp [State.finishX]
@[simp] theorem State.finishX_exc (r : Reg) (v : Word) : (s.finishX r v).exc = s.exc := by simp [State.finishX]
@[simp] theorem State.finishX_csrCycle (r : Reg) (v : Word) : (s.finishX r v).csrCycle = s.csrCycle := by simp [State.finishX]
@[simp] theorem State.finishX_csrMstatus (r : Reg) (v : Word) : (s.finishX r v).csrMstatus = s.csrMstatus := by simp [State.finishX]
@[simp] theorem State.finishX_csrFcsr (r : Reg) (v : Word) : (s.finishX r v).csrFcsr = s.csrFcsr := by simp [State.finishX]
@[simp] theorem State.finishX_f (r : Reg) (v : Word) : (s.finishX r v).f = s.f := by simp [State.finishX]
@[simp] theorem State.finishX_bus (r : Reg) (v : Word) : (s.finishX r v).bus = s.bus := by simp [State.finishX]
@[simp] theorem State.finishX_freeCount (r : Reg) (v : Word) : (s.finishX r v).freeCount = s.freeCount := by simp [State.finishX]

@[simp] theorem State.finishF_params (r : Reg) (v : Word) : (s.finishF r v).params = s.params := by simp [State.finishF]
@[simp] theorem State.finishF_userdata (r : Reg) (v : Word) : (s.finishF r v).userdata = s.userdata := by simp [State.finishF]
@[simp] theorem State.finishF_x (r : Reg) (v : Word) : (s.finishF r v).x = s.x := by simp [State.finishF]
@[simp] theorem State.finishF_pc (r : Reg) (v : Word) : (s.finishF r v).pc = s.pc + 4#32 := by simp [State.finishF]
@[simp] theorem State.finishF_exc (r : Reg) (v : Word) : (s.finishF r v).exc = s.exc := by simp [State.finishF]
@[simp] theorem State.finishF_csrCycle (r : Reg) (v : Word) : (s.finishF r v).csrCycle = s.csrCycle := by simp [State.finishF]
@[simp] theorem State.finishF_csrMstatus (r : Reg) (v : Word) : (s.finishF r v).csrMstatus = s.csrMstatus := by simp [State.finishF]
@[simp] theorem State.finishF_csrFcsr (r : Reg) (v : Word) : (s.finishF r v).csrFcsr = s.csrFcsr := by simp [State.finishF]
@[simp] theorem State.finishF_f (r : Reg) (v : Word) : (s.finishF r v).f = (s.writeF r v).f := by simp [State.finishF]
@[simp] theorem State.finishF_bus (r : Reg) (v : Word) : (s.finishF r v).bus = s.bus := by simp [State.finishF]
@[simp] theorem State.finishF_freeCount (r : Reg) (v : Word) : (s.finishF r v).freeCount = s.freeCount := by simp [State.finishF]

@[simp] theorem State.readF_writeX (r : Reg) (v : Word) (q : Reg) : (s.writeX r v).readF q = s.readF q := by simp [State.readF]
@[simp] theorem State.readX_writeF (r : Reg) (v : Word) (q : Reg) : (s.writeF r v).readX q = s.readX q := by simp [State.readX]
@[simp] theorem State.readX_setPc (t : Word) (q : Reg) : (s.setPc t).readX q = s.readX q := by simp [State.readX]
@[simp] theorem State.readF_setPc (t : Word) (q : Reg) : (s.setPc t).readF q = s.readF q := by simp [State.readF]
@[simp] theorem State.readX_advance (q : Reg) : s.advance.readX q = s.readX q := by simp [State.readX]
@[simp] theorem State.readF_advance (q : Reg) : s.advance.readF q = s.readF q := by simp [State.readF]
@[simp] theorem State.readX_raise (k : ExceptionKind) (q : Reg) : (s.raise k).readX q = s.readX q := by simp [State.readX]
@[simp] theorem State.readF_raise (k : ExceptionKind) (q : Reg) : (s.raise k).readF q = s.readF q := by simp [State.readF]
@[simp] theorem State.readX_jumpTo (t : Word) (q : Reg) : (s.jumpTo t).readX q = s.readX q := by simp [State.readX]
@[simp] theorem State.readF_jumpTo (t : Word) (q : Reg) : (s.jumpTo t).readF q = s.readF q := by simp [State.readF]
@[simp] theorem State.readX_illegal (q : Reg) : s.illegal.readX q = s.readX q := by simp [State.readX]
@[simp] theorem State.readF_illegal (q : Reg) : s.illegal.readF q = s.readF q := by simp [State.readF]
@[simp] theorem State.readX_resume (t : Word) (q : Reg) : (s.resume t).readX q = s.readX q := by simp [State.readX]
@[simp] theorem State.readF_resume (t : Word) (q : Reg) : (s.resume t).readF q = s.readF q := by simp [State.readF]
@[simp] theorem State.readX_retire (q : Reg) : s.retire.readX q = s.readX q := by simp [State.readX]
@[simp] theorem State.readF_retire (q : Reg) : s.retire.readF q = s.readF q := by simp [State.readF]
@[simp] theorem State.readX_writeCsr (a : BitVec 12) (v : Word) (q : Reg) : (s.writeCsr a v).readX q = s.readX q := by simp [State.readX]
@[simp] theorem State.readF_writeCsr (a : BitVec 12) (v : Word) (q : Reg) : (s.writeCsr a v).readF q = s.readF q := by simp [State.readF]
@[simp] theorem State.readX_iFetch (q : Reg) : s.iFetch.2.readX q = s.readX q := by simp [State.readX]
@[simp] theorem State.readF_iFetch (q : Reg) : s.iFetch.2.readF q = s.readF q := by simp [State.readF]
@[simp] theorem State.readX_memRead (a : Word) (n : Width) (q : Reg) : (s.memRead a n).2.readX q = s.readX q := by simp [State.readX]
@[simp] theorem State.readF_memRead (a : Word) (n : Width) (q : Reg) : (s.memRead a n).2.readF q = s.readF q := by simp [State.readF]
@[simp] theorem State.readX_memWrite (a : Word) (n : Width) (v : Word) (q : Reg) : (s.memWrite a n v).readX q = s.readX q := by simp [State.readX]
@[simp] theorem State.readF_memWrite (a : Word) (n : Width) (v : Word) (q : Reg) : (s.memWrite a n v).readF q = s.readF q := by simp [State.readF]
@[simp] theorem State.readF_finishX (r : Reg) (v : Word) (q : Reg) : (s.finishX r v).readF q = s.readF q := by simp [State.readF]
@[simp] theorem State.readX_finishF (r : Reg) (v : Word) (q : Reg) : (s.finishF r v).readX q = s.readX q := by simp [State.readX]

/-- A register read after a write of an integer register (R21). -/
@[simp] theorem State.readX_writeX (r : Reg) (v : Word) (q : Reg) :
    (s.writeX r v).readX q = if q = r ∧ r ≠ 0#5 then v else s.readX q := by
  by_cases hq : q = 0#5 <;> by_cases hr : r = 0#5 <;>
    simp_all [State.readX, State.writeX, Vector.getElem_set, BitVec.toNat_eq, eq_comm]

/-- `x0` reads as zero in every state (R21). -/
@[simp] theorem State.readX_zero : s.readX 0#5 = 0#32 := by simp [State.readX]

/-- A register read after a write of a floating-point register (R31). -/
@[simp] theorem State.readF_writeF (r : Reg) (v : Word) (q : Reg) :
    (s.writeF r v).readF q = if q = r then v else s.readF q := by
  simp [State.readF, State.writeF, Vector.getElem_set, BitVec.toNat_eq, eq_comm]

@[simp] theorem State.readX_finishX (r : Reg) (v : Word) (q : Reg) :
    (s.finishX r v).readX q = if q = r ∧ r ≠ 0#5 then v else s.readX q := by simp [State.finishX]

@[simp] theorem State.readF_finishF (r : Reg) (v : Word) (q : Reg) :
    (s.finishF r v).readF q = if q = r then v else s.readF q := by simp [State.finishF]

/-- `X[0]` itself is kept by a write of any register. -/
@[simp] theorem State.writeX_x_zero (r : Reg) (v : Word) : (s.writeX r v).x[0] = s.x[0] := by
  by_cases hr : r = 0#5
  · simp [State.writeX, hr]
  · have : r.toNat ≠ 0 := fun h => hr (by apply BitVec.eq_of_toNat_eq; simpa using h)
    simp [State.writeX, hr, this]

/-- Advancing the counter inside its range (R28). -/
theorem State.retire_csrCycle_of_ne (h : s.csrCycle ≠ BitVec.allOnes 64) : s.retire.csrCycle = s.csrCycle + 1#64 := by
  rw [State.retire_csrCycle]; exact if_neg h

/-- Each CSR address reads what R40 says. -/
theorem State.readCsr_cases (a : BitVec 12) :
    (a = 0xC00#12 ∧ s.readCsr a = s.csrCycle.extractLsb' 0 32) ∨ (a = 0xC80#12 ∧ s.readCsr a = s.csrCycle.extractLsb' 32 32) ∨
    (a = 0x300#12 ∧ s.readCsr a = s.csrMstatus) ∨ (a = 0x003#12 ∧ s.readCsr a = s.csrFcsr) ∨ s.readCsr a = 0#32 := by
  unfold State.readCsr
  split
  · simp_all
  · split
    · simp_all
    · split
      · simp_all
      · split <;> simp_all

end Sys2Proof.Machine
end

