-- ==== Sys2Proof/Laws/Memory.lean ====
section
/-! SUPPORT. The laws of memory: a byte read after a byte written, the canonical form and that every operation keeps it. -/

namespace Sys2Proof.Machine

/-- A key below every listed one reads as unlisted. -/
theorem Memory.lookup_of_lt {m : Memory} {lo a : Nat} (h : Memory.wfFrom lo m = true) (ha : a < lo) :
    Memory.lookup m a = Memory.unlisted := by
  induction m generalizing lo with
  | nil => rfl
  | cons e rest ih =>
    obtain ⟨k, v⟩ := e
    simp only [Memory.wfFrom, Bool.and_eq_true, decide_eq_true_eq] at h
    have hk : k ≠ a := by omega
    simpa [Memory.lookup, hk] using ih h.2 (by omega)

/-- The canonical form from a key holds from any lower key. -/
theorem Memory.wfFrom_mono {m : Memory} {lo lo' : Nat} (h : Memory.wfFrom lo m = true) (hl : lo' ≤ lo) :
    Memory.wfFrom lo' m = true := by
  cases m with
  | nil => rfl
  | cons e rest =>
    obtain ⟨k, v⟩ := e
    simp only [Memory.wfFrom, Bool.and_eq_true, decide_eq_true_eq] at h ⊢
    exact ⟨⟨⟨by omega, h.1.1.2⟩, h.1.2⟩, h.2⟩

/-- Setting a byte keeps the canonical form. -/
theorem Memory.wfFrom_insert {m : Memory} {lo a : Nat} {b : Byte} (h : Memory.wfFrom lo m = true) (hl : lo ≤ a)
    (ha : a < 2 ^ 32) : Memory.wfFrom lo (m.insert a b) = true := by
  induction m generalizing lo with
  | nil =>
    by_cases hb : b = Memory.unlisted
    · simp [Memory.insert, hb, Memory.wfFrom]
    · simpa [Memory.insert, hb, Memory.wfFrom] using ⟨hl, ha⟩
  | cons e rest ih =>
    obtain ⟨k, v⟩ := e
    simp only [Memory.wfFrom, Bool.and_eq_true, decide_eq_true_eq] at h
    obtain ⟨⟨⟨h1, h2⟩, h3⟩, h4⟩ := h
    unfold Memory.insert
    split
    · split
      · simp only [Memory.wfFrom, Bool.and_eq_true, decide_eq_true_eq]; exact ⟨⟨⟨h1, h2⟩, h3⟩, h4⟩
      · next hlt hb =>
        simp only [Memory.wfFrom, Bool.and_eq_true, decide_eq_true_eq]
        exact ⟨⟨⟨hl, ha⟩, by simpa using hb⟩, ⟨⟨by omega, h2⟩, h3⟩, h4⟩
    · split
      · split
        · exact Memory.wfFrom_mono h4 (by omega)
        · next hlt heq hb =>
          simp only [Memory.wfFrom, Bool.and_eq_true, decide_eq_true_eq]
          exact ⟨⟨⟨hl, ha⟩, by simpa using hb⟩, by rw [heq]; exact h4⟩
      · simp only [Memory.wfFrom, Bool.and_eq_true, decide_eq_true_eq]
        exact ⟨⟨⟨h1, h2⟩, h3⟩, ih h4 (by omega)⟩

/-- The head of a list read at a key. -/
theorem Memory.lookup_cons (k : Nat) (v : Byte) (rest : Memory) (c : Nat) :
    Memory.lookup ((k, v) :: rest) c = if k = c then v else Memory.lookup rest c := rfl

/-- A key looked up after a byte is set. -/
theorem Memory.lookup_insert {m : Memory} {lo : Nat} (a : Nat) (b : Byte) (c : Nat) (h : Memory.wfFrom lo m = true) :
    Memory.lookup (m.insert a b) c = if c = a then b else Memory.lookup m c := by
  induction m generalizing lo with
  | nil =>
    unfold Memory.insert
    by_cases hb : b = Memory.unlisted
    · by_cases hc : c = a <;> simp [hb, Memory.lookup]
    · by_cases hc : c = a
      · simp [hb, hc, Memory.lookup]
      · have : ¬ a = c := fun h => hc h.symm
        simp [hb, hc, this, Memory.lookup]
  | cons e rest ih =>
    obtain ⟨k, v⟩ := e
    simp only [Memory.wfFrom, Bool.and_eq_true, decide_eq_true_eq] at h
    have hlow : ∀ d, d ≤ k → Memory.lookup rest d = Memory.unlisted := fun d hd => Memory.lookup_of_lt h.2 (by omega)
    unfold Memory.insert
    by_cases hlt : a < k
    · by_cases hc : c = a
      · subst hc
        have hk : ¬ k = c := by omega
        by_cases hb : b = Memory.unlisted <;> simp [hlt, hb, Memory.lookup_cons, hk, hlow c (by omega)]
      · have : ¬ a = c := fun h => hc h.symm
        by_cases hb : b = Memory.unlisted <;> simp [hlt, hb, hc, Memory.lookup_cons, this]
    · by_cases heq : a = k
      · subst heq
        by_cases hc : c = a
        · subst hc
          by_cases hb : b = Memory.unlisted <;> simp [hb, Memory.lookup_cons, hlow c (by omega)]
        · have : ¬ a = c := fun h => hc h.symm
          by_cases hb : b = Memory.unlisted <;> simp [hb, hc, Memory.lookup_cons, this]
      · simp only [if_neg hlt, if_neg heq, Memory.lookup_cons, ih h.2]
        by_cases hk : k = c
        · subst hk
          have : ¬ k = a := fun h => heq h.symm
          simp [this]
        · simp [hk]

/-- Setting a byte keeps the canonical form. -/
@[simp] theorem Memory.wf_setByte {m : Memory} (h : m.wf = true) (a : Word) (b : Byte) : (m.setByte a b).wf = true :=
  Memory.wfFrom_insert h (Nat.zero_le _) a.isLt

/-- A byte read after a byte written. -/
theorem Memory.byte_setByte {m : Memory} (h : m.wf = true) (a : Word) (b : Byte) (c : Word) :
    (m.setByte a b).byte c = if c = a then b else m.byte c := by
  unfold Memory.byte Memory.setByte
  rw [Memory.lookup_insert a.toNat b c.toNat h]
  simp [BitVec.toNat_eq]

/-- Every write keeps the canonical form. -/
@[simp] theorem Memory.wf_write {m : Memory} (h : m.wf = true) (a : Word) (n : Width) (v : Word) :
    (m.write a n v).wf = true := by
  cases n with
  | byte => exact Memory.wf_setByte h _ _
  | half => exact Memory.wf_setByte (Memory.wf_setByte h _ _) _ _
  | word =>
    exact Memory.wf_setByte (Memory.wf_setByte (Memory.wf_setByte (Memory.wf_setByte h _ _) _ _) _ _) _ _

/-- A byte address as an offset below four from another. -/
theorem Memory.offset_iff (a c : Word) (k : Nat) (hk : k < 4) : c = a + BitVec.ofNat 32 k ↔ (c - a).toNat = k := by
  constructor
  · rintro rfl
    simp only [BitVec.toNat_sub, BitVec.toNat_add, BitVec.toNat_ofNat]
    omega
  · intro hh
    have : c - a = BitVec.ofNat 32 k := by
      apply BitVec.eq_of_toNat_eq
      rw [hh, BitVec.toNat_ofNat, Nat.mod_eq_of_lt (by omega)]
    rw [← this, BitVec.add_comm, BitVec.sub_add_cancel]

/-- A byte read after a write of any width. -/
theorem Memory.byte_write {m : Memory} (h : m.wf = true) (a : Word) (n : Width) (v : Word) (c : Word) :
    (m.write a n v).byte c =
      if (c - a).toNat < n.bytes then v.extractLsb' (8 * (c - a).toNat) 8 else m.byte c := by
  have e0 : c = a ↔ (c - a).toNat = 0 := by simpa using Memory.offset_iff a c 0 (by omega)
  have e1 : c = a + 1#32 ↔ (c - a).toNat = 1 := Memory.offset_iff a c 1 (by omega)
  have e2 : c = a + 2#32 ↔ (c - a).toNat = 2 := Memory.offset_iff a c 2 (by omega)
  have e3 : c = a + 3#32 ↔ (c - a).toNat = 3 := Memory.offset_iff a c 3 (by omega)
  have w1 := Memory.wf_setByte h a (v.extractLsb' 0 8)
  have w2 := Memory.wf_setByte w1 (a + 1#32) (v.extractLsb' 8 8)
  have w3 := Memory.wf_setByte w2 (a + 2#32) (v.extractLsb' 16 8)
  generalize hk : (c - a).toNat = k at *
  cases n with
  | byte =>
    show (m.setByte a (v.extractLsb' 0 8)).byte c = if k < 1 then v.extractLsb' (8 * k) 8 else m.byte c
    rw [Memory.byte_setByte h]
    rcases Nat.lt_or_ge k 1 with hlt | hge
    · interval_cases k; simp [e0]
    · simp [e0, Nat.not_lt.mpr hge]; omega
  | half =>
    show ((m.setByte a (v.extractLsb' 0 8)).setByte (a + 1#32) (v.extractLsb' 8 8)).byte c =
      if k < 2 then v.extractLsb' (8 * k) 8 else m.byte c
    rw [Memory.byte_setByte w1, Memory.byte_setByte h]
    rcases Nat.lt_or_ge k 2 with hlt | hge
    · interval_cases k <;> simp [e0, e1]
    · rw [if_neg (mt e1.mp (by omega)), if_neg (mt e0.mp (by omega)), if_neg (by omega)]
  | word =>
    show ((((m.setByte a (v.extractLsb' 0 8)).setByte (a + 1#32) (v.extractLsb' 8 8)).setByte (a + 2#32)
      (v.extractLsb' 16 8)).setByte (a + 3#32) (v.extractLsb' 24 8)).byte c =
      if k < 4 then v.extractLsb' (8 * k) 8 else m.byte c
    rw [Memory.byte_setByte w3, Memory.byte_setByte w2, Memory.byte_setByte w1, Memory.byte_setByte h]
    rcases Nat.lt_or_ge k 4 with hlt | hge
    · interval_cases k <;> simp [e0, e1, e2, e3]
    · rw [if_neg (mt e3.mp (by omega)), if_neg (mt e2.mp (by omega)), if_neg (mt e1.mp (by omega)),
        if_neg (mt e0.mp (by omega)), if_neg (by omega)]

/-- The memory of the state after reset is canonical. -/
theorem Memory.wf_reset : State.reset.bus.mem.wf = true := rfl

/-! ## Every operation over the state keeps the canonical form -/

theorem State.wf_memRead {s : State} (h : s.bus.mem.wf = true) (a : Word) (n : Width) :
    (s.memRead a n).2.bus.mem.wf = true := h

theorem State.wf_iFetch {s : State} (h : s.bus.mem.wf = true) : s.iFetch.2.bus.mem.wf = true := h

theorem State.wf_memWrite {s : State} (h : s.bus.mem.wf = true) (a : Word) (n : Width) (v : Word) :
    (s.memWrite a n v).bus.mem.wf = true := by
  show (s.bus.memAfterWrite a n v).wf = true
  unfold Bus.memAfterWrite
  split <;> simp [h]

theorem State.wf_applyWrite {s : State} (h : s.bus.mem.wf = true) (w : EnvWrite) : (s.applyWrite w).bus.mem.wf = true := by
  cases w <;> simp only [State.applyWrite]
  · simpa using h
  · split <;> simpa using h
  · exact h
  · exact h
  · exact Memory.wf_setByte h _ _

theorem State.wf_applyWrites {s : State} (h : s.bus.mem.wf = true) (ws : Handler) :
    (s.applyWrites ws).bus.mem.wf = true := by
  induction ws generalizing s with
  | nil => exact h
  | cons w ws ih => exact ih (State.wf_applyWrite h w)

theorem State.wf_callHandler {s : State} (h : s.bus.mem.wf = true) (t : Transaction) (ref : Handler) :
    (s.callHandler t ref).bus.mem.wf = true := by
  unfold State.callHandler
  exact State.wf_applyWrites (by exact h) _

theorem State.wf_placeWord {s : State} (h : s.bus.mem.wf = true) (w : Word) : (s.placeWord w).bus.mem.wf = true :=
  Memory.wf_write h s.pc .word w

theorem State.wf_resetTo {s : State} (h : s.bus.mem.wf = true) (pc : Word) : (s.resetTo pc).bus.mem.wf = true := h

end Sys2Proof.Machine
end

