-- ==== Sys2Proof/Laws/Ops.lean ====
section
/-! SUPPORT. One lemma for each shared operation that says, in the words of Sys2Proof/Safety.lean, everything it does. -/

namespace Sys2Proof.Machine

variable (s : State)

/-! ## Ends of an execution unit -/

theorem endX_finishX (rd : Reg) (v : Word) : EndX s (s.finishX rd v) rd v (s.pc + 4#32) where
  x := fun r => by simp
  f := fun r => by simp
  csrs := by simp [KeptCsrs]
  const := by simp [KeptConst]
  pc := by simp

theorem endF_finishF (rd : Reg) (v : Word) : EndF s (s.finishF rd v) rd v where
  x := fun r => by simp
  f := fun r => by simp
  csrs := by simp [KeptCsrs]
  const := by simp [KeptConst]
  pc := by simp

theorem end0_advance : End0 s s.advance (s.pc + 4#32) where
  x := fun r => by simp
  f := fun r => by simp
  csrs := by simp [KeptCsrs]
  const := by simp [KeptConst]
  pc := by simp

/-- An instruction whose meaning is one register write and the advance. -/
theorem completesX_of_finishX {i : Instr} {rd : Reg} {v : Word} (h : exec i s = .next (s.finishX rd v))
    (hq : sequential i s = true) : CompletesX i s rd v :=
  ⟨_, h, endX_finishX s rd v, by simp [Quiet], hq⟩

theorem completesF_of_finishF {i : Instr} {rd : Reg} {v : Word} {p : Word → Prop} (h : exec i s = .next (s.finishF rd v))
    (hp : p v) (hq : sequential i s = true) : CompletesF i s rd p :=
  ⟨_, v, h, hp, endF_finishF s rd v, by simp [Quiet], hq⟩

theorem completes0_of_advance {i : Instr} (h : exec i s = .next s.advance) (hq : sequential i s = true) : Completes0 i s :=
  ⟨_, h, end0_advance s, by simp [Quiet], hq⟩

/-! ## Port transactions -/

/-- A byte appended below a value, as a number. -/
theorem toNat_append_byte {n : Nat} (x : BitVec n) (y : Byte) : (x ++ y).toNat = x.toNat * 256 + y.toNat := by
  rw [BitVec.toNat_append, ← Nat.shiftLeft_add_eq_or_of_lt y.isLt, Nat.shiftLeft_eq]

/-- A read of the reference memory is the number its bytes spell. -/
theorem Memory.read_eq (m : Memory) (a : Word) (n : Width) : m.read a n = BitVec.ofNat 32 (littleEndian m a n.bytes) := by
  have h0 := (m.byte a).isLt
  have h1 := (m.byte (a + 1#32)).isLt
  have h2 := (m.byte (a + 2#32)).isLt
  have h3 := (m.byte (a + 3#32)).isLt
  cases n <;> apply BitVec.eq_of_toNat_eq <;>
    simp only [Memory.read, Width.bytes, littleEndian, BitVec.toNat_setWidth, toNat_append_byte, BitVec.toNat_ofNat,
      BitVec.add_zero] <;> omega

theorem littleEndian_lt (m : Memory) (a : Word) (k : Nat) : littleEndian m a k < 256 ^ k := by
  induction k with
  | zero => simp [littleEndian]
  | succ k ih =>
    have := (m.byte (a + BitVec.ofNat 32 k)).isLt
    simp only [littleEndian, Nat.pow_succ]
    nlinarith

/-- What a read returns, as a number. -/
theorem Bus.answer_eq (a : Word) (n : Width) : s.bus.answer a n = BitVec.ofNat 32 (answered s a n) := by
  unfold Bus.answer Bus.nextReply answered
  rcases hr : s.bus.replies with _ | ⟨⟨_ | v, l⟩, rest⟩
  · simp [BusReply.reference, Memory.read_eq]
  · simp [Memory.read_eq]
  · simp only [List.headD_cons]
    apply BitVec.eq_of_toNat_eq
    have := v.isLt
    cases n <;> simp [Width.cut, Width.bytes]; omega

theorem answered_lt (a : Word) (n : Width) : answered s a n < 2 ^ (8 * n.bytes) := by
  unfold answered
  split
  · exact Nat.mod_lt _ (by positivity)
  · exact lt_of_lt_of_eq (littleEndian_lt _ _ _) (by rw [Nat.pow_mul])

/-- The latch a callback leaves. -/
theorem latched_eq : s.bus.nextReply.latched s.exc = latchAfter s := by
  unfold Bus.nextReply BusReply.latched latchAfter
  rcases hr : s.bus.replies with _ | ⟨⟨d, _ | k⟩, rest⟩ <;> simp [BusReply.reference]

/-- Everything `memRead` does on the environment's side. -/
theorem readOnce_memRead (a : Word) (n : Width) : ReadOnce s (s.memRead a n).2 a n where
  log := by simp [Bus.afterRead, Bus.answer_eq]
  replies := by simp [Bus.afterRead]
  calls := by simp [Bus.afterRead]
  exc := by simp [latched_eq]
  bytes := by simp [Bus.afterRead]

theorem Width.cut_eq (n : Width) (v : Word) : n.cut v = BitVec.ofNat 32 (v.toNat % 2 ^ (8 * n.bytes)) := by
  have := v.isLt
  apply BitVec.eq_of_toNat_eq
  cases n <;> simp [Width.cut, Width.bytes]; omega

/-- Everything `memWrite` does on the environment's side. -/
theorem wroteOnce_memWrite (h : s.bus.mem.wf = true) (a : Word) (n : Width) (v : Word) :
    WroteOnce s (s.memWrite a n v) a n v where
  log := by simp [State.memWrite, Width.cut_eq]
  replies := rfl
  calls := rfl
  exc := by simp [latched_eq]
  bytes := fun b => by
    show (s.bus.memAfterWrite a n v).byte b = _
    unfold Bus.memAfterWrite Bus.nextReply absorbs
    rcases hr : s.bus.replies with _ | ⟨⟨_ | d, l⟩, rest⟩
    · simp [BusReply.reference, Memory.byte_write h]
    · simp [Memory.byte_write h]
    · simp

/-- The parts of the transaction predicates survive an end that touches no bus. -/
theorem ReadOnce.congr {s t u : State} {a : Word} {n : Width} (h : ReadOnce s t a n) (hb : u.bus = t.bus)
    (he : u.exc = t.exc) : ReadOnce s u a n :=
  ⟨by rw [hb, h.log], by rw [hb, h.replies], by rw [hb, h.calls], by rw [he, h.exc], by rw [hb]; exact h.bytes⟩

theorem WroteOnce.congr {s t u : State} {a : Word} {n : Width} {v : Word} (h : WroteOnce s t a n v) (hb : u.bus = t.bus)
    (he : u.exc = t.exc) : WroteOnce s u a n v :=
  ⟨by rw [hb, h.log], by rw [hb, h.replies], by rw [hb, h.calls], by rw [he, h.exc], by rw [hb]; exact h.bytes⟩

/-- The common part of the loads. -/
theorem load_spec (rd rs1 : Reg) (imm : BitVec 12) (n : Width) (ext : Word → Word) :
    EndX s (s.load rd rs1 imm n ext) rd (ext (BitVec.ofNat 32 (answered s (s.ea rs1 imm) n))) (s.pc + 4#32) ∧
      ReadOnce s (s.load rd rs1 imm n ext) (s.ea rs1 imm) n := by
  constructor
  · constructor
    · intro r; simp [State.load, State.memRead, Bus.answer_eq]; rfl
    · intro r; simp [State.load]
    · simp [State.load, KeptCsrs]
    · simp [State.load, KeptConst]
    · simp [State.load]
  · exact (readOnce_memRead s _ n).congr (by simp [State.load]) (by simp [State.load])

/-- The common part of the stores. -/
theorem store_spec (h : s.bus.mem.wf = true) (a : Word) (n : Width) (v : Word) :
    End0 s (s.store a n v) (s.pc + 4#32) ∧ WroteOnce s (s.store a n v) a n v := by
  constructor
  · constructor
    · intro r; simp [State.store]
    · intro r; simp [State.store]
    · simp [State.store, KeptCsrs]
    · simp [State.store, KeptConst]
    · simp [State.store]
  · exact (wroteOnce_memWrite s h a n v).congr (by simp [State.store]) (by simp [State.store])

/-- The shape of the AMOs: the state between the read and the write, and the end. -/
theorem amo_spec (h : s.bus.mem.wf = true) (rd rs1 rs2 : Reg) (op : Word → Word → Word) :
    ReadOnce s (s.memRead (s.readX rs1) .word).2 (s.readX rs1) .word ∧
    WroteOnce (s.memRead (s.readX rs1) .word).2 (s.amo rd rs1 rs2 op) (s.readX rs1) .word
      (op (BitVec.ofNat 32 (answered s (s.readX rs1) .word)) (s.readX rs2)) ∧
    EndX s (s.amo rd rs1 rs2 op) rd (BitVec.ofNat 32 (answered s (s.readX rs1) .word)) (s.pc + 4#32) := by
  refine ⟨readOnce_memRead s _ _, ?_, ?_⟩
  · rw [← Bus.answer_eq]
    exact (wroteOnce_memWrite _ (State.wf_memRead h _ _) _ _ _).congr (by simp [State.amo, State.memRead]) (by simp [State.amo])
  · constructor
    · intro r; simp [State.amo, State.memRead, Bus.answer_eq]; rfl
    · intro r; simp [State.amo]
    · simp [State.amo, KeptCsrs]
    · simp [State.amo, KeptConst]
    · simp [State.amo]

/-! ## Jumps and branches -/

/-- Two low bits clear, as a number. -/
theorem aligned_iff (a : Word) : aligned a ↔ a.extractLsb' 0 2 = 0#2 := by
  unfold aligned
  rw [← BitVec.toNat_inj]
  simp [BitVec.extractLsb'_toNat]

theorem jumpTo_aligned {t : Word} (h : aligned t) : s.jumpTo t = s.setPc t := by
  simp [State.jumpTo, (aligned_iff t).mp h]

theorem jumpTo_misaligned {t : Word} (h : ¬ aligned t) : s.jumpTo t = (s.setPc t).raise .instMisaligned := by
  have : ¬ t.extractLsb' 0 2 = 0#2 := fun h' => h ((aligned_iff t).mpr h')
  simp [State.jumpTo, this]

/-- Everything `jumpTo` does. -/
theorem jumpTo_spec (t : Word) :
    End0 s (s.jumpTo t) t ∧ (s.jumpTo t).bus = s.bus ∧ (aligned t → (s.jumpTo t).exc = s.exc) ∧
      (¬ aligned t → (s.jumpTo t).exc = .instMisaligned) := by
  refine ⟨⟨fun r => by simp, fun r => by simp, by simp [KeptCsrs], by simp [KeptConst], by simp⟩, by simp, ?_, ?_⟩
  · intro h; simp [(aligned_iff t).mp h]
  · intro h; rw [State.jumpTo_exc, if_neg (fun h' => h ((aligned_iff t).mpr h'))]

/-! ## CSRs -/

/-- `csr_read` is R39's table. -/
theorem readCsr_eq (a : BitVec 12) : s.readCsr a = csrTable s a := by
  unfold State.readCsr csrTable
  have h : s.csrCycle.extractLsb' 32 32 = BitVec.ofNat 32 (s.csrCycle.toNat / 2 ^ 32) := by
    apply BitVec.eq_of_toNat_eq; simp [BitVec.extractLsb'_toNat, Nat.shiftRight_eq_div_pow]
  have h' : s.csrCycle.extractLsb' 0 32 = BitVec.ofNat 32 (s.csrCycle.toNat % 2 ^ 32) := by
    apply BitVec.eq_of_toNat_eq; simp [BitVec.extractLsb'_toNat]
  rw [h, h']

/-! ## The environment's writes -/

/-- Everything a handler's writes do to the core's registers, the latch and the constants, and to memory. -/
theorem applyWrites_spec (h : Handler) (hm : s.bus.mem.wf = true) :
    (∀ r, r ≠ 0#5 → (s.applyWrites h).readX r = (lastX r h).getD (s.readX r)) ∧
    (s.params.extF = true → ∀ r, (s.applyWrites h).readF r = (lastF r h).getD (s.readF r)) ∧
    (s.applyWrites h).pc = (lastPc h).getD s.pc ∧ (s.applyWrites h).exc = (lastLatch h).getD s.exc ∧
    KeptCsrs s (s.applyWrites h) ∧ KeptConst s (s.applyWrites h) ∧ (s.applyWrites h).bus.log = s.bus.log ∧
    (s.applyWrites h).bus.replies = s.bus.replies ∧ (s.applyWrites h).bus.calls = s.bus.calls ∧
    (∀ a, (s.applyWrites h).bus.mem.byte a = (lastMem a h).getD (s.bus.mem.byte a)) := by
  induction h generalizing s with
  | nil => simp [State.applyWrites, lastX, lastF, lastPc, lastLatch, lastMem, KeptCsrs, KeptConst]
  | cons w ws ih =>
    obtain ⟨h1, h2, h3, h4, h5, h6, h7, h8, h9, h10⟩ := ih (s.applyWrite w) (State.wf_applyWrite hm w)
    have key : (s.applyWrite w).params = s.params := by
      cases w <;> simp [State.applyWrite]; split <;> simp
    simp only [State.applyWrites]
    refine ⟨?_, ?_, ?_, ?_, ?_, ?_, ?_, ?_, ?_, ?_⟩
    · intro r hr
      rw [h1 r hr]
      cases w with
      | x q v =>
        by_cases hq : q = r
        · subst hq; cases hx : lastX q ws <;> simp [lastX, State.applyWrite, hx, hr]
        · have hq' : ¬ r = q := fun h => hq h.symm
          cases hx : lastX r ws <;> simp [lastX, State.applyWrite, hx, hq, hq']
      | f q v => simp only [lastX, State.applyWrite]; split <;> simp
      | pc v => simp [lastX, State.applyWrite]
      | latch k => simp [lastX, State.applyWrite]
      | mem a b => simp [lastX, State.applyWrite, State.readX]
    · intro hf r
      rw [h2 (by rw [key]; exact hf) r]
      cases w with
      | x q v => simp [lastF, State.applyWrite]
      | f q v =>
        by_cases hq : q = r
        · subst hq; cases hx : lastF q ws <;> simp [lastF, State.applyWrite, hx, hf]
        · have hq' : ¬ r = q := fun h => hq h.symm
          cases hx : lastF r ws <;> simp [lastF, State.applyWrite, hx, hq, hq', hf]
      | pc v => simp [lastF, State.applyWrite]
      | latch k => simp [lastF, State.applyWrite]
      | mem a b => simp [lastF, State.applyWrite, State.readF]
    · rw [h3]
      cases w with
      | x q v => simp [lastPc, State.applyWrite]
      | f q v => simp only [lastPc, State.applyWrite]; split <;> simp
      | pc v => cases hx : lastPc ws <;> simp [lastPc, State.applyWrite, hx]
      | latch k => simp [lastPc, State.applyWrite]
      | mem a b => simp [lastPc, State.applyWrite]
    · rw [h4]
      cases w with
      | x q v => simp [lastLatch, State.applyWrite]
      | f q v => simp only [lastLatch, State.applyWrite]; split <;> simp
      | pc v => simp [lastLatch, State.applyWrite]
      | latch k => cases hx : lastLatch ws <;> simp [lastLatch, State.applyWrite, hx]
      | mem a b => simp [lastLatch, State.applyWrite]
    · unfold KeptCsrs at h5 ⊢
      rw [h5.1, h5.2.1, h5.2.2]
      cases w <;> simp [State.applyWrite]; split <;> simp
    · unfold KeptConst at h6 ⊢
      rw [h6.1, h6.2.1, h6.2.2]
      cases w <;> simp [State.applyWrite]; split <;> simp
    · rw [h7]; cases w <;> simp [State.applyWrite]; split <;> simp
    · rw [h8]; cases w <;> simp [State.applyWrite]; split <;> simp
    · rw [h9]; cases w <;> simp [State.applyWrite]; split <;> simp
    · intro a
      rw [h10 a]
      cases w with
      | x q v => simp [lastMem, State.applyWrite]
      | f q v => simp only [lastMem, State.applyWrite]; split <;> simp
      | pc v => simp [lastMem, State.applyWrite]
      | latch k => simp [lastMem, State.applyWrite]
      | mem q b =>
        by_cases hq : q = a
        · subst hq; cases hx : lastMem q ws <;> simp [lastMem, State.applyWrite, hx, Memory.byte_setByte hm]
        · have hq' : ¬ a = q := fun h => hq h.symm
          cases hx : lastMem a ws <;> simp [lastMem, State.applyWrite, hx, hq, hq', Memory.byte_setByte hm]

/-! ## The counter -/

/-- One instruction counted, inside the counter's range. -/
theorem retire_spec (h : s.csrCycle ≠ BitVec.allOnes 64) : s.retire = { s with csrCycle := s.csrCycle + 1#64 } :=
  if_neg h

/-! ## A step -/

/-- A step of a state whose latch is clear, when the fetched word decodes. -/
theorem step_instr {s t : State} {i : Instr} (he : s.exc = .none)
    (hd : decodeWord s.params (s.bus.answer s.pc .word) = .instr i) (hx : exec i s.iFetch.2 = .next t) :
    step s = .next t.retire := by
  simp only [step, he, if_true, step1]
  show (match decodeWord s.params (s.bus.answer s.pc .word) with
    | .instr i => _
    | .illegal _ => _) = _
  rw [hd]; simp only [hx]

/-- A step of a state whose latch is clear, when the fetched word is illegal. -/
theorem step_illegal {s : State} {r : Illegal} (he : s.exc = .none)
    (hd : decodeWord s.params (s.bus.answer s.pc .word) = .illegal r) : step s = .next s.iFetch.2.illegal.retire := by
  simp only [step, he, if_true, step1]
  show (match decodeWord s.params (s.bus.answer s.pc .word) with
    | .instr i => _
    | .illegal _ => _) = _
  rw [hd]

/-- A step of a latched state. -/
theorem step_latched {s : State} (he : s.exc ≠ .none) : step s = .next s := if_neg he

end Sys2Proof.Machine
end

