-- ==== Sys2Proof/Laws/Exec.lean ====
section
/-! SUPPORT. What an instruction can do, said once: every instruction answers a next state of one of thirteen shapes, with its
sequential flag and its transactions. Claims over all instructions are case analyses of `Runs`. -/

namespace Sys2Proof.Machine

/-- The shapes of a next state of `i` begun in `s`. -/
inductive Runs (i : Instr) (s : State) : State → Prop
  | x (rd : Reg) (v : Word) (hq : sequential i s = true) (hp : ∀ w, portTable i w s = []) : Runs i s (s.finishX rd v)
  | f (rd : Reg) (v : Word) (hq : sequential i s = true) (hp : ∀ w, portTable i w s = []) : Runs i s (s.finishF rd v)
  | nothing (hq : sequential i s = true) (hp : ∀ w, portTable i w s = []) : Runs i s s.advance
  | csr (rd : Reg) (a : BitVec 12) (new : Word → Word) (hq : sequential i s = true) (hp : ∀ w, portTable i w s = [])
      (he : i.extension = some .zicsr) (ha : iImmOf (encode i) = a) : Runs i s (s.csrAccess rd a new)
  | jump (rd : Reg) (t : Word) (hq : sequential i s = false) (hp : ∀ w, portTable i w s = []) :
      Runs i s ((s.writeX rd (s.pc + 4#32)).jumpTo t)
  | branch (b : Bool) (imm : BitVec 13) (hq : sequential i s = !b) (hp : ∀ w, portTable i w s = []) :
      Runs i s (s.branch b imm)
  | load (rd : Reg) (a : Word) (n : Width) (ext : Word → Word) (hq : sequential i s = true)
      (hp : ∀ w, portTable i w s = [.read a n]) : Runs i s ((s.memRead a n).2.finishX rd (ext (s.memRead a n).1))
  | flw (rd : Reg) (a : Word) (hq : sequential i s = true) (hp : ∀ w, portTable i w s = [.read a .word]) :
      Runs i s ((s.memRead a .word).2.finishF rd (s.memRead a .word).1)
  | store (a : Word) (n : Width) (v : Word) (hq : sequential i s = true) (hp : ∀ w, portTable i w s = [.write a n]) :
      Runs i s (s.memWrite a n v).advance
  | sc (rd : Reg) (a v : Word) (hq : sequential i s = true) (hp : ∀ w, portTable i w s = [.write a .word]) :
      Runs i s ((s.memWrite a .word v).finishX rd 0#32)
  | amo (rd rs1 rs2 : Reg) (op : Word → Word → Word) (hq : sequential i s = true)
      (hp : ∀ w, portTable i w s = [.read (s.readX rs1) .word, .write (s.readX rs1) .word]) : Runs i s (s.amo rd rs1 rs2 op)
  | ecall (rd rs1 : Reg) (lo : BitVec 2) (hi : i = .ecall rd rs1 lo) (hq : sequential i s = false) :
      Runs i s (s.onEcall (encode i)).advance
  | ebreak (rd rs1 : Reg) (lo : BitVec 2) (hi : i = .ebreak rd rs1 lo) (hq : sequential i s = false) :
      Runs i s (s.onEbreak (encode i)).advance

/-- Every instruction runs, in every state. -/
theorem runs (i : Instr) (s : State) : ∃ t, exec i s = .next t ∧ Runs i s t := by
  cases i with
  | lui => exact ⟨_, rfl, .x _ _ rfl fun _ => rfl⟩
  | auipc => exact ⟨_, rfl, .x _ _ rfl fun _ => rfl⟩
  | jal => exact ⟨_, rfl, .jump _ _ rfl fun _ => rfl⟩
  | jalr => exact ⟨_, rfl, .jump _ _ rfl fun _ => rfl⟩
  | beq => exact ⟨_, rfl, .branch _ _ (by simp [sequential]) fun _ => rfl⟩
  | bne => exact ⟨_, rfl, .branch _ _ (by simp [sequential, bne]) fun _ => rfl⟩
  | blt => exact ⟨_, rfl, .branch _ _ (by simp [sequential]) fun _ => rfl⟩
  | bge => exact ⟨_, rfl, .branch _ _ (by simp [sequential]) fun _ => rfl⟩
  | bltu => exact ⟨_, rfl, .branch _ _ (by simp [sequential]) fun _ => rfl⟩
  | bgeu => exact ⟨_, rfl, .branch _ _ (by simp [sequential]) fun _ => rfl⟩
  | lb => exact ⟨_, rfl, .load _ _ _ sext8 rfl fun _ => rfl⟩
  | lh => exact ⟨_, rfl, .load _ _ _ sext16 rfl fun _ => rfl⟩
  | lw => exact ⟨_, rfl, .load _ _ _ id rfl fun _ => rfl⟩
  | lbu => exact ⟨_, rfl, .load _ _ _ zext8 rfl fun _ => rfl⟩
  | lhu => exact ⟨_, rfl, .load _ _ _ zext16 rfl fun _ => rfl⟩
  | sb => exact ⟨_, rfl, .store _ _ _ rfl fun _ => rfl⟩
  | sh => exact ⟨_, rfl, .store _ _ _ rfl fun _ => rfl⟩
  | sw => exact ⟨_, rfl, .store _ _ _ rfl fun _ => rfl⟩
  | addi => exact ⟨_, rfl, .x _ _ rfl fun _ => rfl⟩
  | slti => exact ⟨_, rfl, .x _ _ rfl fun _ => rfl⟩
  | sltiu => exact ⟨_, rfl, .x _ _ rfl fun _ => rfl⟩
  | xori => exact ⟨_, rfl, .x _ _ rfl fun _ => rfl⟩
  | ori => exact ⟨_, rfl, .x _ _ rfl fun _ => rfl⟩
  | andi => exact ⟨_, rfl, .x _ _ rfl fun _ => rfl⟩
  | slli => exact ⟨_, rfl, .x _ _ rfl fun _ => rfl⟩
  | srli => exact ⟨_, rfl, .x _ _ rfl fun _ => rfl⟩
  | srai => exact ⟨_, rfl, .x _ _ rfl fun _ => rfl⟩
  | add => exact ⟨_, rfl, .x _ _ rfl fun _ => rfl⟩
  | sub => exact ⟨_, rfl, .x _ _ rfl fun _ => rfl⟩
  | sll => exact ⟨_, rfl, .x _ _ rfl fun _ => rfl⟩
  | slt => exact ⟨_, rfl, .x _ _ rfl fun _ => rfl⟩
  | sltu => exact ⟨_, rfl, .x _ _ rfl fun _ => rfl⟩
  | xor => exact ⟨_, rfl, .x _ _ rfl fun _ => rfl⟩
  | srl => exact ⟨_, rfl, .x _ _ rfl fun _ => rfl⟩
  | sra => exact ⟨_, rfl, .x _ _ rfl fun _ => rfl⟩
  | or => exact ⟨_, rfl, .x _ _ rfl fun _ => rfl⟩
  | and => exact ⟨_, rfl, .x _ _ rfl fun _ => rfl⟩
  | fence => exact ⟨_, rfl, .nothing rfl fun _ => rfl⟩
  | fenceI => exact ⟨_, rfl, .nothing rfl fun _ => rfl⟩
  | ecall => exact ⟨_, rfl, .ecall _ _ _ rfl rfl⟩
  | ebreak => exact ⟨_, rfl, .ebreak _ _ _ rfl rfl⟩
  | csrrw => exact ⟨_, rfl, .csr _ _ _ rfl (fun _ => rfl) rfl (by simp [encode])⟩
  | csrrs => exact ⟨_, rfl, .csr _ _ _ rfl (fun _ => rfl) rfl (by simp [encode])⟩
  | csrrc => exact ⟨_, rfl, .csr _ _ _ rfl (fun _ => rfl) rfl (by simp [encode])⟩
  | csrrwi => exact ⟨_, rfl, .csr _ _ _ rfl (fun _ => rfl) rfl (by simp [encode])⟩
  | csrrsi => exact ⟨_, rfl, .csr _ _ _ rfl (fun _ => rfl) rfl (by simp [encode])⟩
  | csrrci => exact ⟨_, rfl, .csr _ _ _ rfl (fun _ => rfl) rfl (by simp [encode])⟩
  | mul => exact ⟨_, rfl, .x _ _ rfl fun _ => rfl⟩
  | mulh => exact ⟨_, rfl, .x _ _ rfl fun _ => rfl⟩
  | mulhsu => exact ⟨_, rfl, .x _ _ rfl fun _ => rfl⟩
  | mulhu => exact ⟨_, rfl, .x _ _ rfl fun _ => rfl⟩
  | div => exact ⟨_, rfl, .x _ _ rfl fun _ => rfl⟩
  | divu => exact ⟨_, rfl, .x _ _ rfl fun _ => rfl⟩
  | rem => exact ⟨_, rfl, .x _ _ rfl fun _ => rfl⟩
  | remu => exact ⟨_, rfl, .x _ _ rfl fun _ => rfl⟩
  | lrW => exact ⟨_, rfl, .load _ _ _ id rfl fun _ => rfl⟩
  | scW => exact ⟨_, rfl, .sc _ _ _ rfl fun _ => rfl⟩
  | amoswapW => exact ⟨_, rfl, .amo _ _ _ _ rfl fun _ => rfl⟩
  | amoaddW => exact ⟨_, rfl, .amo _ _ _ _ rfl fun _ => rfl⟩
  | amoxorW => exact ⟨_, rfl, .amo _ _ _ _ rfl fun _ => rfl⟩
  | amoandW => exact ⟨_, rfl, .amo _ _ _ _ rfl fun _ => rfl⟩
  | amoorW => exact ⟨_, rfl, .amo _ _ _ _ rfl fun _ => rfl⟩
  | amominW => exact ⟨_, rfl, .amo _ _ _ _ rfl fun _ => rfl⟩
  | amomaxW => exact ⟨_, rfl, .amo _ _ _ _ rfl fun _ => rfl⟩
  | amominuW => exact ⟨_, rfl, .amo _ _ _ _ rfl fun _ => rfl⟩
  | amomaxuW => exact ⟨_, rfl, .amo _ _ _ _ rfl fun _ => rfl⟩
  | flw => exact ⟨_, rfl, .flw _ _ rfl fun _ => rfl⟩
  | fsw => exact ⟨_, rfl, .store _ _ _ rfl fun _ => rfl⟩
  | fmaddS => exact ⟨_, rfl, .f _ _ rfl fun _ => rfl⟩
  | fmsubS => exact ⟨_, rfl, .f _ _ rfl fun _ => rfl⟩
  | fnmsubS => exact ⟨_, rfl, .f _ _ rfl fun _ => rfl⟩
  | fnmaddS => exact ⟨_, rfl, .f _ _ rfl fun _ => rfl⟩
  | faddS => exact ⟨_, rfl, .f _ _ rfl fun _ => rfl⟩
  | fsubS => exact ⟨_, rfl, .f _ _ rfl fun _ => rfl⟩
  | fmulS => exact ⟨_, rfl, .f _ _ rfl fun _ => rfl⟩
  | fdivS => exact ⟨_, rfl, .f _ _ rfl fun _ => rfl⟩
  | fsqrtS => exact ⟨_, rfl, .f _ _ rfl fun _ => rfl⟩
  | fsgnjS => exact ⟨_, rfl, .f _ _ rfl fun _ => rfl⟩
  | fsgnjnS => exact ⟨_, rfl, .f _ _ rfl fun _ => rfl⟩
  | fsgnjxS => exact ⟨_, rfl, .f _ _ rfl fun _ => rfl⟩
  | fminS => exact ⟨_, rfl, .f _ _ rfl fun _ => rfl⟩
  | fmaxS => exact ⟨_, rfl, .f _ _ rfl fun _ => rfl⟩
  | fcvtWS => exact ⟨_, rfl, .x _ _ rfl fun _ => rfl⟩
  | fcvtWuS => exact ⟨_, rfl, .x _ _ rfl fun _ => rfl⟩
  | fmvXW => exact ⟨_, rfl, .x _ _ rfl fun _ => rfl⟩
  | feqS => exact ⟨_, rfl, .x _ _ rfl fun _ => rfl⟩
  | fltS => exact ⟨_, rfl, .x _ _ rfl fun _ => rfl⟩
  | fleS => exact ⟨_, rfl, .x _ _ rfl fun _ => rfl⟩
  | fclassS => exact ⟨_, rfl, .x _ _ rfl fun _ => rfl⟩
  | fcvtSW => exact ⟨_, rfl, .f _ _ rfl fun _ => rfl⟩
  | fcvtSWu => exact ⟨_, rfl, .f _ _ rfl fun _ => rfl⟩
  | fmvWX => exact ⟨_, rfl, .f _ _ rfl fun _ => rfl⟩

/-- What a next state of an instruction looks like. -/
theorem runs_of_exec {i : Instr} {s t : State} (h : exec i s = .next t) : Runs i s t := by
  obtain ⟨t', h', hr⟩ := runs i s
  rw [h'] at h
  cases h
  exact hr

/-- A step whose latch is clear, in its two cases. -/
theorem step_cases (s : State) (he : s.exc = .none) :
    (∃ i t, decodeWord s.params (s.bus.answer s.pc .word) = .instr i ∧ exec i s.iFetch.2 = .next t ∧
      Runs i s.iFetch.2 t ∧ step s = .next t.retire) ∨
    (∃ r, decodeWord s.params (s.bus.answer s.pc .word) = .illegal r ∧ step s = .next s.iFetch.2.illegal.retire) := by
  cases hd : decodeWord s.params (s.bus.answer s.pc .word) with
  | instr i =>
    obtain ⟨t, ht, hr⟩ := runs i s.iFetch.2
    exact .inl ⟨i, t, rfl, ht, hr, step_instr he hd ht⟩
  | illegal r => exact .inr ⟨r, rfl, step_illegal he hd⟩

/-- An instruction does the same with another `rm` (R120, R292). -/
theorem exec_withRm {i j : Instr} {rm : BitVec 3} (h : i.withRm? rm = some j) (s : State) : exec j s = exec i s := by
  cases i <;> cases h <;> rfl

end Sys2Proof.Machine
end

