-- ==== Sys2Proof/Laws/FloatUnit.lean ====
section
/-! SUPPORT. Laws of the F unit (46_f_extension.md R324) proved: (1), (3), (7) and (8). The obligation FloatUnitLaws states all
eight. -/

namespace Sys2Proof.Machine

/-- R324 (1). -/
theorem lawMoveRoundTrip : LawMoveRoundTrip := by
  intro s rd fs fd
  refine ⟨_, _, rfl, rfl, ?_⟩
  rw [(endF_finishF _ fd _).f fd, if_pos rfl, (endX_finishX s rd _).x rd]
  by_cases h : rd = 0#5
  · subst h; simp [State.readX]
  · simp [h]

/-- R324 (3). -/
theorem lawFloatFrame : LawFloatFrame := by
  intro i s t hi h
  cases i <;> cases hi <;> cases h
  case flw => exact ⟨rfl, fun _ _ => rfl, .inr ⟨rfl, .inl ⟨_, _, _, rfl⟩⟩⟩
  case fsw => exact ⟨rfl, fun _ _ => rfl, .inr ⟨rfl, .inr ⟨_, _, _, rfl⟩⟩⟩
  case fcvtWS | fcvtWuS | fmvXW | feqS | fltS | fleS | fclassS =>
    exact ⟨by simp, fun r hr => ((endX_finishX s _ _).x r).trans (if_neg fun e => hr (congrArg some e.1.symm)),
      .inl (by simp)⟩
  all_goals exact ⟨rfl, fun _ _ => rfl, .inl rfl⟩

/-- R324 (7). -/
theorem lawSignInjection : LawSignInjection := by
  intro a
  have key (s : BitVec 1) (m : BitVec 31) : (s ++ m).extractLsb' 31 1 = s ∧ (s ++ m).extractLsb' 0 31 = m := by
    constructor <;> (ext i hi; simp only [BitVec.getElem_extractLsb', BitVec.getLsbD_append]; grind)
  have whole : a.extractLsb' 31 1 ++ a.extractLsb' 0 31 = a := by
    ext i hi; simp only [BitVec.getElem_append, BitVec.getElem_extractLsb']; grind
  refine ⟨whole, ?_, ?_⟩
  · unfold fsgnjn; rw [(key _ _).1, (key _ _).2, BitVec.not_not, whole]
  · unfold fsgnjx; rw [BitVec.xor_self, BitVec.getLsbD_append]; simp

/-- R324 (8). -/
theorem lawRmWithoutEffect : LawRmWithoutEffect := fun _ _ _ s h => exec_withRm h s

end Sys2Proof.Machine
end

