-- ==== Sys2Proof/Laws/PerInstr.lean ====
section
/-! SUPPORT. Per-instruction facts. `TableRow`: the encoder puts an instruction in its own row of spec/opcode_table.json
(30_encoding.md R99, R100). -/

namespace Sys2Proof.Laws

/-- The word the encoder gives lies in the instruction's row. -/
def TableRow.Statement (i : Instr) : Prop := i.rowMatches (encode i)

/-- What the mask leaves of an R word. -/
theorem encR_long_masked (f7 : BitVec 7) (rs2 rs1 : Reg) (f3 : BitVec 3) (rd : Reg) (slot : BitVec 5) :
    (encR f7 rs2 rs1 f3 rd slot ||| 3#32) &&& 0xFE00707F#32 = f7 ++ 0#10 ++ f3 ++ 0#5 ++ slot ++ 3#2 := by
  apply BitVec.eq_of_getLsbD_eq; intro i hi
  simp only [encR, BitVec.getLsbD_and, BitVec.getLsbD_or, BitVec.getLsbD_append]
  interval_cases i <;> simp

/-- What the mask leaves of an R word whose `funct3` is `rm`. -/
theorem encR_rm_masked (f7 : BitVec 7) (rs2 rs1 : Reg) (f3 : BitVec 3) (rd : Reg) (slot : BitVec 5) :
    (encR f7 rs2 rs1 f3 rd slot ||| 3#32) &&& 0xFE00007F#32 = f7 ++ 0#18 ++ slot ++ 3#2 := by
  apply BitVec.eq_of_getLsbD_eq; intro i hi
  simp only [encR, BitVec.getLsbD_and, BitVec.getLsbD_or, BitVec.getLsbD_append]
  interval_cases i <;> simp

/-- What the mask leaves of an R word whose `rs2` selects and whose `funct3` is `rm`. -/
theorem encR_rs2rm_masked (f7 : BitVec 7) (rs2 rs1 : Reg) (f3 : BitVec 3) (rd : Reg) (slot : BitVec 5) :
    (encR f7 rs2 rs1 f3 rd slot ||| 3#32) &&& 0xFFF0007F#32 = f7 ++ rs2 ++ 0#13 ++ slot ++ 3#2 := by
  apply BitVec.eq_of_getLsbD_eq; intro i hi
  simp only [encR, BitVec.getLsbD_and, BitVec.getLsbD_or, BitVec.getLsbD_append]
  interval_cases i <;> simp

/-- What the mask leaves of an R word whose `rs2` selects. -/
theorem encR_rs2_masked (f7 : BitVec 7) (rs2 rs1 : Reg) (f3 : BitVec 3) (rd : Reg) (slot : BitVec 5) :
    (encR f7 rs2 rs1 f3 rd slot ||| 3#32) &&& 0xFFF0707F#32 = f7 ++ rs2 ++ 0#5 ++ f3 ++ 0#5 ++ slot ++ 3#2 := by
  apply BitVec.eq_of_getLsbD_eq; intro i hi
  simp only [encR, BitVec.getLsbD_and, BitVec.getLsbD_or, BitVec.getLsbD_append]
  interval_cases i <;> simp

/-- What the mask leaves of SLLI's word. -/
theorem encR_short_masked (f7 : BitVec 7) (rs2 rs1 : Reg) (f3 : BitVec 3) (rd : Reg) (slot : BitVec 5) :
    (encR f7 rs2 rs1 f3 rd slot ||| 3#32) &&& 0x0000707F#32 = 0#17 ++ f3 ++ 0#5 ++ slot ++ 3#2 := by
  apply BitVec.eq_of_getLsbD_eq; intro i hi
  simp only [encR, BitVec.getLsbD_and, BitVec.getLsbD_or, BitVec.getLsbD_append]
  interval_cases i <;> simp

/-- What the mask leaves of SRLI's and SRAI's words. -/
theorem encR_bit30_masked (b31 c : BitVec 1) (b29 : BitVec 5) (rs2 rs1 : Reg) (f3 : BitVec 3) (rd : Reg) (slot : BitVec 5) :
    (encR (b31 ++ c ++ b29) rs2 rs1 f3 rd slot ||| 3#32) &&& 0x4000707F#32 = 0#1 ++ c ++ 0#15 ++ f3 ++ 0#5 ++ slot ++ 3#2 := by
  apply BitVec.eq_of_getLsbD_eq; intro i hi
  simp only [encR, BitVec.getLsbD_and, BitVec.getLsbD_or, BitVec.getLsbD_append]
  interval_cases i <;> simp

/-- What the mask leaves of an I word. -/
theorem encI_masked (imm : BitVec 12) (rs1 : Reg) (f3 : BitVec 3) (rd : Reg) (slot : BitVec 5) :
    (encI imm rs1 f3 rd slot ||| 3#32) &&& 0x0000707F#32 = 0#17 ++ f3 ++ 0#5 ++ slot ++ 3#2 := by
  apply BitVec.eq_of_getLsbD_eq; intro i hi
  simp only [encI, BitVec.getLsbD_and, BitVec.getLsbD_or, BitVec.getLsbD_append]
  interval_cases i <;> simp

/-- What the mask leaves of an S word. -/
theorem encS_masked (imm : BitVec 12) (rs2 rs1 : Reg) (f3 : BitVec 3) (slot : BitVec 5) :
    (encS imm rs2 rs1 f3 slot ||| 3#32) &&& 0x0000707F#32 = 0#17 ++ f3 ++ 0#5 ++ slot ++ 3#2 := by
  apply BitVec.eq_of_getLsbD_eq; intro i hi
  simp only [encS, BitVec.getLsbD_and, BitVec.getLsbD_or, BitVec.getLsbD_append]
  interval_cases i <;> simp

/-- What the mask leaves of a B word. -/
theorem encB_masked (imm : BitVec 13) (rs2 rs1 : Reg) (f3 : BitVec 3) (slot : BitVec 5) :
    (encB imm rs2 rs1 f3 slot ||| 3#32) &&& 0x0000707F#32 = 0#17 ++ f3 ++ 0#5 ++ slot ++ 3#2 := by
  apply BitVec.eq_of_getLsbD_eq; intro i hi
  simp only [encB, BitVec.getLsbD_and, BitVec.getLsbD_or, BitVec.getLsbD_append]
  interval_cases i <;> simp

/-- What the mask leaves of a U word. -/
theorem encU_masked (imm : BitVec 20) (rd : Reg) (slot : BitVec 5) :
    (encU imm rd slot ||| 3#32) &&& 0x0000007F#32 = 0#25 ++ slot ++ 3#2 := by
  apply BitVec.eq_of_getLsbD_eq; intro i hi
  simp only [encU, BitVec.getLsbD_and, BitVec.getLsbD_or, BitVec.getLsbD_append]
  interval_cases i <;> simp

/-- What the mask leaves of a J word. -/
theorem encJ_masked (imm : BitVec 21) (rd : Reg) (slot : BitVec 5) :
    (encJ imm rd slot ||| 3#32) &&& 0x0000007F#32 = 0#25 ++ slot ++ 3#2 := by
  apply BitVec.eq_of_getLsbD_eq; intro i hi
  simp only [encJ, BitVec.getLsbD_and, BitVec.getLsbD_or, BitVec.getLsbD_append]
  interval_cases i <;> simp

/-- What the mask leaves of an R4 word. -/
theorem encR4_masked (rs3 rs2 rs1 : Reg) (rm : BitVec 3) (rd : Reg) (slot : BitVec 5) :
    (encR4 rs3 rs2 rs1 rm rd slot ||| 3#32) &&& 0x0600007F#32 = 0#25 ++ slot ++ 3#2 := by
  apply BitVec.eq_of_getLsbD_eq; intro i hi
  simp only [encR4, BitVec.getLsbD_and, BitVec.getLsbD_or, BitVec.getLsbD_append]
  interval_cases i <;> simp

/-- What the mask leaves of an AMO word. -/
theorem encAmo_masked (f5 : BitVec 5) (aq rl : BitVec 1) (rs2 rs1 rd : Reg) :
    (encAmo f5 aq rl rs2 rs1 rd ||| 3#32) &&& 0xF800707F#32 = f5 ++ 0x000202F#27 := by
  apply BitVec.eq_of_getLsbD_eq; intro i hi
  simp only [encAmo, BitVec.getLsbD_and, BitVec.getLsbD_or, BitVec.getLsbD_append]
  interval_cases i <;> simp

/-- What the mask leaves of LR.W's word. -/
theorem encAmo_lr_masked (f5 : BitVec 5) (aq rl : BitVec 1) (rs2 rs1 rd : Reg) :
    (encAmo f5 aq rl rs2 rs1 rd ||| 3#32) &&& 0xF9F0707F#32 = f5 ++ 0#2 ++ rs2 ++ 0x0202F#20 := by
  apply BitVec.eq_of_getLsbD_eq; intro i hi
  simp only [encAmo, BitVec.getLsbD_and, BitVec.getLsbD_or, BitVec.getLsbD_append]
  interval_cases i <;> simp

/-- What the mask leaves of ECALL's and EBREAK's words. -/
theorem encCall_masked (imm : BitVec 12) (rs1 rd : Reg) (lo : BitVec 2) :
    (encCall imm rs1 rd lo ||| 3#32) &&& 0xFFF0707F#32 = imm ++ 0x00073#20 := by
  apply BitVec.eq_of_getLsbD_eq; intro i hi
  simp only [encCall, BitVec.getLsbD_and, BitVec.getLsbD_or, BitVec.getLsbD_append]
  interval_cases i <;> simp

theorem TableRow.lui (rd : Reg) (imm : BitVec 20) :
    TableRow.Statement (.lui rd imm) := (encU_masked ..).trans rfl

theorem TableRow.auipc (rd : Reg) (imm : BitVec 20) :
    TableRow.Statement (.auipc rd imm) := (encU_masked ..).trans rfl

theorem TableRow.jal (rd : Reg) (imm : BitVec 21) :
    TableRow.Statement (.jal rd imm) := (encJ_masked ..).trans rfl

theorem TableRow.jalr (rd rs1 : Reg) (imm : BitVec 12) :
    TableRow.Statement (.jalr rd rs1 imm) := (encI_masked ..).trans rfl

theorem TableRow.beq (rs1 rs2 : Reg) (imm : BitVec 13) :
    TableRow.Statement (.beq rs1 rs2 imm) := (encB_masked ..).trans rfl

theorem TableRow.bne (rs1 rs2 : Reg) (imm : BitVec 13) :
    TableRow.Statement (.bne rs1 rs2 imm) := (encB_masked ..).trans rfl

theorem TableRow.blt (rs1 rs2 : Reg) (imm : BitVec 13) :
    TableRow.Statement (.blt rs1 rs2 imm) := (encB_masked ..).trans rfl

theorem TableRow.bge (rs1 rs2 : Reg) (imm : BitVec 13) :
    TableRow.Statement (.bge rs1 rs2 imm) := (encB_masked ..).trans rfl

theorem TableRow.bltu (rs1 rs2 : Reg) (imm : BitVec 13) :
    TableRow.Statement (.bltu rs1 rs2 imm) := (encB_masked ..).trans rfl

theorem TableRow.bgeu (rs1 rs2 : Reg) (imm : BitVec 13) :
    TableRow.Statement (.bgeu rs1 rs2 imm) := (encB_masked ..).trans rfl

theorem TableRow.lb (rd rs1 : Reg) (imm : BitVec 12) :
    TableRow.Statement (.lb rd rs1 imm) := (encI_masked ..).trans rfl

theorem TableRow.lh (rd rs1 : Reg) (imm : BitVec 12) :
    TableRow.Statement (.lh rd rs1 imm) := (encI_masked ..).trans rfl

theorem TableRow.lw (rd rs1 : Reg) (imm : BitVec 12) :
    TableRow.Statement (.lw rd rs1 imm) := (encI_masked ..).trans rfl

theorem TableRow.lbu (rd rs1 : Reg) (imm : BitVec 12) :
    TableRow.Statement (.lbu rd rs1 imm) := (encI_masked ..).trans rfl

theorem TableRow.lhu (rd rs1 : Reg) (imm : BitVec 12) :
    TableRow.Statement (.lhu rd rs1 imm) := (encI_masked ..).trans rfl

theorem TableRow.sb (rs1 rs2 : Reg) (imm : BitVec 12) :
    TableRow.Statement (.sb rs1 rs2 imm) := (encS_masked ..).trans rfl

theorem TableRow.sh (rs1 rs2 : Reg) (imm : BitVec 12) :
    TableRow.Statement (.sh rs1 rs2 imm) := (encS_masked ..).trans rfl

theorem TableRow.sw (rs1 rs2 : Reg) (imm : BitVec 12) :
    TableRow.Statement (.sw rs1 rs2 imm) := (encS_masked ..).trans rfl

theorem TableRow.addi (rd rs1 : Reg) (imm : BitVec 12) :
    TableRow.Statement (.addi rd rs1 imm) := (encI_masked ..).trans rfl

theorem TableRow.slti (rd rs1 : Reg) (imm : BitVec 12) :
    TableRow.Statement (.slti rd rs1 imm) := (encI_masked ..).trans rfl

theorem TableRow.sltiu (rd rs1 : Reg) (imm : BitVec 12) :
    TableRow.Statement (.sltiu rd rs1 imm) := (encI_masked ..).trans rfl

theorem TableRow.xori (rd rs1 : Reg) (imm : BitVec 12) :
    TableRow.Statement (.xori rd rs1 imm) := (encI_masked ..).trans rfl

theorem TableRow.ori (rd rs1 : Reg) (imm : BitVec 12) :
    TableRow.Statement (.ori rd rs1 imm) := (encI_masked ..).trans rfl

theorem TableRow.andi (rd rs1 : Reg) (imm : BitVec 12) :
    TableRow.Statement (.andi rd rs1 imm) := (encI_masked ..).trans rfl

theorem TableRow.slli (rd rs1 : Reg) (shamt : BitVec 5) (hi : BitVec 7) :
    TableRow.Statement (.slli rd rs1 shamt hi) := (encR_short_masked ..).trans rfl

theorem TableRow.srli (rd rs1 : Reg) (shamt : BitVec 5) (b31 : BitVec 1) (b29 : BitVec 5) :
    TableRow.Statement (.srli rd rs1 shamt b31 b29) := (encR_bit30_masked ..).trans rfl

theorem TableRow.srai (rd rs1 : Reg) (shamt : BitVec 5) (b31 : BitVec 1) (b29 : BitVec 5) :
    TableRow.Statement (.srai rd rs1 shamt b31 b29) := (encR_bit30_masked ..).trans rfl

theorem TableRow.add (rd rs1 rs2 : Reg) :
    TableRow.Statement (.add rd rs1 rs2) := (encR_long_masked ..).trans rfl

theorem TableRow.sub (rd rs1 rs2 : Reg) :
    TableRow.Statement (.sub rd rs1 rs2) := (encR_long_masked ..).trans rfl

theorem TableRow.sll (rd rs1 rs2 : Reg) :
    TableRow.Statement (.sll rd rs1 rs2) := (encR_long_masked ..).trans rfl

theorem TableRow.slt (rd rs1 rs2 : Reg) :
    TableRow.Statement (.slt rd rs1 rs2) := (encR_long_masked ..).trans rfl

theorem TableRow.sltu (rd rs1 rs2 : Reg) :
    TableRow.Statement (.sltu rd rs1 rs2) := (encR_long_masked ..).trans rfl

theorem TableRow.xor (rd rs1 rs2 : Reg) :
    TableRow.Statement (.xor rd rs1 rs2) := (encR_long_masked ..).trans rfl

theorem TableRow.srl (rd rs1 rs2 : Reg) :
    TableRow.Statement (.srl rd rs1 rs2) := (encR_long_masked ..).trans rfl

theorem TableRow.sra (rd rs1 rs2 : Reg) :
    TableRow.Statement (.sra rd rs1 rs2) := (encR_long_masked ..).trans rfl

theorem TableRow.or (rd rs1 rs2 : Reg) :
    TableRow.Statement (.or rd rs1 rs2) := (encR_long_masked ..).trans rfl

theorem TableRow.and (rd rs1 rs2 : Reg) :
    TableRow.Statement (.and rd rs1 rs2) := (encR_long_masked ..).trans rfl

theorem TableRow.fence (rd rs1 : Reg) (succ pred fm : BitVec 4) :
    TableRow.Statement (.fence rd rs1 succ pred fm) := (encI_masked ..).trans rfl

theorem TableRow.fenceI (rd rs1 : Reg) (imm : BitVec 12) :
    TableRow.Statement (.fenceI rd rs1 imm) := (encI_masked ..).trans rfl

theorem TableRow.ecall (rd rs1 : Reg) (lo : BitVec 2) :
    TableRow.Statement (.ecall rd rs1 lo) := (encCall_masked ..).trans rfl

theorem TableRow.ebreak (rd rs1 : Reg) (lo : BitVec 2) :
    TableRow.Statement (.ebreak rd rs1 lo) := (encCall_masked ..).trans rfl

theorem TableRow.csrrw (rd rs1 : Reg) (csr : BitVec 12) :
    TableRow.Statement (.csrrw rd rs1 csr) := (encI_masked ..).trans rfl

theorem TableRow.csrrs (rd rs1 : Reg) (csr : BitVec 12) :
    TableRow.Statement (.csrrs rd rs1 csr) := (encI_masked ..).trans rfl

theorem TableRow.csrrc (rd rs1 : Reg) (csr : BitVec 12) :
    TableRow.Statement (.csrrc rd rs1 csr) := (encI_masked ..).trans rfl

theorem TableRow.csrrwi (rd : Reg) (zimm : BitVec 5) (csr : BitVec 12) :
    TableRow.Statement (.csrrwi rd zimm csr) := (encI_masked ..).trans rfl

theorem TableRow.csrrsi (rd : Reg) (zimm : BitVec 5) (csr : BitVec 12) :
    TableRow.Statement (.csrrsi rd zimm csr) := (encI_masked ..).trans rfl

theorem TableRow.csrrci (rd : Reg) (zimm : BitVec 5) (csr : BitVec 12) :
    TableRow.Statement (.csrrci rd zimm csr) := (encI_masked ..).trans rfl

theorem TableRow.mul (rd rs1 rs2 : Reg) :
    TableRow.Statement (.mul rd rs1 rs2) := (encR_long_masked ..).trans rfl

theorem TableRow.mulh (rd rs1 rs2 : Reg) :
    TableRow.Statement (.mulh rd rs1 rs2) := (encR_long_masked ..).trans rfl

theorem TableRow.mulhsu (rd rs1 rs2 : Reg) :
    TableRow.Statement (.mulhsu rd rs1 rs2) := (encR_long_masked ..).trans rfl

theorem TableRow.mulhu (rd rs1 rs2 : Reg) :
    TableRow.Statement (.mulhu rd rs1 rs2) := (encR_long_masked ..).trans rfl

theorem TableRow.div (rd rs1 rs2 : Reg) :
    TableRow.Statement (.div rd rs1 rs2) := (encR_long_masked ..).trans rfl

theorem TableRow.divu (rd rs1 rs2 : Reg) :
    TableRow.Statement (.divu rd rs1 rs2) := (encR_long_masked ..).trans rfl

theorem TableRow.rem (rd rs1 rs2 : Reg) :
    TableRow.Statement (.rem rd rs1 rs2) := (encR_long_masked ..).trans rfl

theorem TableRow.remu (rd rs1 rs2 : Reg) :
    TableRow.Statement (.remu rd rs1 rs2) := (encR_long_masked ..).trans rfl

theorem TableRow.lrW (rd rs1 : Reg) (aq rl : BitVec 1) :
    TableRow.Statement (.lrW rd rs1 aq rl) := (encAmo_lr_masked ..).trans rfl

theorem TableRow.scW (rd rs1 rs2 : Reg) (aq rl : BitVec 1) :
    TableRow.Statement (.scW rd rs1 rs2 aq rl) := (encAmo_masked ..).trans rfl

theorem TableRow.amoswapW (rd rs1 rs2 : Reg) (aq rl : BitVec 1) :
    TableRow.Statement (.amoswapW rd rs1 rs2 aq rl) := (encAmo_masked ..).trans rfl

theorem TableRow.amoaddW (rd rs1 rs2 : Reg) (aq rl : BitVec 1) :
    TableRow.Statement (.amoaddW rd rs1 rs2 aq rl) := (encAmo_masked ..).trans rfl

theorem TableRow.amoxorW (rd rs1 rs2 : Reg) (aq rl : BitVec 1) :
    TableRow.Statement (.amoxorW rd rs1 rs2 aq rl) := (encAmo_masked ..).trans rfl

theorem TableRow.amoandW (rd rs1 rs2 : Reg) (aq rl : BitVec 1) :
    TableRow.Statement (.amoandW rd rs1 rs2 aq rl) := (encAmo_masked ..).trans rfl

theorem TableRow.amoorW (rd rs1 rs2 : Reg) (aq rl : BitVec 1) :
    TableRow.Statement (.amoorW rd rs1 rs2 aq rl) := (encAmo_masked ..).trans rfl

theorem TableRow.amominW (rd rs1 rs2 : Reg) (aq rl : BitVec 1) :
    TableRow.Statement (.amominW rd rs1 rs2 aq rl) := (encAmo_masked ..).trans rfl

theorem TableRow.amomaxW (rd rs1 rs2 : Reg) (aq rl : BitVec 1) :
    TableRow.Statement (.amomaxW rd rs1 rs2 aq rl) := (encAmo_masked ..).trans rfl

theorem TableRow.amominuW (rd rs1 rs2 : Reg) (aq rl : BitVec 1) :
    TableRow.Statement (.amominuW rd rs1 rs2 aq rl) := (encAmo_masked ..).trans rfl

theorem TableRow.amomaxuW (rd rs1 rs2 : Reg) (aq rl : BitVec 1) :
    TableRow.Statement (.amomaxuW rd rs1 rs2 aq rl) := (encAmo_masked ..).trans rfl

theorem TableRow.flw (rd rs1 : Reg) (imm : BitVec 12) :
    TableRow.Statement (.flw rd rs1 imm) := (encI_masked ..).trans rfl

theorem TableRow.fsw (rs1 rs2 : Reg) (imm : BitVec 12) :
    TableRow.Statement (.fsw rs1 rs2 imm) := (encS_masked ..).trans rfl

theorem TableRow.fmaddS (rd rs1 rs2 rs3 : Reg) (rm : BitVec 3) :
    TableRow.Statement (.fmaddS rd rs1 rs2 rs3 rm) := (encR4_masked ..).trans rfl

theorem TableRow.fmsubS (rd rs1 rs2 rs3 : Reg) (rm : BitVec 3) :
    TableRow.Statement (.fmsubS rd rs1 rs2 rs3 rm) := (encR4_masked ..).trans rfl

theorem TableRow.fnmsubS (rd rs1 rs2 rs3 : Reg) (rm : BitVec 3) :
    TableRow.Statement (.fnmsubS rd rs1 rs2 rs3 rm) := (encR4_masked ..).trans rfl

theorem TableRow.fnmaddS (rd rs1 rs2 rs3 : Reg) (rm : BitVec 3) :
    TableRow.Statement (.fnmaddS rd rs1 rs2 rs3 rm) := (encR4_masked ..).trans rfl

theorem TableRow.faddS (rd rs1 rs2 : Reg) (rm : BitVec 3) :
    TableRow.Statement (.faddS rd rs1 rs2 rm) := (encR_rm_masked ..).trans rfl

theorem TableRow.fsubS (rd rs1 rs2 : Reg) (rm : BitVec 3) :
    TableRow.Statement (.fsubS rd rs1 rs2 rm) := (encR_rm_masked ..).trans rfl

theorem TableRow.fmulS (rd rs1 rs2 : Reg) (rm : BitVec 3) :
    TableRow.Statement (.fmulS rd rs1 rs2 rm) := (encR_rm_masked ..).trans rfl

theorem TableRow.fdivS (rd rs1 rs2 : Reg) (rm : BitVec 3) :
    TableRow.Statement (.fdivS rd rs1 rs2 rm) := (encR_rm_masked ..).trans rfl

theorem TableRow.fsqrtS (rd rs1 : Reg) (rm : BitVec 3) :
    TableRow.Statement (.fsqrtS rd rs1 rm) := (encR_rs2rm_masked ..).trans rfl

theorem TableRow.fsgnjS (rd rs1 rs2 : Reg) :
    TableRow.Statement (.fsgnjS rd rs1 rs2) := (encR_long_masked ..).trans rfl

theorem TableRow.fsgnjnS (rd rs1 rs2 : Reg) :
    TableRow.Statement (.fsgnjnS rd rs1 rs2) := (encR_long_masked ..).trans rfl

theorem TableRow.fsgnjxS (rd rs1 rs2 : Reg) :
    TableRow.Statement (.fsgnjxS rd rs1 rs2) := (encR_long_masked ..).trans rfl

theorem TableRow.fminS (rd rs1 rs2 : Reg) :
    TableRow.Statement (.fminS rd rs1 rs2) := (encR_long_masked ..).trans rfl

theorem TableRow.fmaxS (rd rs1 rs2 : Reg) :
    TableRow.Statement (.fmaxS rd rs1 rs2) := (encR_long_masked ..).trans rfl

theorem TableRow.fcvtWS (rd rs1 : Reg) (rm : BitVec 3) :
    TableRow.Statement (.fcvtWS rd rs1 rm) := (encR_rs2rm_masked ..).trans rfl

theorem TableRow.fcvtWuS (rd rs1 : Reg) (rm : BitVec 3) :
    TableRow.Statement (.fcvtWuS rd rs1 rm) := (encR_rs2rm_masked ..).trans rfl

theorem TableRow.fmvXW (rd rs1 : Reg) :
    TableRow.Statement (.fmvXW rd rs1) := (encR_rs2_masked ..).trans rfl

theorem TableRow.feqS (rd rs1 rs2 : Reg) :
    TableRow.Statement (.feqS rd rs1 rs2) := (encR_long_masked ..).trans rfl

theorem TableRow.fltS (rd rs1 rs2 : Reg) :
    TableRow.Statement (.fltS rd rs1 rs2) := (encR_long_masked ..).trans rfl

theorem TableRow.fleS (rd rs1 rs2 : Reg) :
    TableRow.Statement (.fleS rd rs1 rs2) := (encR_long_masked ..).trans rfl

theorem TableRow.fclassS (rd rs1 : Reg) :
    TableRow.Statement (.fclassS rd rs1) := (encR_rs2_masked ..).trans rfl

theorem TableRow.fcvtSW (rd rs1 : Reg) (rm : BitVec 3) :
    TableRow.Statement (.fcvtSW rd rs1 rm) := (encR_rs2rm_masked ..).trans rfl

theorem TableRow.fcvtSWu (rd rs1 : Reg) (rm : BitVec 3) :
    TableRow.Statement (.fcvtSWu rd rs1 rm) := (encR_rs2rm_masked ..).trans rfl

theorem TableRow.fmvWX (rd rs1 : Reg) :
    TableRow.Statement (.fmvWX rd rs1) := (encR_rs2_masked ..).trans rfl

end Sys2Proof.Laws
end

