-- ==== Sys2Proof/Laws/Round.lean ====
section
/-! SUPPORT. The model's integer rounding is the spec's `round_f32` (46_f_extension.md R291): values as whole numbers of quanta of
2^-149 against `valQ`, and `roundQuotient`, `roundInt`, `roundSqrt` against `RoundsTo`. -/

namespace Sys2Proof.Machine

/-! ## Patterns -/

theorem fExp_pack (s : Bool) (e f : Nat) (he : e < 256) : fExp (pack s e f) = e := by
  have h : (pack s e f).extractLsb' 23 8 = BitVec.ofNat 8 e := by
    unfold pack; ext i hi
    simp only [BitVec.getElem_extractLsb', BitVec.getLsbD_append]; grind
  unfold fExp; rw [h, BitVec.toNat_ofNat, Nat.mod_eq_of_lt he]

theorem fFrac_pack (s : Bool) (e f : Nat) (hf : f < 2 ^ 23) : fFrac (pack s e f) = f := by
  have h : (pack s e f).extractLsb' 0 23 = BitVec.ofNat 23 f := by
    unfold pack; ext i hi
    simp only [BitVec.getElem_extractLsb', BitVec.getLsbD_append]; grind
  unfold fFrac; rw [h, BitVec.toNat_ofNat, Nat.mod_eq_of_lt hf]

theorem fSign_pack (s : Bool) (e f : Nat) : fSign (pack s e f) = s := by
  unfold fSign pack
  rw [BitVec.getLsbD_append, BitVec.getLsbD_append]
  simp

/-- `val(v)` through the model's fields. -/
theorem valQ_fields (v : Word) : valQ v =
    (if fSign v then -1 else 1) * (if fExp v = 0 then (fFrac v : ℚ) * (2 : ℚ) ^ (-149 : ℤ)
      else (2 ^ 23 + (fFrac v : ℚ)) * (2 : ℚ) ^ ((fExp v : ℤ) - 150)) := rfl

/-- `|val(v)|` is `magnitude v` quanta. -/
theorem abs_valQ (v : Word) : |valQ v| = (magnitude v : ℚ) * (2 : ℚ) ^ (-149 : ℤ) := by
  have hs : |(if fSign v then -1 else 1 : ℚ)| = 1 := by split <;> simp
  rw [valQ_fields, abs_mul, hs, one_mul]
  unfold magnitude
  split
  · rw [abs_of_nonneg (by positivity)]
  · next h =>
    rw [abs_of_nonneg (by positivity)]
    have : ((fExp v : ℤ) - 150) = ((fExp v - 1 : ℕ) : ℤ) + (-149) := by omega
    rw [this, zpow_add₀ (by norm_num), zpow_natCast]
    push_cast
    ring

/-- `val(v)` is `value v` quanta. -/
theorem valQ_eq (v : Word) : valQ v = (value v : ℚ) * (2 : ℚ) ^ (-149 : ℤ) := by
  have ha := abs_valQ v
  have hm : (0 : ℚ) ≤ (magnitude v : ℚ) * (2 : ℚ) ^ (-149 : ℤ) := by positivity
  unfold value
  by_cases h : fSign v = true
  · have : valQ v ≤ 0 := by
      rw [valQ_fields, if_pos h]
      have : (0 : ℚ) ≤ (if fExp v = 0 then (fFrac v : ℚ) * (2 : ℚ) ^ (-149 : ℤ)
        else (2 ^ 23 + (fFrac v : ℚ)) * (2 : ℚ) ^ ((fExp v : ℤ) - 150)) := by split <;> positivity
      linarith
    rw [abs_of_nonpos this] at ha
    simp only [h, if_true]
    push_cast
    linarith
  · have : 0 ≤ valQ v := by
      rw [valQ_fields, if_neg h]
      have : (0 : ℚ) ≤ (if fExp v = 0 then (fFrac v : ℚ) * (2 : ℚ) ^ (-149 : ℤ)
        else (2 ^ 23 + (fFrac v : ℚ)) * (2 : ℚ) ^ ((fExp v : ℤ) - 150)) := by split <;> positivity
      linarith
    rw [abs_of_nonneg this] at ha
    simp only [h]
    push_cast
    linarith

/-! ## Rounding to an integer -/

theorem nearestEven_of_floor {t : ℝ} {f : ℕ} (hlo : (f : ℝ) ≤ t) (hhi : t < f + 1) :
    (t < f + 1 / 2 → NearestEven t f) ∧ ((f : ℝ) + 1 / 2 < t → NearestEven t (f + 1 : ℕ)) ∧
      (t = f + 1 / 2 → NearestEven t ((f + f % 2 : ℕ))) := by
  refine ⟨fun h => ?_, fun h => ?_, fun h => ?_⟩
  · have : |t - ((f : ℤ) : ℝ)| = t - f := by push_cast; exact abs_of_nonneg (by linarith)
    exact ⟨by rw [this]; linarith, fun h' => by rw [this] at h'; linarith⟩
  · have : |t - (((f + 1 : ℕ) : ℤ) : ℝ)| = f + 1 - t := by
      push_cast; rw [abs_of_nonpos (by linarith)]; ring
    exact ⟨by rw [this]; linarith, fun h' => by rw [this] at h'; linarith⟩
  · refine ⟨?_, fun _ => ?_⟩
    · rcases Nat.mod_two_eq_zero_or_one f with h2 | h2 <;> rw [h2, h] <;> push_cast
      · rw [abs_of_nonneg (by linarith)]; linarith
      · rw [abs_of_nonpos (by linarith)]; linarith
    · rw [Int.even_coe_nat, Nat.even_iff]; omega

/-- `rneDiv` is `rne_int` of the quotient. -/
theorem nearestEven_rneDiv (a b : ℕ) (hb : 0 < b) : NearestEven ((a : ℝ) / b) (rneDiv a b) := by
  have hb' : (0 : ℝ) < b := by exact_mod_cast hb
  have hab : (a : ℝ) = b * (a / b : ℕ) + (a % b : ℕ) := by exact_mod_cast (Nat.div_add_mod a b).symm
  have hm : ((a % b : ℕ) : ℝ) < b := by exact_mod_cast Nat.mod_lt a hb
  have hq : (a : ℝ) / b = (a / b : ℕ) + ((a % b : ℕ) : ℝ) / b := by
    conv_lhs => rw [hab]
    field_simp
  have hr0 : 0 ≤ ((a % b : ℕ) : ℝ) / b := by positivity
  have hr1 : ((a % b : ℕ) : ℝ) / b < 1 := by rw [div_lt_one hb']; exact hm
  obtain ⟨h1, h2, h3⟩ := nearestEven_of_floor (t := (a : ℝ) / b) (f := a / b) (by linarith) (by linarith)
  unfold rneDiv
  split
  · next h =>
    refine h1 ?_
    have : 2 * ((a % b : ℕ) : ℝ) < b := by exact_mod_cast h
    have : ((a % b : ℕ) : ℝ) / b < 1 / 2 := by rw [div_lt_iff₀ hb']; linarith
    linarith
  · split
    · next h =>
      refine h2 ?_
      have : (b : ℝ) < 2 * ((a % b : ℕ) : ℝ) := by exact_mod_cast h
      have : 1 / 2 < ((a % b : ℕ) : ℝ) / b := by rw [lt_div_iff₀ hb']; linarith
      linarith
    · next h h' =>
      refine h3 ?_
      have : 2 * (a % b) = b := by omega
      have : 2 * ((a % b : ℕ) : ℝ) = b := by exact_mod_cast this
      have : ((a % b : ℕ) : ℝ) / b = 1 / 2 := by rw [div_eq_iff hb'.ne']; linarith
      linarith

/-! ## The pattern at the end -/

/-- `assemble` is the end of `round_f32`, for a magnitude whose spacing is 2^k quanta and whose rounded multiple is `n`. -/
theorem roundsTo_assemble {r a : ℝ} {neg : Bool} {k n : ℕ} (hr : r ≠ 0) (hneg : neg = true ↔ r < 0)
    (ha : |r| = a * (2 : ℝ) ^ (-149 : ℤ)) (he : ((k : ℤ) - 126) = max (Int.log 2 |r|) (-126))
    (hn : NearestEven (a / 2 ^ k) n) (hk : 0 < k → 2 ^ 23 ≤ n) (hn24 : n ≤ 2 ^ 24) :
    RoundsTo r (assemble neg k n) := by
  have hq : (2 : ℝ) ^ ((k : ℤ) - 126 - 23) = 2 ^ k * (2 : ℝ) ^ (-149 : ℤ) := by
    rw [show (k : ℤ) - 126 - 23 = (k : ℤ) + (-149) by ring, zpow_add₀ (by norm_num), zpow_natCast]
  have hp : (0 : ℝ) < (2 : ℝ) ^ (-149 : ℤ) := by positivity
  have hover : (2 : ℝ) ^ (128 : ℤ) ≤ ((n : ℤ) : ℝ) * (2 : ℝ) ^ ((k : ℤ) - 126 - 23) ↔ 2 ^ (128 + 149) ≤ n * 2 ^ k := by
    rw [hq, ← mul_assoc, show (128 : ℤ) = 277 + (-149) by norm_num, zpow_add₀ (by norm_num),
      mul_le_mul_iff_left₀ hp, show (277 : ℤ) = ((128 + 149 : ℕ) : ℤ) by norm_num, zpow_natCast]
    have : ∀ m : ℕ, (2 : ℝ) ^ m ≤ ((n : ℤ) : ℝ) * 2 ^ k ↔ 2 ^ m ≤ n * 2 ^ k := fun m => by exact_mod_cast Iff.rfl
    exact this _
  have hcase : ∀ e f : ℕ, e < 255 → f < 2 ^ 23 →
      (magnitude (pack neg e f) : ℝ) = n * 2 ^ k →
      ((pack neg e f).extractLsb' 23 8).toNat ≠ 255 ∧ ((pack neg e f).getLsbD 31 = true ↔ r < 0) ∧
        |((valQ (pack neg e f) : ℚ) : ℝ)| = ((n : ℤ) : ℝ) * (2 : ℝ) ^ ((k : ℤ) - 126 - 23) := by
    intro e f he hf hm
    refine ⟨?_, ?_, ?_⟩
    · have := fExp_pack neg e f (by omega)
      unfold fExp at this
      omega
    · have := fSign_pack neg e f
      unfold fSign at this
      rw [this]; exact hneg
    · rw [← Rat.cast_abs, abs_valQ, hq]
      push_cast
      rw [hm]
      ring
  have hpos : ¬ neg = true → 0 < r := fun h => lt_of_le_of_ne (not_lt.mp (fun h' => h (hneg.mpr h'))) hr.symm
  refine ⟨(k : ℤ) - 126, n, he, ?_, ?_, ?_, ?_⟩
  · rw [hq, ha, mul_div_mul_right _ _ hp.ne']; exact hn
  · intro h
    have h := hover.mp h
    unfold assemble
    rw [if_pos h]
    constructor
    · intro hr; rw [hneg.mpr hr]; rfl
    · intro hr
      have : neg = false := by rw [← Bool.not_eq_true, hneg]; linarith
      rw [this]; rfl
  · intro h
    have h0 : n = 0 := by exact_mod_cast h
    unfold assemble
    rw [if_neg (by rw [h0]; simp), if_pos h0]
    constructor
    · intro hr; rw [hneg.mpr hr]; rfl
    · intro hr
      have : neg = false := by rw [← Bool.not_eq_true, hneg]; linarith
      rw [this]; rfl
  · intro h0 hlt
    have h0' : n ≠ 0 := by exact_mod_cast h0
    have hlt' : ¬ 2 ^ (128 + 149) ≤ n * 2 ^ k := fun h => absurd (hover.mpr h) (not_le.mpr hlt)
    unfold assemble
    rw [if_neg hlt', if_neg h0']
    have hkbound : ∀ m : ℕ, 2 ^ m ≤ n → k + m < 277 := by
      intro m hm
      by_contra hc
      apply hlt'
      calc 2 ^ (128 + 149) ≤ 2 ^ (m + k) := Nat.pow_le_pow_right (by norm_num) (by omega)
        _ = 2 ^ m * 2 ^ k := pow_add _ _ _
        _ ≤ n * 2 ^ k := Nat.mul_le_mul_right _ hm
    split
    · next h23 =>
      have hk0 : k = 0 := by by_contra hc; have := hk (by omega); omega
      refine hcase 0 n (by norm_num) h23 ?_
      unfold magnitude
      rw [fExp_pack neg 0 n (by norm_num), fFrac_pack neg 0 n h23, if_pos rfl, hk0]
      simp
    · next h23 =>
      split
      · next h24 =>
        have := hkbound 23 (by omega)
        refine hcase (k + 1) (n - 2 ^ 23) (by omega) (by omega) ?_
        unfold magnitude
        rw [fExp_pack neg _ _ (by omega), fFrac_pack neg _ _ (by omega), if_neg (by omega)]
        have : 2 ^ 23 + (n - 2 ^ 23) = n := by omega
        rw [this, Nat.add_sub_cancel]
        push_cast
        ring
      · next h24 =>
        have hn' : n = 2 ^ 24 := by omega
        have := hkbound 24 (by omega)
        refine hcase (k + 2) 0 (by omega) (by norm_num) ?_
        unfold magnitude
        rw [fExp_pack neg _ _ (by omega), fFrac_pack neg _ _ (by norm_num), if_neg (by omega), hn',
          show k + 2 - 1 = k + 1 by omega]
        push_cast
        ring

/-! ## Quotients -/

/-- The integer logarithm of a real between two powers. -/
theorem log_eq_of_bounds {x : ℝ} {l : ℤ} (h1 : (2 : ℝ) ^ l ≤ x) (h2 : x < (2 : ℝ) ^ (l + 1)) : Int.log 2 x = l := by
  have hx : 0 < x := lt_of_lt_of_le (by positivity) h1
  have := (Int.zpow_le_iff_le_log (b := 2) (by norm_num) hx).mp (by exact_mod_cast h1)
  have := (Int.lt_zpow_iff_log_lt (b := 2) (by norm_num) hx).mp (by exact_mod_cast h2)
  omega

/-- The rounded multiple is bounded by the powers around it. -/
theorem nearestEven_bounds {t : ℝ} {n lo hi : ℕ} (h : NearestEven t n) (hlo : (lo : ℝ) ≤ t) (hhi : t ≤ hi) :
    lo ≤ n ∧ n ≤ hi := by
  have h1 := abs_le.mp h.1
  push_cast at h1
  constructor
  · by_contra hc
    have : (n : ℝ) + 1 ≤ lo := by exact_mod_cast Nat.succ_le_of_lt (not_le.mp hc)
    linarith [h1.2]
  · by_contra hc
    have : (hi : ℝ) + 1 ≤ n := by exact_mod_cast Nat.succ_le_of_lt (not_le.mp hc)
    linarith [h1.1]

/-- Everything about the spacing of a magnitude of `a` quanta whose whole part is `t`. -/
theorem spacing_spec {a : ℝ} {t : ℕ} (h1 : (t : ℝ) ≤ a) (h2 : a < t + 1) (ha : 0 < a) :
    ((spacing t : ℤ) - 126) = max (Int.log 2 (a * (2 : ℝ) ^ (-149 : ℤ))) (-126) ∧
      (0 < spacing t → ((2 ^ 23 : ℕ) : ℝ) ≤ a / 2 ^ spacing t) ∧ a / 2 ^ spacing t ≤ ((2 ^ 24 : ℕ) : ℝ) := by
  have hx : 0 < a * (2 : ℝ) ^ (-149 : ℤ) := by positivity
  by_cases ht : t < 2 ^ 24
  · have hs : spacing t = 0 := by
      unfold spacing
      by_cases h0 : t = 0
      · simp [h0]
      · have := (Nat.log2_lt h0).mpr ht; omega
    have ha24 : a < 2 ^ 24 := by
      have : ((t + 1 : ℕ) : ℝ) ≤ ((2 ^ 24 : ℕ) : ℝ) := by exact_mod_cast ht
      push_cast at this; linarith
    rw [hs]
    refine ⟨?_, fun h => absurd h (lt_irrefl _), ?_⟩
    · have : a * (2 : ℝ) ^ (-149 : ℤ) < (2 : ℝ) ^ (-125 : ℤ) := by
        rw [show (-125 : ℤ) = 24 + (-149) by norm_num, zpow_add₀ (by norm_num)]
        exact mul_lt_mul_of_pos_right (by norm_num; linarith) (by positivity)
      have := (Int.lt_zpow_iff_log_lt (b := 2) (by norm_num) hx).mp (by exact_mod_cast this)
      rw [max_eq_right (by omega)]; norm_num
    · push_cast; simp; linarith
  · have h0 : t ≠ 0 := by omega
    have hl1 : 2 ^ Nat.log2 t ≤ t := Nat.log2_self_le h0
    have hl2 : t < 2 ^ (Nat.log2 t + 1) := Nat.lt_log2_self
    have hl24 : 24 ≤ Nat.log2 t := (Nat.le_log2 h0).mpr (by omega)
    have hk : (spacing t : ℤ) = Nat.log2 t - 23 := by unfold spacing; omega
    have hb1 : (2 : ℝ) ^ Nat.log2 t ≤ a := le_trans (by exact_mod_cast hl1) h1
    have hb2 : a < (2 : ℝ) ^ (Nat.log2 t + 1) := by
      have : ((t + 1 : ℕ) : ℝ) ≤ ((2 ^ (Nat.log2 t + 1) : ℕ) : ℝ) := by exact_mod_cast hl2
      push_cast at this; linarith
    have hlog : Int.log 2 (a * (2 : ℝ) ^ (-149 : ℤ)) = (Nat.log2 t : ℤ) - 149 := by
      apply log_eq_of_bounds
      · rw [sub_eq_add_neg, zpow_add₀ (by norm_num), zpow_natCast]
        exact mul_le_mul_of_nonneg_right hb1 (by positivity)
      · rw [show (Nat.log2 t : ℤ) - 149 + 1 = ((Nat.log2 t + 1 : ℕ) : ℤ) + (-149) by push_cast; ring,
          zpow_add₀ (by norm_num), zpow_natCast]
        exact mul_lt_mul_of_pos_right hb2 (by positivity)
    have hsp : Nat.log2 t = spacing t + 23 := by omega
    have hp : (0 : ℝ) < 2 ^ spacing t := by positivity
    refine ⟨?_, fun _ => ?_, ?_⟩
    · rw [hlog, max_eq_left (by omega)]; omega
    · rw [le_div_iff₀ hp, Nat.cast_pow, Nat.cast_two, ← pow_add, add_comm, ← hsp]; exact hb1
    · rw [div_le_iff₀ hp, Nat.cast_pow, Nat.cast_two, ← pow_add, show 24 + spacing t = Nat.log2 t + 1 by omega]
      exact hb2.le

/-- `roundQuotient` is `round_f32` of `num / den` quanta. -/
theorem roundsTo_roundQuotient {r : ℝ} {neg : Bool} {num den : ℕ} (hn : 0 < num) (hd : 0 < den)
    (hneg : neg = true ↔ r < 0) (hr : |r| = (num : ℝ) / den * (2 : ℝ) ^ (-149 : ℤ)) :
    RoundsTo r (roundQuotient neg num den) := by
  have hd' : (0 : ℝ) < den := by exact_mod_cast hd
  have ha : (0 : ℝ) < (num : ℝ) / den := by have : (0 : ℝ) < num := by exact_mod_cast hn
                                            positivity
  have h1 : ((num / den : ℕ) : ℝ) ≤ (num : ℝ) / den := Nat.cast_div_le
  have h2 : (num : ℝ) / den < ((num / den : ℕ) : ℝ) + 1 := by
    rw [div_lt_iff₀ hd']
    have : num < (num / den + 1) * den := by
      rw [mul_comm]; exact Nat.lt_mul_div_succ num hd
    exact_mod_cast this
  obtain ⟨e1, e2, e3⟩ := spacing_spec h1 h2 ha
  have hne : NearestEven ((num : ℝ) / den / 2 ^ spacing (num / den)) (rneDiv num (den * 2 ^ spacing (num / den))) := by
    have := nearestEven_rneDiv num (den * 2 ^ spacing (num / den)) (by positivity)
    rw [div_div]
    push_cast at this
    exact this
  refine roundsTo_assemble ?_ hneg hr ?_ hne ?_ ?_
  · intro h0
    rw [h0, abs_zero] at hr
    have : (0 : ℝ) < (num : ℝ) / den * (2 : ℝ) ^ (-149 : ℤ) := by positivity
    linarith
  · rw [hr]; exact e1
  · intro hk; exact (nearestEven_bounds hne (e2 hk) e3).1
  · exact (nearestEven_bounds (lo := 0) hne (by simpa using by positivity) e3).2

/-- `roundInt` is `round_f32` of `num / den` quanta. -/
theorem roundsTo_roundInt {r : ℝ} {num : ℤ} {den : ℕ} (hn : num ≠ 0) (hd : 0 < den)
    (hr : r = (num : ℝ) / den * (2 : ℝ) ^ (-149 : ℤ)) : RoundsTo r (roundInt num den) := by
  have hd' : (0 : ℝ) < den := by exact_mod_cast hd
  have hp : (0 : ℝ) < (2 : ℝ) ^ (-149 : ℤ) := by positivity
  refine roundsTo_roundQuotient (Int.natAbs_pos.mpr hn) hd ?_ ?_
  · rw [decide_eq_true_iff, hr]
    constructor
    · intro h
      have : (num : ℝ) < 0 := by exact_mod_cast h
      exact mul_neg_of_neg_of_pos (div_neg_of_neg_of_pos this hd') hp
    · intro h
      by_contra hc
      have : (0 : ℝ) ≤ num := by exact_mod_cast not_lt.mp hc
      have : (0 : ℝ) ≤ (num : ℝ) / den * (2 : ℝ) ^ (-149 : ℤ) := by positivity
      linarith
  · rw [hr, abs_mul, abs_div, abs_of_pos hp, abs_of_pos hd']
    congr 2
    rw [Nat.cast_natAbs]; push_cast; rfl

/-! ## Square root -/

theorem sqrtBits_spec (b : ℕ) : ∀ n acc : ℕ, acc * acc ≤ n → n < (acc + 2 ^ b) * (acc + 2 ^ b) →
    sqrtBits b n acc * sqrtBits b n acc ≤ n ∧ n < (sqrtBits b n acc + 1) * (sqrtBits b n acc + 1) := by
  induction b with
  | zero => intro n acc h1 h2; exact ⟨h1, by simpa [sqrtBits] using h2⟩
  | succ b ih =>
    intro n acc h1 h2
    unfold sqrtBits
    split
    · next h => exact ih n _ h (by rw [add_assoc, ← two_mul, ← pow_succ']; exact h2)
    · next h => exact ih n acc h1 (not_le.mp h)

theorem floorSqrt_spec {n : ℕ} (h : n < 2 ^ 50) :
    floorSqrt n * floorSqrt n ≤ n ∧ n < (floorSqrt n + 1) * (floorSqrt n + 1) :=
  sqrtBits_spec 25 n 0 (by simp) (by simpa using h)

/-- `rneSqrt` is `rne_int(sqrt(a) / 2^k)`. -/
theorem nearestEven_rneSqrt {a k : ℕ} (h : a / 4 ^ k < 2 ^ 50) :
    NearestEven (Real.sqrt a / 2 ^ k) (rneSqrt a k) := by
  obtain ⟨h1, h2⟩ := floorSqrt_spec h
  have h4 : 0 < 4 ^ k := by positivity
  have hf1 : floorSqrt (a / 4 ^ k) * floorSqrt (a / 4 ^ k) * 4 ^ k ≤ a := (Nat.le_div_iff_mul_le h4).mp h1
  have hf2 : a < (floorSqrt (a / 4 ^ k) + 1) * (floorSqrt (a / 4 ^ k) + 1) * 4 ^ k := (Nat.div_lt_iff_lt_mul h4).mp h2
  unfold rneSqrt
  generalize floorSqrt (a / 4 ^ k) = f at *
  have hp : (0 : ℝ) < 2 ^ k := by positivity
  have h44 : ((4 : ℝ) ^ k) = 2 ^ k * 2 ^ k := by rw [← mul_pow]; norm_num
  have key : ∀ x : ℝ, 0 ≤ x → (x * x * 4 ^ k ≤ a ↔ x ≤ Real.sqrt a / 2 ^ k) := by
    intro x hx
    rw [le_div_iff₀ hp, Real.le_sqrt (by positivity) (Nat.cast_nonneg a), h44]
    constructor <;> intro h <;> nlinarith
  have keylt : ∀ x : ℝ, 0 ≤ x → (a < x * x * 4 ^ k ↔ Real.sqrt a / 2 ^ k < x) := by
    intro x hx
    rw [← not_le, ← not_le, key x hx]
  have key' : ∀ x : ℝ, 0 ≤ x → (x * x * 4 ^ k < a ↔ x < Real.sqrt a / 2 ^ k) := by
    intro x hx
    rw [lt_div_iff₀ hp, Real.lt_sqrt (x := x * 2 ^ k) (by positivity), h44]
    constructor <;> intro h <;> nlinarith
  have hlo := (key f (by positivity)).mp (by exact_mod_cast hf1)
  have hhi := (keylt (f + 1) (by positivity)).mp (by exact_mod_cast hf2)
  obtain ⟨c1, c2, c3⟩ := nearestEven_of_floor hlo hhi
  split
  · next h =>
    refine c1 ((keylt (f + 1 / 2) (by positivity)).mp ?_)
    have : (4 * a : ℝ) < (2 * f + 1) ^ 2 * 4 ^ k := by exact_mod_cast h
    nlinarith
  · split
    · next h =>
      refine c2 ((key' (f + 1 / 2) (by positivity)).mp ?_)
      have : ((2 * f + 1) ^ 2 * 4 ^ k : ℝ) < 4 * a := by exact_mod_cast h
      nlinarith
    · next h h' =>
      refine c3 ?_
      have e : (2 * f + 1) ^ 2 * 4 ^ k = 4 * a := by omega
      have e : ((2 * f + 1) ^ 2 * 4 ^ k : ℝ) = 4 * a := by exact_mod_cast e
      refine le_antisymm ?_ ((key (f + 1 / 2) (by positivity)).mp (by nlinarith))
      by_contra hc
      have := (key' (f + 1 / 2) (by positivity)).mpr (not_le.mp hc)
      nlinarith

/-- The floor of half the binary logarithm is the logarithm of the root. -/
theorem sqrt_bounds {a : ℕ} (ha : 0 < a) :
    (2 : ℝ) ^ (Nat.log2 a / 2) ≤ Real.sqrt a ∧ Real.sqrt a < (2 : ℝ) ^ (Nat.log2 a / 2 + 1) := by
  have hl1 : 2 ^ Nat.log2 a ≤ a := Nat.log2_self_le ha.ne'
  have hl2 : a < 2 ^ (Nat.log2 a + 1) := Nat.lt_log2_self
  constructor
  · apply Real.le_sqrt_of_sq_le
    rw [← pow_mul]
    calc (2 : ℝ) ^ (Nat.log2 a / 2 * 2) ≤ 2 ^ Nat.log2 a := pow_le_pow_right₀ (by norm_num) (by omega)
      _ ≤ a := by exact_mod_cast hl1
  · rw [Real.sqrt_lt' (by positivity), ← pow_mul]
    calc (a : ℝ) < 2 ^ (Nat.log2 a + 1) := by exact_mod_cast hl2
      _ ≤ 2 ^ ((Nat.log2 a / 2 + 1) * 2) := pow_le_pow_right₀ (by norm_num) (by omega)

/-- `roundSqrt` is `round_f32` of the square root of `m` quanta. -/
theorem roundsTo_roundSqrt {r : ℝ} {m : ℕ} (hm : 0 < m) (hr : r = Real.sqrt ((m : ℝ) * (2 : ℝ) ^ (-149 : ℤ))) :
    RoundsTo r (roundSqrt m) := by
  have hq : 0 < quanta := by unfold quanta; positivity
  have ha : 0 < m * quanta := Nat.mul_pos hm hq
  have hqr : (quanta : ℝ) = (2 : ℝ) ^ (149 : ℤ) := by unfold quanta; rw [Nat.cast_pow]; norm_cast
  have hp : (0 : ℝ) < (2 : ℝ) ^ (-149 : ℤ) := by positivity
  have hroot : r = Real.sqrt (m * quanta : ℕ) * (2 : ℝ) ^ (-149 : ℤ) := by
    rw [hr, ← Real.sqrt_sq hp.le, ← Real.sqrt_mul (by positivity), Real.sqrt_sq hp.le]
    congr 1
    push_cast
    rw [hqr, sq, mul_assoc, ← mul_assoc ((2 : ℝ) ^ (149 : ℤ)), ← zpow_add₀ (by norm_num)]
    norm_num
  unfold roundSqrt
  have hl : 149 ≤ Nat.log2 (m * quanta) := by
    rw [Nat.le_log2 ha.ne']
    have : 1 * 2 ^ 149 ≤ m * 2 ^ 149 := Nat.mul_le_mul_right _ hm
    simpa [quanta] using this
  obtain ⟨b1, b2⟩ := sqrt_bounds ha
  have hl2 : m * quanta < 2 ^ (Nat.log2 (m * quanta) + 1) := Nat.lt_log2_self
  generalize m * quanta = N at *
  generalize hL : Nat.log2 N / 2 = L at *
  have hs : 0 < Real.sqrt N := lt_of_lt_of_le (by positivity) b1
  have hrp : 0 < r := by rw [hroot]; positivity
  have hk : (0 : ℝ) < 2 ^ (L - 23) := by positivity
  have hfit : N / 4 ^ (L - 23) < 2 ^ 50 := by
    rw [Nat.div_lt_iff_lt_mul (by positivity), show (4 : ℕ) = 2 ^ 2 by norm_num, ← pow_mul, ← pow_add]
    exact lt_of_lt_of_le hl2 (Nat.pow_le_pow_right (by norm_num) (by omega))
  have hne := nearestEven_rneSqrt hfit
  have hbounds := nearestEven_bounds (lo := 2 ^ 23) (hi := 2 ^ 24) hne ?_ ?_
  · refine roundsTo_assemble (a := Real.sqrt N) hrp.ne' ?_ ?_ ?_ hne (fun _ => hbounds.1) hbounds.2
    · simp [hrp.le]
    · rw [abs_of_pos hrp]; exact hroot
    · rw [abs_of_pos hrp, log_eq_of_bounds (l := (L : ℤ) - 149), max_eq_left (by omega)]
      · omega
      · rw [hroot, sub_eq_add_neg, zpow_add₀ (by norm_num), zpow_natCast]
        exact mul_le_mul_of_nonneg_right b1 hp.le
      · rw [hroot, show (L : ℤ) - 149 + 1 = ((L + 1 : ℕ) : ℤ) + (-149) by push_cast; ring,
          zpow_add₀ (by norm_num), zpow_natCast]
        exact mul_lt_mul_of_pos_right b2 hp
  · rw [le_div_iff₀ hk, Nat.cast_pow, Nat.cast_two, ← pow_add, show 23 + (L - 23) = L by omega]; exact b1
  · rw [div_le_iff₀ hk, Nat.cast_pow, Nat.cast_two, ← pow_add, show 24 + (L - 23) = L + 1 by omega]; exact b2.le

end Sys2Proof.Machine
end

