-- ==== Sys2Proof/Tests/Slice0.lean ====
section
/-! SUPPORT. The model's own tests: the WellFormed smoke test, a word of every instruction written out from the spec's
encodings, single steps with the values of spec/95_test_vectors.md, and, for every obligation with hypotheses, a state and
operands that meet them. -/

namespace Sys2Proof.Tests

open Sys2Proof.Machine

/-! ## WellFormed -/

/-- Odd offsets are refused. -/
theorem test_wf_odd_offset :
    [Instr.jal 1#5 3#21, .beq 1#5 2#5 3#13, .bne 1#5 2#5 3#13, .blt 1#5 2#5 3#13, .bge 1#5 2#5 3#13, .bltu 1#5 2#5 3#13,
      .bgeu 1#5 2#5 3#13].all (fun i => !i.wf && !i.wellFormed Params.default) = true := by decide

/-- The same with an even offset are accepted, up to the ends of the range. -/
theorem test_wf_even_offset :
    [Instr.jal 1#5 0x0FFFFE#21, .jal 1#5 0x100000#21, .beq 1#5 2#5 0x0FFE#13, .bgeu 1#5 2#5 0x1000#13].all
      (fun i => i.wellFormed Params.default) = true := by decide

/-- An instruction of an absent extension is refused. -/
theorem test_wf_absent_extension :
    (Instr.mul 1#5 2#5 3#5).wellFormed { Params.default with extM := false } = false ∧
    (Instr.lrW 1#5 2#5 0#1 0#1).wellFormed { Params.default with extA := false } = false ∧
    (Instr.fclassS 1#5 2#5).wellFormed { Params.default with extF := false } = false ∧
    (Instr.csrrw 1#5 2#5 0x300#12).wellFormed { Params.default with extZicsr := false } = false ∧
    (Instr.fenceI 0#5 0#5 0#12).wellFormed { Params.default with extZifencei := false } = false := by decide

/-! ## Decode: the words of the spec's examples (40 to 46), one for every instruction -/

/-- Every word decodes to its instruction, and the instruction encodes to the word. -/
def decodesTo (rows : List (Word × Instr)) : Bool :=
  rows.all fun r => decide (decodeWord Params.default r.1 = .instr r.2) && encode r.2 == r.1

theorem test_decode_upper : decodesTo [
    (0x123452B7#32, .lui 5#5 0x12345#20),
    (0x12345097#32, .auipc 1#5 0x12345#20)] = true := by decide

theorem test_decode_op_imm : decodesTo [
    (0xFFF30293#32, .addi 5#5 6#5 0xFFF#12),
    (0xFFF32293#32, .slti 5#5 6#5 0xFFF#12),
    (0xFFF33293#32, .sltiu 5#5 6#5 0xFFF#12),
    (0xFFF34293#32, .xori 5#5 6#5 0xFFF#12),
    (0x7FF36293#32, .ori 5#5 6#5 0x7FF#12),
    (0x0FF37293#32, .andi 5#5 6#5 0x0FF#12),
    (0x01F31293#32, .slli 5#5 6#5 31#5 0#7),
    (0xFE431293#32, .slli 5#5 6#5 4#5 0x7F#7),
    (0x00435293#32, .srli 5#5 6#5 4#5 0#1 0#5),
    (0x40435293#32, .srai 5#5 6#5 4#5 0#1 0#5),
    (0xFE435293#32, .srai 5#5 6#5 4#5 1#1 0x1F#5)] = true := by decide

theorem test_decode_op : decodesTo [
    (0x007302B3#32, .add 5#5 6#5 7#5),
    (0x407302B3#32, .sub 5#5 6#5 7#5),
    (0x007312B3#32, .sll 5#5 6#5 7#5),
    (0x007322B3#32, .slt 5#5 6#5 7#5),
    (0x007332B3#32, .sltu 5#5 6#5 7#5),
    (0x007342B3#32, .xor 5#5 6#5 7#5),
    (0x007352B3#32, .srl 5#5 6#5 7#5),
    (0x407352B3#32, .sra 5#5 6#5 7#5),
    (0x007362B3#32, .or 5#5 6#5 7#5),
    (0x007372B3#32, .and 5#5 6#5 7#5)] = true := by decide

theorem test_decode_m : decodesTo [
    (0x027302B3#32, .mul 5#5 6#5 7#5),
    (0x027312B3#32, .mulh 5#5 6#5 7#5),
    (0x027322B3#32, .mulhsu 5#5 6#5 7#5),
    (0x027332B3#32, .mulhu 5#5 6#5 7#5),
    (0x027342B3#32, .div 5#5 6#5 7#5),
    (0x027352B3#32, .divu 5#5 6#5 7#5),
    (0x027362B3#32, .rem 5#5 6#5 7#5),
    (0x027372B3#32, .remu 5#5 6#5 7#5)] = true := by decide

theorem test_decode_jumps : decodesTo [
    (0x001000EF#32, .jal 1#5 2048#21),
    (0xFF9FF0EF#32, .jal 1#5 0x1FFFF8#21),
    (0x00008067#32, .jalr 0#5 1#5 0#12),
    (0xFFD280E7#32, .jalr 1#5 5#5 0xFFD#12)] = true := by decide

theorem test_decode_branches : decodesTo [
    (0x00628863#32, .beq 5#5 6#5 16#13),
    (0xFE029CE3#32, .bne 5#5 0#5 0x1FF8#13),
    (0xFE62CEE3#32, .blt 5#5 6#5 0x1FFC#13),
    (0x0062D463#32, .bge 5#5 6#5 8#13),
    (0x0062E463#32, .bltu 5#5 6#5 8#13),
    (0x0062F363#32, .bgeu 5#5 6#5 6#13)] = true := by decide

theorem test_decode_memory : decodesTo [
    (0xFFF30283#32, .lb 5#5 6#5 0xFFF#12),
    (0x00231283#32, .lh 5#5 6#5 2#12),
    (0x00832283#32, .lw 5#5 6#5 8#12),
    (0x00334283#32, .lbu 5#5 6#5 3#12),
    (0x00235283#32, .lhu 5#5 6#5 2#12),
    (0xFE530FA3#32, .sb 6#5 5#5 0xFFF#12),
    (0x00531123#32, .sh 6#5 5#5 2#12),
    (0x00532423#32, .sw 6#5 5#5 8#12),
    (0x0FF0000F#32, .fence 0#5 0#5 15#4 15#4 0#4),
    (0x8330000F#32, .fence 0#5 0#5 3#4 3#4 8#4),
    (0x0000100F#32, .fenceI 0#5 0#5 0#12)] = true := by decide

theorem test_decode_system : decodesTo [
    (0x00000073#32, .ecall 0#5 0#5 3#2),
    (0x00100073#32, .ebreak 0#5 0#5 3#2),
    (0xC00312F3#32, .csrrw 5#5 6#5 0xC00#12),
    (0x003023F3#32, .csrrs 7#5 0#5 0x003#12),
    (0x300332F3#32, .csrrc 5#5 6#5 0x300#12),
    (0x300AD2F3#32, .csrrwi 5#5 21#5 0x300#12),
    (0x3001E2F3#32, .csrrsi 5#5 3#5 0x300#12),
    (0x3000F2F3#32, .csrrci 5#5 1#5 0x300#12)] = true := by decide

theorem test_decode_atomics : decodesTo [
    (0x100322AF#32, .lrW 5#5 6#5 0#1 0#1),
    (0x187322AF#32, .scW 5#5 6#5 7#5 0#1 0#1),
    (0x1E7322AF#32, .scW 5#5 6#5 7#5 1#1 1#1),
    (0x087322AF#32, .amoswapW 5#5 6#5 7#5 0#1 0#1),
    (0x007322AF#32, .amoaddW 5#5 6#5 7#5 0#1 0#1),
    (0x207322AF#32, .amoxorW 5#5 6#5 7#5 0#1 0#1),
    (0x607322AF#32, .amoandW 5#5 6#5 7#5 0#1 0#1),
    (0x407322AF#32, .amoorW 5#5 6#5 7#5 0#1 0#1),
    (0x807322AF#32, .amominW 5#5 6#5 7#5 0#1 0#1),
    (0xA07322AF#32, .amomaxW 5#5 6#5 7#5 0#1 0#1),
    (0xC07322AF#32, .amominuW 5#5 6#5 7#5 0#1 0#1),
    (0xE07322AF#32, .amomaxuW 5#5 6#5 7#5 0#1 0#1)] = true := by decide

theorem test_decode_float_memory_fused : decodesTo [
    (0x00452087#32, .flw 1#5 10#5 4#12),
    (0x00152427#32, .fsw 10#5 1#5 8#12),
    (0x1820F243#32, .fmaddS 4#5 1#5 2#5 3#5 7#3),
    (0x1820F247#32, .fmsubS 4#5 1#5 2#5 3#5 7#3),
    (0x1820F24B#32, .fnmsubS 4#5 1#5 2#5 3#5 7#3),
    (0x1820F24F#32, .fnmaddS 4#5 1#5 2#5 3#5 7#3)] = true := by decide

theorem test_decode_float_op : decodesTo [
    (0x002081D3#32, .faddS 3#5 1#5 2#5 0#3),
    (0x0820F1D3#32, .fsubS 3#5 1#5 2#5 7#3),
    (0x1020F1D3#32, .fmulS 3#5 1#5 2#5 7#3),
    (0x1820F1D3#32, .fdivS 3#5 1#5 2#5 7#3),
    (0x5800F1D3#32, .fsqrtS 3#5 1#5 7#3),
    (0x202081D3#32, .fsgnjS 3#5 1#5 2#5),
    (0x202091D3#32, .fsgnjnS 3#5 1#5 2#5),
    (0x2020A1D3#32, .fsgnjxS 3#5 1#5 2#5),
    (0x282081D3#32, .fminS 3#5 1#5 2#5),
    (0x282091D3#32, .fmaxS 3#5 1#5 2#5),
    (0xC000F2D3#32, .fcvtWS 5#5 1#5 7#3),
    (0xC010F2D3#32, .fcvtWuS 5#5 1#5 7#3),
    (0xE00082D3#32, .fmvXW 5#5 1#5),
    (0xA020A2D3#32, .feqS 5#5 1#5 2#5),
    (0xA02092D3#32, .fltS 5#5 1#5 2#5),
    (0xA02082D3#32, .fleS 5#5 1#5 2#5),
    (0xE00092D3#32, .fclassS 5#5 1#5),
    (0xD00371D3#32, .fcvtSW 3#5 6#5 7#3),
    (0xD01371D3#32, .fcvtSWu 3#5 6#5 7#3),
    (0xF00301D3#32, .fmvWX 3#5 6#5)] = true := by decide

/-- Words the spec calls illegal are refused (R114, R116, R220, and the rows of 95_test_vectors.md). -/
theorem test_decode_illegal :
    [0x407312B3#32, 0x047302B3#32, 0x000290E7#32, 0x0062A863#32, 0x00033283#32, 0x00533023#32, 0x0000200F#32, 0x30200073#32,
      0x10500073#32, 0x00004073#32, 0x101322AF#32, 0x007332AF#32, 0x287322AF#32, 0xC020F2D3#32, 0xA020B2D3#32, 0x1A20F243#32,
      0x0220F1D3#32, 0xFFFFFFFF#32, 0x0000000B#32, 0x0000001B#32, 0x0000003B#32, 0x00000057#32, 0x0000006B#32,
      0x0000001F#32].all (fun w => match decodeWord Params.default w with
        | .illegal _ => true
        | .instr _ => false) = true := by decide

/-- `inst[1:0]` is not examined (95_test_vectors.md 2.8), and only ECALL's word shows it. -/
theorem test_decode_low_bits :
    decodeWord Params.default 0x00A00290#32 = .instr (.addi 5#5 0#5 10#12) ∧
    decodeWord Params.default 0x00000000#32 = .instr (.lb 0#5 0#5 0#12) ∧
    decodeWord Params.default 0x000302F1#32 = .instr (.ecall 5#5 6#5 1#2) := by decide

/-- The host's reading of a table word. -/
theorem test_decode_table_word : decodeTableWord 32 0x027342B3 = some (.div 5#5 6#5 7#5) := by decide

/-! ## Steps: values from spec/95_test_vectors.md, one or two an instruction -/

/-- A state with these registers and words of memory, about to run `w` at `pc`. -/
def start (pc w : Nat) (xs fs : List (Nat × Nat)) (words : List (Nat × Nat)) : State :=
  let s := xs.foldl (fun s r => s.writeX (BitVec.ofNat 5 r.1) (BitVec.ofNat 32 r.2)) (State.reset.setPc (BitVec.ofNat 32 pc))
  let s := fs.foldl (fun s r => s.writeF (BitVec.ofNat 5 r.1) (BitVec.ofNat 32 r.2)) s
  let m := words.foldl (fun m r => m.write (BitVec.ofNat 32 r.1) .word (BitVec.ofNat 32 r.2)) s.bus.mem
  { s with bus := { s.bus with mem := m } }.withFetchWord 32 w

/-- What `g` sees of the state after one step. -/
def after {α : Type} (s : State) (g : State → α) : Option α :=
  match step s with
  | .next t => some (g t)
  | .fault _ => none
  | .refused _ => none

/-- One step is seen to leave these values. -/
def sees {α : Type} [DecidableEq α] (s : State) (g : State → α) (v : α) : Bool := decide (after s g = some v)

/-- 40, LUI and AUIPC. -/
theorem test_steps_upper :
    (sees (start 0x00001000 0x123452B7 [] [] []) (fun t => (t.readX 5#5, t.pc, t.exc, t.bus.log.dropLast))
      (0x12345000#32, 0x00001004#32, .none, []) &&
    sees (start 0x00001000 0x12345097 [] [] []) (fun t => (t.readX 1#5, t.pc, t.exc, t.bus.log.dropLast))
      (0x12346000#32, 0x00001004#32, .none, []) &&
    sees (start 0xFFFFFFFC 0x00000297 [] [] []) (fun t => (t.readX 5#5, t.pc, t.exc, t.bus.log.dropLast))
      (0xFFFFFFFC#32, 0x00000000#32, .none, [])) = true := by decide

/-- 40, register-immediate. -/
theorem test_steps_op_imm :
    (sees (start 0x00001000 0xFFF30293 [(6, 0x00000000)] [] []) (fun t => (t.readX 5#5, t.pc, t.exc, t.bus.log.dropLast))
      (0xFFFFFFFF#32, 0x00001004#32, .none, []) &&
    sees (start 0x00001000 0xFFF32293 [(6, 0x80000000)] [] []) (fun t => (t.readX 5#5, t.pc, t.exc, t.bus.log.dropLast))
      (0x00000001#32, 0x00001004#32, .none, []) &&
    sees (start 0x00001000 0xFFF33293 [(6, 0xFFFFFFFE)] [] []) (fun t => (t.readX 5#5, t.pc, t.exc, t.bus.log.dropLast))
      (0x00000001#32, 0x00001004#32, .none, []) &&
    sees (start 0x00001000 0xFFF34293 [(6, 0x0F0F0F0F)] [] []) (fun t => (t.readX 5#5, t.pc, t.exc, t.bus.log.dropLast))
      (0xF0F0F0F0#32, 0x00001004#32, .none, []) &&
    sees (start 0x00001000 0x7FF36293 [(6, 0x80000000)] [] []) (fun t => (t.readX 5#5, t.pc, t.exc, t.bus.log.dropLast))
      (0x800007FF#32, 0x00001004#32, .none, []) &&
    sees (start 0x00001000 0x0FF37293 [(6, 0x12345678)] [] []) (fun t => (t.readX 5#5, t.pc, t.exc, t.bus.log.dropLast))
      (0x00000078#32, 0x00001004#32, .none, []) &&
    sees (start 0x00001000 0x01F31293 [(6, 0x00000003)] [] []) (fun t => (t.readX 5#5, t.pc, t.exc, t.bus.log.dropLast))
      (0x80000000#32, 0x00001004#32, .none, []) &&
    sees (start 0x00001000 0xFE431293 [(6, 0x0000000F)] [] []) (fun t => (t.readX 5#5, t.pc, t.exc, t.bus.log.dropLast))
      (0x000000F0#32, 0x00001004#32, .none, []) &&
    sees (start 0x00001000 0x00435293 [(6, 0x80000000)] [] []) (fun t => (t.readX 5#5, t.pc, t.exc, t.bus.log.dropLast))
      (0x08000000#32, 0x00001004#32, .none, []) &&
    sees (start 0x00001000 0x40435293 [(6, 0x80000000)] [] []) (fun t => (t.readX 5#5, t.pc, t.exc, t.bus.log.dropLast))
      (0xF8000000#32, 0x00001004#32, .none, []) &&
    sees (start 0x00001000 0xFE435293 [(6, 0x80000000)] [] []) (fun t => (t.readX 5#5, t.pc, t.exc, t.bus.log.dropLast))
      (0xF8000000#32, 0x00001004#32, .none, [])) = true := by decide

/-- 40, register-register. -/
theorem test_steps_op :
    (sees (start 0x00001000 0x007302B3 [(6, 0xFFFFFFFF), (7, 0x00000001), (5, 0x00000009)] [] []) (fun t => (t.readX 5#5, t.pc, t.exc, t.bus.log.dropLast))
      (0x00000000#32, 0x00001004#32, .none, []) &&
    sees (start 0x00001000 0x407302B3 [(6, 0x00000000), (7, 0x00000001)] [] []) (fun t => (t.readX 5#5, t.pc, t.exc, t.bus.log.dropLast))
      (0xFFFFFFFF#32, 0x00001004#32, .none, []) &&
    sees (start 0x00001000 0x007312B3 [(6, 0x00000001), (7, 0x00000021)] [] []) (fun t => (t.readX 5#5, t.pc, t.exc, t.bus.log.dropLast))
      (0x00000002#32, 0x00001004#32, .none, []) &&
    sees (start 0x00001000 0x007322B3 [(6, 0xFFFFFFFF), (7, 0x00000001)] [] []) (fun t => (t.readX 5#5, t.pc, t.exc, t.bus.log.dropLast))
      (0x00000001#32, 0x00001004#32, .none, []) &&
    sees (start 0x00001000 0x007332B3 [(6, 0xFFFFFFFF), (7, 0x00000001), (5, 0x00000009)] [] []) (fun t => (t.readX 5#5, t.pc, t.exc, t.bus.log.dropLast))
      (0x00000000#32, 0x00001004#32, .none, []) &&
    sees (start 0x00001000 0x007342B3 [(6, 0xFF00FF00), (7, 0x0FF00FF0)] [] []) (fun t => (t.readX 5#5, t.pc, t.exc, t.bus.log.dropLast))
      (0xF0F0F0F0#32, 0x00001004#32, .none, []) &&
    sees (start 0x00001000 0x007352B3 [(6, 0x80000000), (7, 0x00000024)] [] []) (fun t => (t.readX 5#5, t.pc, t.exc, t.bus.log.dropLast))
      (0x08000000#32, 0x00001004#32, .none, []) &&
    sees (start 0x00001000 0x407352B3 [(6, 0x80000000), (7, 0x00000024)] [] []) (fun t => (t.readX 5#5, t.pc, t.exc, t.bus.log.dropLast))
      (0xF8000000#32, 0x00001004#32, .none, []) &&
    sees (start 0x00001000 0x007362B3 [(6, 0xFF00FF00), (7, 0x0FF00FF0)] [] []) (fun t => (t.readX 5#5, t.pc, t.exc, t.bus.log.dropLast))
      (0xFFF0FFF0#32, 0x00001004#32, .none, []) &&
    sees (start 0x00001000 0x007372B3 [(6, 0xFF00FF00), (7, 0x0FF00FF0)] [] []) (fun t => (t.readX 5#5, t.pc, t.exc, t.bus.log.dropLast))
      (0x0F000F00#32, 0x00001004#32, .none, [])) = true := by decide

/-- 41, jumps. -/
theorem test_steps_jumps :
    (sees (start 0x00000000 0x0020006F [] [] []) (fun t => (t.pc, t.exc, t.bus.log.dropLast))
      (0x00000002#32, .instMisaligned, []) &&
    sees (start 0x00000200 0x00008067 [(1, 0x00000105)] [] []) (fun t => (t.readX 1#5, t.pc, t.exc, t.bus.log.dropLast))
      (0x00000105#32, 0x00000104#32, .none, []) &&
    sees (start 0x00000200 0x000080E7 [(1, 0x00000400)] [] []) (fun t => (t.readX 1#5, t.pc, t.exc, t.bus.log.dropLast))
      (0x00000204#32, 0x00000400#32, .none, [])) = true := by decide

/-- 41, branches. -/
theorem test_steps_branches :
    (sees (start 0x00000100 0x00628863 [(5, 0x00000007), (6, 0x00000007)] [] []) (fun t => (t.readX 5#5, t.pc, t.exc, t.bus.log.dropLast))
      (0x00000007#32, 0x00000110#32, .none, []) &&
    sees (start 0x00000100 0x00629863 [(5, 0x00000007), (6, 0x00000008)] [] []) (fun t => (t.readX 5#5, t.pc, t.exc, t.bus.log.dropLast))
      (0x00000007#32, 0x00000110#32, .none, []) &&
    sees (start 0x00000100 0x0062C863 [(5, 0xFFFFFFFF), (6, 0x00000000)] [] []) (fun t => (t.readX 5#5, t.pc, t.exc, t.bus.log.dropLast))
      (0xFFFFFFFF#32, 0x00000110#32, .none, []) &&
    sees (start 0x00000100 0x0062C863 [(5, 0x00000000), (6, 0xFFFFFFFF)] [] []) (fun t => (t.readX 5#5, t.pc, t.exc, t.bus.log.dropLast))
      (0x00000000#32, 0x00000104#32, .none, []) &&
    sees (start 0x00000100 0x0062D863 [(5, 0x80000000), (6, 0x7FFFFFFF)] [] []) (fun t => (t.readX 5#5, t.pc, t.exc, t.bus.log.dropLast))
      (0x80000000#32, 0x00000104#32, .none, []) &&
    sees (start 0x00000100 0x0062E863 [(5, 0x00000000), (6, 0xFFFFFFFF)] [] []) (fun t => (t.readX 5#5, t.pc, t.exc, t.bus.log.dropLast))
      (0x00000000#32, 0x00000110#32, .none, []) &&
    sees (start 0x00000100 0x0062F863 [(5, 0xFFFFFFFF), (6, 0x00000000)] [] []) (fun t => (t.readX 5#5, t.pc, t.exc, t.bus.log.dropLast))
      (0xFFFFFFFF#32, 0x00000110#32, .none, [])) = true := by decide

/-- 42, loads. -/
theorem test_steps_loads :
    (sees (start 0x00001000 0x00030283 [(6, 0x00002000)] [] [(8192, 0x80FF7F01)]) (fun t => (t.readX 5#5, t.pc, t.exc, t.bus.log.dropLast))
      (0x00000001#32, 0x00001004#32, .none, [.read 0x00002000#32 .byte 0x00000001#32]) &&
    sees (start 0x00001000 0x00231283 [(6, 0x00002000)] [] [(8192, 0x80FF7F01)]) (fun t => (t.readX 5#5, t.pc, t.exc, t.bus.log.dropLast))
      (0xFFFF80FF#32, 0x00001004#32, .none, [.read 0x00002002#32 .half 0x000080FF#32]) &&
    sees (start 0x00001000 0x00032283 [(6, 0x00002000)] [] [(8192, 0x80FF7F01)]) (fun t => (t.readX 5#5, t.pc, t.exc, t.bus.log.dropLast))
      (0x80FF7F01#32, 0x00001004#32, .none, [.read 0x00002000#32 .word 0x80FF7F01#32]) &&
    sees (start 0x00001000 0x00032303 [(6, 0x00002000)] [] [(8192, 0x80FF7F01)]) (fun t => (t.readX 6#5, t.pc, t.exc, t.bus.log.dropLast))
      (0x80FF7F01#32, 0x00001004#32, .none, [.read 0x00002000#32 .word 0x80FF7F01#32]) &&
    sees (start 0x00001000 0x00234283 [(6, 0x00002000)] [] [(8192, 0x80FF7F01)]) (fun t => (t.readX 5#5, t.pc, t.exc, t.bus.log.dropLast))
      (0x000000FF#32, 0x00001004#32, .none, [.read 0x00002002#32 .byte 0x000000FF#32]) &&
    sees (start 0x00001000 0x00235283 [(6, 0x00002000)] [] [(8192, 0x80FF7F01)]) (fun t => (t.readX 5#5, t.pc, t.exc, t.bus.log.dropLast))
      (0x000080FF#32, 0x00001004#32, .none, [.read 0x00002002#32 .half 0x000080FF#32])) = true := by decide

/-- 42, stores and fences. -/
theorem test_steps_stores_fences :
    (sees (start 0x00001000 0xFE530FA3 [(5, 0x123456AB), (6, 0x00002004)] [] [(8192, 0x00000000)]) (fun t => (t.readX 5#5, t.pc, t.exc, t.bus.log.dropLast))
      (0x123456AB#32, 0x00001004#32, .none, [.write 0x00002003#32 .byte 0x000000AB#32]) &&
    sees (start 0x00001000 0x00531123 [(5, 0x1234ABCD), (6, 0x00002000)] [] [(8192, 0x00000000)]) (fun t => (t.readX 5#5, t.pc, t.exc, t.bus.log.dropLast))
      (0x1234ABCD#32, 0x00001004#32, .none, [.write 0x00002002#32 .half 0x0000ABCD#32]) &&
    sees (start 0x00001000 0x00532423 [(5, 0x11223344), (6, 0x00002000)] [] []) (fun t => (t.readX 5#5, t.pc, t.exc, t.bus.log.dropLast))
      (0x11223344#32, 0x00001004#32, .none, [.write 0x00002008#32 .word 0x11223344#32]) &&
    sees (start 0x00001000 0x0FF0000F [] [] []) (fun t => (t.pc, t.exc, t.bus.log.dropLast))
      (0x00001004#32, .none, []) &&
    sees (start 0x00001000 0x0000100F [] [] []) (fun t => (t.pc, t.exc, t.bus.log.dropLast))
      (0x00001004#32, .none, [])) = true := by decide

/-- 43, calls and CSRs. -/
theorem test_steps_system :
    (sees (start 0x00000040 0x00000073 [] [] []) (fun t => (t.pc, t.exc, t.bus.log.dropLast))
      (0x00000044#32, .envCall, [.ecall 0x00000040#32 0x00000073#32]) &&
    sees (start 0x00000040 0x00100073 [] [] []) (fun t => (t.pc, t.exc, t.bus.log.dropLast))
      (0x00000044#32, .breakpoint, [.ebreak 0x00000040#32 0x00100073#32]) &&
    sees ({ start 0x00001000 0x300312F3 [(6, 0x00001888)] [] [] with csrMstatus := 0x00000008#32 }) (fun t => (t.readX 5#5, t.pc, t.csrMstatus, t.exc, t.bus.log.dropLast))
      (0x00000008#32, 0x00001004#32, 0x00001888#32, .none, []) &&
    sees ({ start 0x00001000 0x300322F3 [(6, 0x00000F0F)] [] [] with csrMstatus := 0x000000F0#32 }) (fun t => (t.readX 5#5, t.pc, t.csrMstatus, t.exc, t.bus.log.dropLast))
      (0x000000F0#32, 0x00001004#32, 0x00000FFF#32, .none, []) &&
    sees ({ start 0x00001000 0x300022F3 [] [] [] with csrMstatus := 0x000000F0#32 }) (fun t => (t.readX 5#5, t.pc, t.csrMstatus, t.exc, t.bus.log.dropLast))
      (0x000000F0#32, 0x00001004#32, 0x000000F0#32, .none, []) &&
    sees ({ start 0x00001000 0x300332F3 [(6, 0x000000FF)] [] [] with csrMstatus := 0x00000FFF#32 }) (fun t => (t.readX 5#5, t.pc, t.csrMstatus, t.exc, t.bus.log.dropLast))
      (0x00000FFF#32, 0x00001004#32, 0x00000F00#32, .none, []) &&
    sees ({ start 0x00001000 0x300AD2F3 [] [] [] with csrMstatus := 0xFFFFFFFF#32 }) (fun t => (t.readX 5#5, t.pc, t.csrMstatus, t.exc, t.bus.log.dropLast))
      (0xFFFFFFFF#32, 0x00001004#32, 0x00000015#32, .none, []) &&
    sees ({ start 0x00001000 0x3001E2F3 [] [] [] with csrMstatus := 0x00000008#32 }) (fun t => (t.readX 5#5, t.pc, t.csrMstatus, t.exc, t.bus.log.dropLast))
      (0x00000008#32, 0x00001004#32, 0x0000000B#32, .none, []) &&
    sees ({ start 0x00001000 0x3000F2F3 [] [] [] with csrMstatus := 0x0000000B#32 }) (fun t => (t.readX 5#5, t.pc, t.csrMstatus, t.exc, t.bus.log.dropLast))
      (0x0000000B#32, 0x00001004#32, 0x0000000A#32, .none, [])) = true := by decide

/-- 44, multiplication. -/
theorem test_steps_multiply :
    (sees (start 0x00001000 0x027302B3 [(6, 0x00000007), (7, 0x00000006), (5, 0xAAAAAAAA)] [] []) (fun t => (t.readX 5#5, t.pc, t.exc, t.bus.log.dropLast))
      (0x0000002A#32, 0x00001004#32, .none, []) &&
    sees (start 0x00001000 0x027312B3 [(6, 0xFFFFFFFF), (7, 0xFFFFFFFF), (5, 0xAAAAAAAA)] [] []) (fun t => (t.readX 5#5, t.pc, t.exc, t.bus.log.dropLast))
      (0x00000000#32, 0x00001004#32, .none, []) &&
    sees (start 0x00001000 0x027322B3 [(6, 0xFFFFFFFF), (7, 0xFFFFFFFF), (5, 0xAAAAAAAA)] [] []) (fun t => (t.readX 5#5, t.pc, t.exc, t.bus.log.dropLast))
      (0xFFFFFFFF#32, 0x00001004#32, .none, []) &&
    sees (start 0x00001000 0x027332B3 [(6, 0xFFFFFFFF), (7, 0xFFFFFFFF), (5, 0xAAAAAAAA)] [] []) (fun t => (t.readX 5#5, t.pc, t.exc, t.bus.log.dropLast))
      (0xFFFFFFFE#32, 0x00001004#32, .none, [])) = true := by decide

/-- 44, division. -/
theorem test_steps_divide :
    (sees (start 0x00001000 0x027342B3 [(6, 0x80000000), (7, 0xFFFFFFFF), (5, 0xAAAAAAAA)] [] []) (fun t => (t.readX 5#5, t.pc, t.exc, t.bus.log.dropLast))
      (0x80000000#32, 0x00001004#32, .none, []) &&
    sees (start 0x00001000 0x027342B3 [(6, 0x00000007), (7, 0x00000000), (5, 0xAAAAAAAA)] [] []) (fun t => (t.readX 5#5, t.pc, t.exc, t.bus.log.dropLast))
      (0xFFFFFFFF#32, 0x00001004#32, .none, []) &&
    sees (start 0x00001000 0x027352B3 [(6, 0x80000000), (7, 0xFFFFFFFF), (5, 0xAAAAAAAA)] [] []) (fun t => (t.readX 5#5, t.pc, t.exc, t.bus.log.dropLast))
      (0x00000000#32, 0x00001004#32, .none, []) &&
    sees (start 0x00001000 0x027362B3 [(6, 0x80000000), (7, 0xFFFFFFFF), (5, 0xAAAAAAAA)] [] []) (fun t => (t.readX 5#5, t.pc, t.exc, t.bus.log.dropLast))
      (0x00000000#32, 0x00001004#32, .none, []) &&
    sees (start 0x00001000 0x027372B3 [(6, 0x80000000), (7, 0xFFFFFFFF), (5, 0xAAAAAAAA)] [] []) (fun t => (t.readX 5#5, t.pc, t.exc, t.bus.log.dropLast))
      (0x80000000#32, 0x00001004#32, .none, [])) = true := by decide

/-- 45, LR.W and SC.W. -/
theorem test_steps_lr_sc :
    (sees (start 0x00001000 0x100322AF [(6, 0x00002000)] [] [(8192, 0x0000002A)]) (fun t => (t.readX 5#5, t.pc, t.exc, t.bus.log.dropLast))
      (0x0000002A#32, 0x00001004#32, .none, [.read 0x00002000#32 .word 0x0000002A#32]) &&
    sees (start 0x00001000 0x187322AF [(6, 0x00002000), (7, 0x0000002B), (5, 0xFFFFFFFF)] [] [(8192, 0x0000002A)]) (fun t => (t.readX 5#5, t.pc, t.exc, t.bus.log.dropLast))
      (0x00000000#32, 0x00001004#32, .none, [.write 0x00002000#32 .word 0x0000002B#32]) &&
    sees (start 0x00001000 0x187323AF [(6, 0x00002000), (7, 0x0000002B)] [] [(8192, 0x0000002A)]) (fun t => (t.readX 7#5, t.pc, t.exc, t.bus.log.dropLast))
      (0x00000000#32, 0x00001004#32, .none, [.write 0x00002000#32 .word 0x0000002B#32])) = true := by decide

/-- 45, AMOs. -/
theorem test_steps_amo :
    (sees (start 0x00001000 0x087322AF [(6, 0x00002000), (7, 0x11111111)] [] [(8192, 0x22222222)]) (fun t => (t.readX 5#5, t.pc, t.exc, t.bus.log.dropLast))
      (0x22222222#32, 0x00001004#32, .none, [.write 0x00002000#32 .word 0x11111111#32, .read 0x00002000#32 .word 0x22222222#32]) &&
    sees (start 0x00001000 0x087323AF [(6, 0x00002000), (7, 0x11111111)] [] [(8192, 0x22222222)]) (fun t => (t.readX 7#5, t.pc, t.exc, t.bus.log.dropLast))
      (0x22222222#32, 0x00001004#32, .none, [.write 0x00002000#32 .word 0x11111111#32, .read 0x00002000#32 .word 0x22222222#32]) &&
    sees (start 0x00001000 0x007322AF [(6, 0x00002000), (7, 0x00000002)] [] [(8192, 0xFFFFFFFF)]) (fun t => (t.readX 5#5, t.pc, t.exc, t.bus.log.dropLast))
      (0xFFFFFFFF#32, 0x00001004#32, .none, [.write 0x00002000#32 .word 0x00000001#32, .read 0x00002000#32 .word 0xFFFFFFFF#32]) &&
    sees (start 0x00001000 0x207322AF [(6, 0x00002000), (7, 0x0FF00FF0)] [] [(8192, 0xFF00FF00)]) (fun t => (t.readX 5#5, t.pc, t.exc, t.bus.log.dropLast))
      (0xFF00FF00#32, 0x00001004#32, .none, [.write 0x00002000#32 .word 0xF0F0F0F0#32, .read 0x00002000#32 .word 0xFF00FF00#32]) &&
    sees (start 0x00001000 0x607322AF [(6, 0x00002000), (7, 0x0FF00FF0)] [] [(8192, 0xFF00FF00)]) (fun t => (t.readX 5#5, t.pc, t.exc, t.bus.log.dropLast))
      (0xFF00FF00#32, 0x00001004#32, .none, [.write 0x00002000#32 .word 0x0F000F00#32, .read 0x00002000#32 .word 0xFF00FF00#32]) &&
    sees (start 0x00001000 0x407322AF [(6, 0x00002000), (7, 0x0000000F)] [] [(8192, 0xF0000000)]) (fun t => (t.readX 5#5, t.pc, t.exc, t.bus.log.dropLast))
      (0xF0000000#32, 0x00001004#32, .none, [.write 0x00002000#32 .word 0xF000000F#32, .read 0x00002000#32 .word 0xF0000000#32])) = true := by decide

/-- 45, AMO minimum and maximum. -/
theorem test_steps_amo_min_max :
    (sees (start 0x00001000 0x807322AF [(6, 0x00002000), (7, 0x00000001)] [] [(8192, 0xFFFFFFFF)]) (fun t => (t.readX 5#5, t.pc, t.exc, t.bus.log.dropLast))
      (0xFFFFFFFF#32, 0x00001004#32, .none, [.write 0x00002000#32 .word 0xFFFFFFFF#32, .read 0x00002000#32 .word 0xFFFFFFFF#32]) &&
    sees (start 0x00001000 0xA07322AF [(6, 0x00002000), (7, 0x00000001)] [] [(8192, 0xFFFFFFFF)]) (fun t => (t.readX 5#5, t.pc, t.exc, t.bus.log.dropLast))
      (0xFFFFFFFF#32, 0x00001004#32, .none, [.write 0x00002000#32 .word 0x00000001#32, .read 0x00002000#32 .word 0xFFFFFFFF#32]) &&
    sees (start 0x00001000 0xC07322AF [(6, 0x00002000), (7, 0x00000001)] [] [(8192, 0xFFFFFFFF)]) (fun t => (t.readX 5#5, t.pc, t.exc, t.bus.log.dropLast))
      (0xFFFFFFFF#32, 0x00001004#32, .none, [.write 0x00002000#32 .word 0x00000001#32, .read 0x00002000#32 .word 0xFFFFFFFF#32]) &&
    sees (start 0x00001000 0xE07322AF [(6, 0x00002000), (7, 0x00000001)] [] [(8192, 0xFFFFFFFF)]) (fun t => (t.readX 5#5, t.pc, t.exc, t.bus.log.dropLast))
      (0xFFFFFFFF#32, 0x00001004#32, .none, [.write 0x00002000#32 .word 0xFFFFFFFF#32, .read 0x00002000#32 .word 0xFFFFFFFF#32])) = true := by decide

/-- 46, FLW and FSW. -/
theorem test_steps_float_memory :
    (sees (start 0x00001000 0x00452087 [(10, 0x00002000)] [] [(8196, 0x7F800001)]) (fun t => (t.readF 1#5, t.pc, t.exc, t.bus.log.dropLast))
      (0x7F800001#32, 0x00001004#32, .none, [.read 0x00002004#32 .word 0x7F800001#32]) &&
    sees (start 0x00001000 0x00152427 [(10, 0x00002000)] [(1, 0xFFC12345)] []) (fun t => (t.readX 10#5, t.readF 1#5, t.pc, t.exc, t.bus.log.dropLast))
      (0x00002000#32, 0xFFC12345#32, 0x00001004#32, .none, [.write 0x00002008#32 .word 0xFFC12345#32])) = true := by decide

/-- 46, arithmetic. -/
theorem test_steps_float_arithmetic :
    (sees (start 0x00001000 0x0020F1D3 [] [(1, 0x3F800000), (2, 0x40000000), (3, 0xAAAAAAAA)] []) (fun t => (t.readF 3#5, t.pc, t.exc, t.bus.log.dropLast))
      (0x40400000#32, 0x00001004#32, .none, []) &&
    sees (start 0x00001000 0x0820F1D3 [] [(1, 0x40400000), (2, 0x40A00000), (3, 0xAAAAAAAA)] []) (fun t => (t.readF 3#5, t.pc, t.exc, t.bus.log.dropLast))
      (0xC0000000#32, 0x00001004#32, .none, []) &&
    sees (start 0x00001000 0x0820F1D3 [] [(1, 0x00000000), (2, 0x00000000), (3, 0xAAAAAAAA)] []) (fun t => (t.readF 3#5, t.pc, t.exc, t.bus.log.dropLast))
      (0x00000000#32, 0x00001004#32, .none, []) &&
    sees (start 0x00001000 0x1020F1D3 [] [(1, 0x40400000), (2, 0xC0000000), (3, 0xAAAAAAAA)] []) (fun t => (t.readF 3#5, t.pc, t.exc, t.bus.log.dropLast))
      (0xC0C00000#32, 0x00001004#32, .none, []) &&
    sees (start 0x00001000 0x1820F1D3 [] [(1, 0x3F800000), (2, 0x40400000), (3, 0xAAAAAAAA)] []) (fun t => (t.readF 3#5, t.pc, t.exc, t.bus.log.dropLast))
      (0x3EAAAAAB#32, 0x00001004#32, .none, []) &&
    sees (start 0x00001000 0x1820F1D3 [] [(1, 0x3F800000), (2, 0x7F800000), (3, 0xAAAAAAAA)] []) (fun t => (t.readF 3#5, t.pc, t.exc, t.bus.log.dropLast))
      (0x00000000#32, 0x00001004#32, .none, []) &&
    sees (start 0x00001000 0x5800F1D3 [] [(1, 0x40000000), (3, 0xAAAAAAAA)] []) (fun t => (t.readF 3#5, t.pc, t.exc, t.bus.log.dropLast))
      (0x3FB504F3#32, 0x00001004#32, .none, [])) = true := by decide

/-- 46, sign injection and moves. -/
theorem test_steps_float_signs :
    (sees (start 0x00001000 0x202081D3 [] [(1, 0x3F800000), (2, 0x80000000), (3, 0xAAAAAAAA)] []) (fun t => (t.readF 3#5, t.pc, t.exc, t.bus.log.dropLast))
      (0xBF800000#32, 0x00001004#32, .none, []) &&
    sees (start 0x00001000 0x202091D3 [] [(1, 0x3F800000), (2, 0x3F800000), (3, 0xAAAAAAAA)] []) (fun t => (t.readF 3#5, t.pc, t.exc, t.bus.log.dropLast))
      (0xBF800000#32, 0x00001004#32, .none, []) &&
    sees (start 0x00001000 0x2020A1D3 [] [(1, 0xBF800000), (2, 0x80000000), (3, 0xAAAAAAAA)] []) (fun t => (t.readF 3#5, t.pc, t.exc, t.bus.log.dropLast))
      (0x3F800000#32, 0x00001004#32, .none, []) &&
    sees (start 0x00001000 0xE00082D3 [(5, 0xAAAAAAAA)] [(1, 0x3F800000)] []) (fun t => (t.readX 5#5, t.pc, t.exc, t.bus.log.dropLast))
      (0x3F800000#32, 0x00001004#32, .none, []) &&
    sees (start 0x00001000 0xF00301D3 [(6, 0x7F800001)] [(3, 0xAAAAAAAA)] []) (fun t => (t.readF 3#5, t.pc, t.exc, t.bus.log.dropLast))
      (0x7F800001#32, 0x00001004#32, .none, [])) = true := by decide

/-- 46, minimum, maximum, comparisons, classes. -/
theorem test_steps_float_order :
    (sees (start 0x00001000 0x282081D3 [] [(1, 0x3F800000), (2, 0x40000000), (3, 0xAAAAAAAA)] []) (fun t => (t.readF 3#5, t.pc, t.exc, t.bus.log.dropLast))
      (0x3F800000#32, 0x00001004#32, .none, []) &&
    sees (start 0x00001000 0x282081D3 [] [(1, 0x7FC00000), (2, 0x3F800000), (3, 0xAAAAAAAA)] []) (fun t => (t.readF 3#5, t.pc, t.exc, t.bus.log.dropLast))
      (0x3F800000#32, 0x00001004#32, .none, []) &&
    sees (start 0x00001000 0x282091D3 [] [(1, 0x3F800000), (2, 0x40000000), (3, 0xAAAAAAAA)] []) (fun t => (t.readF 3#5, t.pc, t.exc, t.bus.log.dropLast))
      (0x40000000#32, 0x00001004#32, .none, []) &&
    sees (start 0x00001000 0xA020A2D3 [(5, 0xAAAAAAAA)] [(1, 0x3F800000), (2, 0x3F800000)] []) (fun t => (t.readX 5#5, t.pc, t.exc, t.bus.log.dropLast))
      (0x00000001#32, 0x00001004#32, .none, []) &&
    sees (start 0x00001000 0xA02092D3 [(5, 0xAAAAAAAA)] [(1, 0x3F800000), (2, 0x40000000)] []) (fun t => (t.readX 5#5, t.pc, t.exc, t.bus.log.dropLast))
      (0x00000001#32, 0x00001004#32, .none, []) &&
    sees (start 0x00001000 0xA02082D3 [(5, 0xAAAAAAAA)] [(1, 0x3F800000), (2, 0x3F800000)] []) (fun t => (t.readX 5#5, t.pc, t.exc, t.bus.log.dropLast))
      (0x00000001#32, 0x00001004#32, .none, []) &&
    sees (start 0x00001000 0xE00092D3 [(5, 0xAAAAAAAA)] [(1, 0xFF800000)] []) (fun t => (t.readX 5#5, t.pc, t.exc, t.bus.log.dropLast))
      (0x00000001#32, 0x00001004#32, .none, [])) = true := by decide

/-- 46, conversions. -/
theorem test_steps_float_convert :
    (sees (start 0x00001000 0xC000F2D3 [(5, 0xAAAAAAAA)] [(1, 0x40600000)] []) (fun t => (t.readX 5#5, t.pc, t.exc, t.bus.log.dropLast))
      (0x00000004#32, 0x00001004#32, .none, []) &&
    sees (start 0x00001000 0xC000F2D3 [(5, 0xAAAAAAAA)] [(1, 0x4EFFFFFF)] []) (fun t => (t.readX 5#5, t.pc, t.exc, t.bus.log.dropLast))
      (0x7FFFFF80#32, 0x00001004#32, .none, []) &&
    sees (start 0x00001000 0xC010F2D3 [(5, 0xAAAAAAAA)] [(1, 0x40600000)] []) (fun t => (t.readX 5#5, t.pc, t.exc, t.bus.log.dropLast))
      (0x00000004#32, 0x00001004#32, .none, []) &&
    sees (start 0x00001000 0xD00371D3 [(6, 0x00000000)] [(3, 0xAAAAAAAA)] []) (fun t => (t.readF 3#5, t.pc, t.exc, t.bus.log.dropLast))
      (0x00000000#32, 0x00001004#32, .none, []) &&
    sees (start 0x00001000 0xD00371D3 [(6, 0x01000001)] [(3, 0xAAAAAAAA)] []) (fun t => (t.readF 3#5, t.pc, t.exc, t.bus.log.dropLast))
      (0x4B800000#32, 0x00001004#32, .none, []) &&
    sees (start 0x00001000 0xD01371D3 [(6, 0x00000000)] [(3, 0xAAAAAAAA)] []) (fun t => (t.readF 3#5, t.pc, t.exc, t.bus.log.dropLast))
      (0x00000000#32, 0x00001004#32, .none, [])) = true := by decide

/-- 46, fused multiply-add. -/
theorem test_steps_float_fused :
    (sees (start 0x00001000 0x1820F243 [] [(1, 0x40000000), (2, 0x40400000), (3, 0x3F800000), (4, 0xAAAAAAAA)] []) (fun t => (t.readF 4#5, t.pc, t.exc, t.bus.log.dropLast))
      (0x40E00000#32, 0x00001004#32, .none, []) &&
    sees (start 0x00001000 0x1820F243 [] [(1, 0x3F800001), (2, 0x3F800001), (3, 0xBF800002), (4, 0xAAAAAAAA)] []) (fun t => (t.readF 4#5, t.pc, t.exc, t.bus.log.dropLast))
      (0x28800000#32, 0x00001004#32, .none, []) &&
    sees (start 0x00001000 0x1820F247 [] [(1, 0x40000000), (2, 0x40400000), (3, 0x3F800000), (4, 0xAAAAAAAA)] []) (fun t => (t.readF 4#5, t.pc, t.exc, t.bus.log.dropLast))
      (0x40A00000#32, 0x00001004#32, .none, []) &&
    sees (start 0x00001000 0x1820F24B [] [(1, 0x40000000), (2, 0x40400000), (3, 0x3F800000), (4, 0xAAAAAAAA)] []) (fun t => (t.readF 4#5, t.pc, t.exc, t.bus.log.dropLast))
      (0xC0A00000#32, 0x00001004#32, .none, []) &&
    sees (start 0x00001000 0x1820F24F [] [(1, 0x40000000), (2, 0x40400000), (3, 0x3F800000), (4, 0xAAAAAAAA)] []) (fun t => (t.readF 4#5, t.pc, t.exc, t.bus.log.dropLast))
      (0xC0E00000#32, 0x00001004#32, .none, [])) = true := by decide

/-- Illegal words latch and stay. -/
theorem test_steps_illegal :
    (sees (start 0x00001000 0x407312B3 [(6, 0x00000001), (7, 0x00000001)] [] []) (fun t => (t.readX 6#5, t.pc, t.exc, t.bus.log.dropLast))
      (0x00000001#32, 0x00001000#32, .illegalInst, []) &&
    sees (start 0x00001000 0x2020B1D3 [] [(1, 0x3F800000)] []) (fun t => (t.readF 1#5, t.pc, t.exc, t.bus.log.dropLast))
      (0x3F800000#32, 0x00001000#32, .illegalInst, []) &&
    sees (start 0x00001000 0x0000001F [] [] []) (fun t => (t.pc, t.exc, t.bus.log.dropLast))
      (0x00001000#32, .illegalInst, [])) = true := by decide

/-- CSRRW of `cycle` answers the count before it and drops the write (R41, scenario 6). -/
theorem test_csrrw_cycle :
    after { start 0x00001000 0xC00312F3 [(6, 0xDEADBEEF)] [] [] with csrCycle := 41#64 } (fun t => (t.readX 5#5, t.csrCycle)) =
    some (41#32, 42#64) := by decide

/-- A store leaves the other bytes of the word alone. -/
theorem test_sb_memory :
    after (start 0x00001000 0xFE530FA3 [(5, 0x123456AB), (6, 0x00002004)] [] [(0x2000, 0x11223344)])
      (fun t => t.bus.mem.read 0x2000#32 .word) = some 0xAB223344#32 := by decide

/-- An AMO's result in memory. -/
theorem test_amomin_memory :
    after (start 0x00001000 0x807322AF [(6, 0x2000), (7, 1)] [] [(0x2000, 0xFFFFFFFF)])
      (fun t => t.bus.mem.read 0x2000#32 .word) = some 0xFFFFFFFF#32 := by decide

/-- FCVT.W.S of -1.5 where `F2I_ROUND` is RTZ: -1. -/
theorem test_fcvt_w_s_rtz : f2i .rtz 0xBFC00000#32 = 0xFFFFFFFF#32 := by decide

/-- A latched state does not step. -/
theorem test_latched : after ((start 0x1000 0xFFF30293 [] [] []).raise .breakpoint) (fun t => (t.pc, t.csrCycle)) =
    some (0x1000#32, 0#64) := by decide

/-- The driver stops after the ECALL that follows an ADDI (budget 5, two instructions counted). -/
theorem test_driver_stops :
    (match driver 5 { start 0x1000 0x00A00513 [] [] [(0x1004, 0x00000073)] with userdata := 1 } with
      | .next t => some (t.readX 10#5, t.pc, t.exc, t.csrCycle)
      | .fault _ => none
      | .refused _ => none) = some (10#32, 0x1008#32, .envCall, 2#64) := by decide


/-! ## Hypotheses that can be met: for every obligation with hypotheses, a state and operands that meet them, for each clause
and at the ends of its range -/

/-- An ordinary state: ADDI x5, x6, -1 at 0x1000. -/
def sample : State := start 0x1000 0xFFF30293 [(6, 7), (7, 0xFFFFFFFD)] [(1, 0x3F800000), (2, 0x7FC00000)] [(0x2000, 0x80FF7F01)]

/-- The same with the latch set. -/
def latched : State := sample.raise .breakpoint

/-- A state whose memory-port callbacks answer the fetch with `w` and latch `k`. -/
def scripted (w : Word) (k : ExceptionKind) : State :=
  { sample with bus := { sample.bus with replies := [{ data := some w, latch := some k }] } }

/-- A state with a handler that writes every kind of place. -/
def handled : State :=
  { sample with bus := { sample.bus with
      calls := [[.x 10#5 1#32, .f 0#5 2#32, .pc 0x2000#32, .latch .breakpoint, .mem 0x3000#32 5#8, .x 0#5 9#32], []] } }

theorem meets_DecodeOfEncode :
    (Instr.jal 31#5 0x100000#21).wellFormed Params.default = true ∧
    (Instr.beq 0#5 31#5 0x1000#13).wellFormed Params.default = true ∧
    (Instr.ecall 31#5 31#5 0#2).wellFormed { Params.default with extM := false, extF := false } = true := by decide

theorem meets_EncodeOfDecode :
    decodeWord Params.default 0xFE029CE1#32 = .instr (.bne 5#5 0#5 0x1FF8#13) ∧
    decodeWord Params.default 0x000302F1#32 = .instr (.ecall 5#5 6#5 1#2) ∧
    decodeWord Params.default 0x00100070#32 = .instr (.ebreak 0#5 0#5 0#2) := by decide

/-- Both ends of every format's range, in words whose other bits are set. -/
theorem meets_ImmediateRoundTrip :
    ([(0xFFFFF800#32, 0x800FFFFF#32), (0x000007FF#32, 0x7FFFFFFF#32)].all fun (v, w) =>
      decide (-2048 ≤ v.toInt ∧ v.toInt ≤ 2047 ∧ w.extractLsb' 20 12 = v.extractLsb' 0 12)) = true ∧
    ([(0xFFFFF800#32, 0x81FFF07F#32), (0x000007FF#32, 0x7FFFFFFF#32)].all fun (v, w) =>
      decide (-2048 ≤ v.toInt ∧ v.toInt ≤ 2047 ∧ w.extractLsb' 25 7 = v.extractLsb' 5 7 ∧
        w.extractLsb' 7 5 = v.extractLsb' 0 5)) = true ∧
    ([(0xFFFFF000#32, 0x81FFF07F#32), (0x00000FFE#32, 0x7FFFFFFF#32)].all fun (v, w) =>
      decide (-4096 ≤ v.toInt ∧ v.toInt ≤ 4094 ∧ v.toInt % 2 = 0 ∧ w.extractLsb' 31 1 = v.extractLsb' 12 1 ∧
        w.extractLsb' 25 6 = v.extractLsb' 5 6 ∧ w.extractLsb' 8 4 = v.extractLsb' 1 4 ∧
        w.extractLsb' 7 1 = v.extractLsb' 11 1)) = true ∧
    ([(0x80000000#32, 0x80000FFF#32), (0xFFFFF000#32, 0xFFFFFFFF#32)].all fun (v, w) =>
      decide (v.toNat % 4096 = 0 ∧ w.extractLsb' 12 20 = v.extractLsb' 12 20)) = true ∧
    ([(0xFFF00000#32, 0x80000FFF#32), (0x000FFFFE#32, 0x7FFFFFFF#32)].all fun (v, w) =>
      decide (-1048576 ≤ v.toInt ∧ v.toInt ≤ 1048574 ∧ v.toInt % 2 = 0 ∧ w.extractLsb' 31 1 = v.extractLsb' 20 1 ∧
        w.extractLsb' 21 10 = v.extractLsb' 1 10 ∧ w.extractLsb' 20 1 = v.extractLsb' 11 1 ∧
        w.extractLsb' 12 8 = v.extractLsb' 12 8)) = true := by decide

theorem meets_DecoderIsTheOpcodeTable :
    decodeWord Params.default 0x027342B1#32 = .instr (.div 5#5 6#5 7#5) ∧
    (Instr.div 0#5 0#5 0#5).rowMatches 0x027342B1#32 ∧ (Instr.div 0#5 0#5 0#5).present Params.default = true ∧
    (Instr.div 1#5 1#5 1#5).rowMatches 0x027342B1#32 := by unfold Instr.rowMatches; decide

/-- A word of an extension that is present, and of one that is not. -/
theorem meets_ExtensionGating :
    (start 0x1000 0x027342B3 [] [] []).exc = .none ∧
    decodeWord Params.default ((start 0x1000 0x027342B3 [] [] []).bus.answer 0x1000#32 .word) = .instr (.div 5#5 6#5 7#5) ∧
    (Instr.div 5#5 6#5 7#5).present Params.default = true ∧
    (Instr.div 5#5 6#5 7#5).present { Params.default with extM := false } = false := by decide

theorem meets_UnpopulatedSlotsLatchIllegal :
    ([0x0000000B, 0x0000002B, 0x0000005B, 0x0000007B, 0x00000057, 0x0000006B, 0x00000077, 0x0000001B, 0x0000003B, 0x0000001F,
      0x0000003F, 0x0000005F, 0xFFFFFFFF].map fun w => slotOf ((start 0x1000 w [] [] []).bus.answer 0x1000#32 .word)) =
      [0b00010#5, 0b01010#5, 0b10110#5, 0b11110#5, 0b10101#5, 0b11010#5, 0b11101#5, 0b00110#5, 0b01110#5, 0b00111#5,
        0b01111#5, 0b10111#5, 0b11111#5] ∧ (start 0x1000 0x0000000B [] [] []).exc = .none := by decide

theorem meets_StepRunsDecodedInstruction :
    sample.exc = .none ∧ sample.bus.replies = [] ∧ sample.csrCycle ≠ BitVec.allOnes 64 ∧
    decodeBytes sample.params [sample.bus.mem.byte sample.pc, sample.bus.mem.byte (sample.pc + 1#32),
      sample.bus.mem.byte (sample.pc + 2#32), sample.bus.mem.byte (sample.pc + 3#32)] =
      .instr (.addi 5#5 6#5 0xFFF#12) := by decide

/-- ... and every instruction answers a next state, so its last hypothesis is met too. -/
theorem meets_StepRunsDecodedInstruction_exec :
    ∃ t, exec (.addi 5#5 6#5 0xFFF#12) { sample with bus := { sample.bus with
      log := .ifetch sample.pc (BitVec.ofNat 32 (littleEndian sample.bus.mem sample.pc 4)) :: sample.bus.log } } = .next t :=
  ⟨_, rfl⟩

theorem meets_IllegalWordOnlyLatches :
    (start 0x1000 0xFFFFFFFF [] [] []).exc = .none ∧ (start 0x1000 0xFFFFFFFF [] [] []).csrCycle ≠ BitVec.allOnes 64 ∧
    decodeWord Params.default ((start 0x1000 0xFFFFFFFF [] [] []).bus.answer 0x1000#32 .word) =
      .illegal .unpopulatedSlot := by decide

theorem meets_LatchIsStickyAndGates :
    latched.exc ≠ .none ∧ (∃ t, exec (.addi 5#5 6#5 1#12) latched = .next t) ∧ latched.bus.replies = [] ∧
    latched.bus.calls = [] := ⟨by decide, ⟨_, rfl⟩, by decide, by decide⟩

theorem meets_EveryStepCountsOne :
    sample.exc = .none ∧ sample.csrCycle ≠ BitVec.allOnes 64 ∧ latched.exc ≠ .none := by decide

/-- The invariant holds where the next step is an ordinary one, and the step answers a next state. -/
theorem meets_StepKeepsInvariant : RunInv sample ∧ ∃ t, step sample = .next t :=
  ⟨⟨by decide, .inl (by unfold aligned; decide), by decide, fun _ h => nomatch (show _ ∈ [] from h)⟩, ⟨_, rfl⟩⟩

/-- It also holds with `PC` misaligned under `inst_misaligned`, and with a handler that keeps its duty pending. -/
theorem meets_StepKeepsInvariant_misaligned :
    RunInv ((sample.setPc 0x1002#32).raise .instMisaligned) ∧ RunInv handled :=
  ⟨⟨by decide, .inr rfl, by decide, fun _ h => nomatch (show _ ∈ [] from h)⟩,
   ⟨by decide, .inl (by unfold aligned; decide), by decide, by simp [handled, EnvWrite.keepsAlignment, aligned]⟩⟩

theorem meets_ResetHasInvariant : RunInv sample ∧ aligned 0x00000000#32 ∧ aligned 0xFFFFFFFC#32 :=
  ⟨meets_StepKeepsInvariant.1, by unfold aligned; decide, by unfold aligned; decide⟩

theorem meets_ResetState : sample.params.extF = true ∧ sample.params.spAligned = true := by decide

theorem meets_SequentialFlagMeansPlusFour :
    (∃ t, exec (.addi 5#5 6#5 1#12) sample = .next t) ∧ sequential (.addi 5#5 6#5 1#12) sample = true ∧
    sequential (.beq 6#5 7#5 2#13) sample = true := ⟨⟨_, rfl⟩, rfl, by decide⟩

/-- An instruction that changes `csr_mstatus`. -/
theorem meets_OnlyCsrInstructionsWriteMstatus :
    ∃ t, exec (.csrrw 5#5 6#5 0x300#12) sample = .next t ∧ t.csrMstatus ≠ sample.csrMstatus := ⟨_, rfl, by decide⟩

/-- An instruction that latches: a jump to a misaligned target. -/
theorem meets_CoreLatchesTwoKinds :
    ∃ t, exec (.jal 1#5 2#21) sample = .next t ∧ t.exc = .instMisaligned := ⟨_, rfl, by decide⟩

/-- Its clause over steps, each case: the latch clear after it, a misaligned jump, an illegal word, a callback's kind, ECALL and
EBREAK. -/
theorem meets_CoreLatchesTwoKinds_step :
    ([(0xFFF30293#32, ExceptionKind.none), (0x002000EF#32, .instMisaligned), (0xFFFFFFFF#32, .illegalInst),
      (0x00000073#32, .envCall), (0x00100073#32, .breakpoint)].all fun (w, k) =>
      let s := start 0x1000 w.toNat [] [] []
      s.exc == .none && BitVec.ofNat 32 (answered s s.pc .word) == w && (match step s with
        | .next t => t.exc == k
        | _ => false)) = true ∧
    (∃ t, step (scripted 0xFFF30293#32 .memFault) = .next t ∧ t.exc = .memFault) := ⟨by decide, _, rfl, by decide⟩

theorem meets_PortTransactions :
    sample.exc = .none ∧
    decodeWord sample.params (sample.bus.answer sample.pc .word) = .instr (.addi 5#5 6#5 0xFFF#12) ∧
    (start 0x1000 0xFFFFFFFF [] [] []).exc = .none ∧
    decodeWord Params.default ((start 0x1000 0xFFFFFFFF [] [] []).bus.answer 0x1000#32 .word) =
      .illegal .unpopulatedSlot := by decide

theorem meets_SourceLoopIsTheDriver : sample.csrCycle.toNat + 5 < 2 ^ 64 ∧ latched.csrCycle.toNat + 0 < 2 ^ 64 := by
  decide

theorem meets_DriverSplits : sample.csrCycle.toNat + 2 + 3 < 2 ^ 64 := by decide

theorem meets_DriverStopsAtBudgetOrLatch : sample.csrCycle.toNat + 5 < 2 ^ 64 ∧
    { sample with csrCycle := 0xFFFFFFFFFFFFFFFA#64 }.csrCycle.toNat + 5 < 2 ^ 64 := by decide

theorem meets_ReturnIsTheEnvironments : latched.exc ≠ .none ∧ ((sample.setPc 2#32).raise .instMisaligned).exc ≠ .none := by
  decide

/-- The first clause: a fetch whose callback sets the latch, one whose callback only answers, and one that is not scripted. -/
theorem meets_FetchFaultStillExecutes_any :
    (scripted 0xFFF30293#32 .memFault).csrCycle ≠ BitVec.allOnes 64 ∧
    0xFFF30293#32 = BitVec.ofNat 32 (answered (scripted 0xFFF30293#32 .memFault) (scripted 0xFFF30293#32 .memFault).pc .word) ∧
    0xFFF30293#32 = BitVec.ofNat 32 (answered sample sample.pc .word) ∧ sample.exc = .none ∧
    decodeWord sample.params 0xFFF30293#32 = .instr (.addi 5#5 6#5 0xFFF#12) := by decide

/-- Each of the other three clauses: an illegal word, a jump to a misaligned target, a sequential instruction without transactions. -/
theorem meets_FetchFaultStillExecutes :
    (scripted 0xFFFFFFFF#32 .memFault).exc = .none ∧
    (scripted 0xFFFFFFFF#32 .memFault).bus.replies = [{ data := some 0xFFFFFFFF#32, latch := some .memFault }] ∧
    decodeWord Params.default 0xFFFFFFFF#32 = .illegal .unpopulatedSlot ∧
    decodeWord Params.default 0x002000EF#32 = .instr (.jal 1#5 2#21) ∧
    ¬ aligned ((scripted 0x002000EF#32 .memFault).pc + (2#21).signExtend 32) ∧
    decodeWord Params.default 0xFFF30293#32 = .instr (.addi 5#5 6#5 0xFFF#12) ∧
    portTable (.addi 5#5 6#5 0xFFF#12) 0xFFF30293#32 (scripted 0xFFF30293#32 .memFault) = [] ∧
    sequential (.addi 5#5 6#5 0xFFF#12) (scripted 0xFFF30293#32 .memFault) = true := by
  unfold aligned; decide

/-- The encoding clauses of the families: each row is a word, its slot and `funct3`, and its instruction, present in the default
configuration. -/
theorem meets_encoding_clauses_by_funct3 :
    ([(0x123452B7#32, 0b01101#5, 0b101#3), (0x12345097#32, 0b00101#5, 0b101#3), (0xFFF30293#32, 0b00100#5, 0b000#3),
      (0xFFF32293#32, 0b00100#5, 0b010#3), (0xFFF33293#32, 0b00100#5, 0b011#3), (0xFFF34293#32, 0b00100#5, 0b100#3),
      (0x7FF36293#32, 0b00100#5, 0b110#3), (0x0FF37293#32, 0b00100#5, 0b111#3), (0x01F31293#32, 0b00100#5, 0b001#3),
      (0x00435293#32, 0b00100#5, 0b101#3), (0x40435293#32, 0b00100#5, 0b101#3), (0x001000EF#32, 0b11011#5, 0b000#3),
      (0x00008067#32, 0b11001#5, 0b000#3), (0x00628863#32, 0b11000#5, 0b000#3), (0xFE029CE3#32, 0b11000#5, 0b001#3),
      (0xFE62CEE3#32, 0b11000#5, 0b100#3), (0x0062D463#32, 0b11000#5, 0b101#3), (0x0062E463#32, 0b11000#5, 0b110#3),
      (0x0062F363#32, 0b11000#5, 0b111#3), (0xFFF30283#32, 0b00000#5, 0b000#3), (0x00231283#32, 0b00000#5, 0b001#3),
      (0x00832283#32, 0b00000#5, 0b010#3), (0x00334283#32, 0b00000#5, 0b100#3), (0x00235283#32, 0b00000#5, 0b101#3),
      (0xFE530FA3#32, 0b01000#5, 0b000#3), (0x00531123#32, 0b01000#5, 0b001#3), (0x00532423#32, 0b01000#5, 0b010#3),
      (0x0FF0000F#32, 0b00011#5, 0b000#3), (0x0000100F#32, 0b00011#5, 0b001#3), (0xC00312F3#32, 0b11100#5, 0b001#3),
      (0x003023F3#32, 0b11100#5, 0b010#3), (0x300332F3#32, 0b11100#5, 0b011#3), (0x300AD2F3#32, 0b11100#5, 0b101#3),
      (0x3001E2F3#32, 0b11100#5, 0b110#3), (0x3000F2F3#32, 0b11100#5, 0b111#3), (0x00452087#32, 0b00001#5, 0b010#3),
      (0x00152427#32, 0b01001#5, 0b010#3)].all fun (w, slot, f3) =>
      slotOf w == slot && funct3Of w == f3 && (match decodeWord Params.default w with
        | .instr i => i.present Params.default
        | .illegal _ => false)) = true := by decide

/-- The illegal `funct3` values of JALR, BRANCH, LOAD and STORE. -/
theorem meets_encoding_clauses_illegal :
    ([(0x000290E7#32, 0b11001#5, 0b001#3), (0x0002F0E7#32, 0b11001#5, 0b111#3), (0x0062A863#32, 0b11000#5, 0b010#3),
      (0x0062B863#32, 0b11000#5, 0b011#3), (0x00033283#32, 0b00000#5, 0b011#3), (0x00036283#32, 0b00000#5, 0b110#3),
      (0x00037283#32, 0b00000#5, 0b111#3), (0x00533023#32, 0b01000#5, 0b011#3), (0x00534023#32, 0b01000#5, 0b100#3),
      (0x00535023#32, 0b01000#5, 0b101#3), (0x00536023#32, 0b01000#5, 0b110#3), (0x00537023#32, 0b01000#5, 0b111#3)].all
      fun (w, slot, f3) => slotOf w == slot && funct3Of w == f3) = true := by decide

/-- The clauses of OP, OP-FP and AMO by `funct7` and `funct3`, or `funct5`. -/
theorem meets_encoding_clauses_by_funct7 :
    ([(0x007302B3#32, 0b0000000#7, 0b000#3), (0x407302B3#32, 0b0100000#7, 0b000#3), (0x007312B3#32, 0b0000000#7, 0b001#3),
      (0x007322B3#32, 0b0000000#7, 0b010#3), (0x007332B3#32, 0b0000000#7, 0b011#3), (0x007342B3#32, 0b0000000#7, 0b100#3),
      (0x007352B3#32, 0b0000000#7, 0b101#3), (0x407352B3#32, 0b0100000#7, 0b101#3), (0x007362B3#32, 0b0000000#7, 0b110#3),
      (0x007372B3#32, 0b0000000#7, 0b111#3), (0x027302B3#32, 0b0000001#7, 0b000#3), (0x027312B3#32, 0b0000001#7, 0b001#3),
      (0x027322B3#32, 0b0000001#7, 0b010#3), (0x027332B3#32, 0b0000001#7, 0b011#3), (0x027342B3#32, 0b0000001#7, 0b100#3),
      (0x027352B3#32, 0b0000001#7, 0b101#3), (0x027362B3#32, 0b0000001#7, 0b110#3),
      (0x027372B3#32, 0b0000001#7, 0b111#3)].all fun (w, f7, f3) =>
      slotOf w == 0b01100#5 && funct7Of w == f7 && funct3Of w == f3) = true ∧
    ([(0x202081D3#32, 0b0010000#7, 0b000#3), (0x202091D3#32, 0b0010000#7, 0b001#3), (0x2020A1D3#32, 0b0010000#7, 0b010#3),
      (0xE00082D3#32, 0b1110000#7, 0b000#3), (0xF00301D3#32, 0b1111000#7, 0b000#3),
      (0xE00092D3#32, 0b1110000#7, 0b001#3)].all fun (w, f7, f3) =>
      slotOf w == 0b10100#5 && funct7Of w == f7 && funct3Of w == f3) = true ∧
    ([(0x100322AF#32, 0b00010#5), (0x101322AF#32, 0b00010#5), (0x187322AF#32, 0b00011#5), (0x087322AF#32, 0b00001#5),
      (0x007322AF#32, 0b00000#5), (0x207322AF#32, 0b00100#5), (0x607322AF#32, 0b01100#5), (0x407322AF#32, 0b01000#5),
      (0x807322AF#32, 0b10000#5), (0xA07322AF#32, 0b10100#5), (0xC07322AF#32, 0b11000#5),
      (0xE07322AF#32, 0b11100#5)].all fun (w, f5) =>
      slotOf w == 0b01011#5 && funct3Of w == 0b010#3 && w.extractLsb' 27 5 == f5) = true ∧
    rs2Of 0x100322AF#32 = 0#5 ∧ rs2Of 0x101322AF#32 ≠ 0#5 ∧ rs2Of 0xE00082D3#32 = 0#5 ∧ rs2Of 0xF00301D3#32 = 0#5 ∧
    rs2Of 0xE00092D3#32 = 0#5 ∧ Params.default.extM = true ∧ Params.default.extA = true ∧
    Params.default.extF = true := by decide

/-- Both parities of the target, and the offset bits of the last clause. -/
theorem meets_JumpAndLink :
    aligned (sample.pc + (4#21).signExtend 32) ∧ ¬ aligned (sample.pc + (2#21).signExtend 32) ∧ aligned sample.pc ∧
    (2#21).getLsbD 0 = false ∧ (4#21).getLsbD 0 = false := by unfold aligned; decide

theorem meets_JumpAndLinkRegister :
    (sample.readX 6#5 + (0#12).signExtend 32).getLsbD 1 = true ∧ (sample.readX 6#5 + (0xFFF#12).signExtend 32).getLsbD 1 = true ∧
    (sample.readX 6#5 + (1#12).signExtend 32).getLsbD 1 = false := by decide

/-- Each of the six conditions holds and fails in `sample` (x6 = 7, x7 = -3), and the target is aligned or not. -/
theorem meets_Branches :
    sample.readX 6#5 = sample.readX 6#5 ∧ sample.readX 6#5 ≠ sample.readX 7#5 ∧
    (sample.readX 7#5).toInt < (sample.readX 6#5).toInt ∧ (sample.readX 6#5).toInt ≥ (sample.readX 7#5).toInt ∧
    (sample.readX 6#5).toNat < (sample.readX 7#5).toNat ∧ (sample.readX 7#5).toNat ≥ (sample.readX 6#5).toNat ∧
    aligned (sample.pc + (0x1000#13).signExtend 32) ∧ ¬ aligned (sample.pc + (0x0FFE#13).signExtend 32) := by
  unfold aligned; decide

theorem meets_Loads : (0x00000005#32) = sample.readX 6#5 + (0xFFE#12).signExtend 32 := by decide

/-- Canonical memory: after reset, and with entries. -/
theorem meets_Stores : State.reset.bus.mem.wf = true ∧ sample.bus.mem.wf = true := by decide

/-- The bytes outside a write that wraps, and a store with the reference memory. -/
theorem meets_ReadAfterWrite :
    sample.bus.mem.wf = true ∧ Width.bytes .word ≤ (2#32 - 0xFFFFFFFE#32).toNat ∧ sample.bus.replies = [] ∧
    ∃ t, exec (.sw 6#5 7#5 1#12) sample = .next t :=
  ⟨by decide, by decide, by decide, ⟨_, rfl⟩⟩

theorem meets_MemoryIsItsBytes : sample.bus.mem.wf = true ∧ ∀ a : Word, sample.bus.mem.byte a = sample.bus.mem.byte a :=
  ⟨by decide, fun _ => rfl⟩

theorem meets_CallsUnderTheReferenceEnvironment : sample.bus.calls = [] := by decide

theorem meets_CallsWithAnyHandler :
    handled.bus.calls = [.x 10#5 1#32, .f 0#5 2#32, .pc 0x2000#32, .latch .breakpoint, .mem 0x3000#32 5#8, .x 0#5 9#32] :: [[]] ∧
    handled.bus.mem.wf = true ∧ handled.params.extF = true := by decide

theorem meets_DroppedCsrWrites : (0xC00#12) ≠ 0x300#12 ∧ (0x003#12) ≠ 0x300#12 ∧ (0xFFF#12) ≠ 0x300#12 := by decide

theorem meets_MultiplyDivideLaws :
    (0xFFFFFFFF#32) ≠ 0#32 ∧ ¬ ((0x80000001#32 : Word) = 0x80000000#32 ∧ (0xFFFFFFFF#32 : Word) = 0xFFFFFFFF#32) := by decide

/-- LR.W and SC.W, and the AMOs: canonical memory. -/
theorem meets_LrSc_AmoLogical_AmoMinMax : sample.bus.mem.wf = true := by decide

theorem meets_FloatLoadStore : (0x00000008#32) = sample.readX 6#5 + (1#12).signExtend 32 ∧ sample.bus.mem.wf = true := by
  decide

/-- The statements that name the operands' patterns: F[1] is 1.0, F[2] a quiet NaN, x6 is 7. -/
theorem meets_float_operands :
    (0x3F800000#32) = sample.readF 1#5 ∧ (0x7FC00000#32) = sample.readF 2#5 ∧ (0x00000000#32) = sample.readF 3#5 ∧
    (7#32) = sample.readX 6#5 := by decide

/-- Every case of FMIN.S and FMAX.S and of the comparisons: NaN and not, zeros of opposite sign. -/
theorem meets_FloatMinMax_FloatCompares :
    isNaN 0x7FC00000#32 ∧ isNaN 0xFF800001#32 ∧ ¬ isNaN 0x7F800000#32 ∧ ¬ isNaN 0x3F800000#32 ∧ isZero 0x00000000#32 ∧
    isZero 0x80000000#32 ∧ (0x00000000#32).getLsbD 31 ≠ (0x80000000#32).getLsbD 31 := by decide

/-- Both sides of FCVT.S.W: zero and not. -/
theorem meets_IntegerToFloat : (0x00000000#32) = sample.readX 0#5 ∧ sample.readX 6#5 ≠ 0#32 := by decide

/-- The hypotheses of the laws: an F instruction that names an integer `rd`, and FLW with a callback that stores a kind; a
constant `NAN_RESULT`; both ends of the range of magnitudes. -/
theorem meets_FloatUnitLaws :
    (Instr.feqS 5#5 1#5 2#5).extension = some .f ∧ (∃ t, exec (.feqS 5#5 1#5 2#5) sample = .next t) ∧
    fIntDest (.feqS 5#5 1#5 2#5) ≠ some 6#5 ∧ (Instr.flw 5#5 1#5 0#12).extension = some .f ∧
    (∃ t, exec (.flw 5#5 1#5 0#12) (scripted 0#32 .memFault) = .next t ∧ t.exc = .memFault) ∧
    sample.params.nanRule = .constant 0#1 0#22 ∧
    (0x01000000#32).toInt.natAbs ≤ 2 ^ 24 ∧ (0xFF000000#32).toInt.natAbs ≤ 2 ^ 24 ∧
    (sample.readX 7#5).toInt.natAbs ≤ 2 ^ 24 ∧ some 0x00000000#32 ∈ arithResults 0#32 0#32 0#32 :=
  ⟨rfl, ⟨_, rfl⟩, by decide, rfl, ⟨_, rfl, by decide⟩, by decide, by decide, by decide, by decide, by decide⟩

/-- The clause on `rm`: a word that has the field, and the value to put there. -/
theorem meets_FloatUnitLaws_rm :
    decodeWord Params.default 0x002081D3#32 = .instr (.faddS 3#5 1#5 2#5 0#3) ∧
    (Instr.faddS 3#5 1#5 2#5 0#3).withRm? omittedRm = some (.faddS 3#5 1#5 2#5 7#3) := by decide

/-- FADD.S f3, f1, f2 as an assembler writes it without `rm`, and with `rne` (R120; the words by hand from R112). -/
theorem test_omittedRm : withRm 0x002081D3#32 omittedRm = 0x0020F1D3#32 ∧
    decodeWord Params.default 0x0020F1D3#32 = .instr (.faddS 3#5 1#5 2#5 7#3) := by decide

/-- Finite non-zero patterns at both ends, and quotients on both sides of the bounds. -/
theorem meets_RoundingFacts :
    ([0x00000001#32, 0x807FFFFF#32, 0x00800000#32, 0xFF7FFFFF#32].all fun v => !isNaN v && !isInf v && !isZero v) = true ∧
    (0 < 3 ∧ 0 < 2 ∧ 3 * 4 ≤ 6 * 2) ∧ 2 * 1 ≤ 2 := by decide

end Sys2Proof.Tests
end

/-! ## The latch: where a kind in it comes from (10_state.md R27, 60_exceptions.md R350) -/

namespace Sys2Proof.Machine

/-- A port callback keeps the latch or stores its own kind (R76). -/
theorem Bus.latched_cases (b : Bus) (k : ExceptionKind) :
    b.nextReply.latched k = k ∨ ∃ r ∈ b.replies, r.latch = some (b.nextReply.latched k) := by
  unfold Bus.nextReply BusReply.latched
  rcases b.replies with _ | ⟨⟨d, _ | k'⟩, rest⟩ <;> simp [BusReply.reference]

/-- The read and the write of an AMO call two callbacks; either may store a kind. -/
theorem State.amo_exc_cases (s : State) (rd rs1 rs2 : Reg) (op : Word → Word → Word) :
    (s.amo rd rs1 rs2 op).exc = s.exc ∨ ∃ r ∈ s.bus.replies, r.latch = some (s.amo rd rs1 rs2 op).exc := by
  have he : (s.amo rd rs1 rs2 op).exc =
      (s.memRead (s.readX rs1) .word).2.bus.nextReply.latched (s.bus.nextReply.latched s.exc) := by
    simp [State.amo]
  rw [he]
  rcases Bus.latched_cases (s.memRead (s.readX rs1) .word).2.bus (s.bus.nextReply.latched s.exc) with
    hw | ⟨r, hr, hk⟩
  · rw [hw]; exact Bus.latched_cases s.bus s.exc
  · exact .inr ⟨r, List.mem_of_mem_tail hr, hk⟩

/-- A jump keeps the latch, or its target is misaligned and latched (R170). -/
theorem State.jumpTo_exc_cases (s : State) (t : Word) :
    (s.jumpTo t).exc = s.exc ∨ ((s.jumpTo t).exc = .instMisaligned ∧ ¬ aligned (s.jumpTo t).pc) := by
  rw [State.jumpTo_pc]
  obtain ⟨-, -, hal, hmis⟩ := jumpTo_spec s t
  by_cases h : aligned t
  · exact .inl (hal h)
  · exact .inr ⟨hmis h, h⟩

/-- Only a write to the latch changes it. -/
theorem State.applyWrite_exc_cases (s : State) (w : EnvWrite) :
    (s.applyWrite w).exc = s.exc ∨ w = .latch (s.applyWrite w).exc := by
  cases w with
  | latch k => exact .inr rfl
  | f r v => left; simp only [State.applyWrite]; split <;> simp
  | x r v => exact .inl (State.writeX_exc s r v)
  | pc v => exact .inl rfl
  | mem a b => exact .inl rfl

/-- A handler keeps the latch or leaves a kind it stores (R212). -/
theorem State.applyWrites_exc_cases (s : State) (h : Handler) :
    (s.applyWrites h).exc = s.exc ∨ .latch (s.applyWrites h).exc ∈ h := by
  induction h generalizing s with
  | nil => exact .inl rfl
  | cons w ws ih =>
    rw [State.applyWrites, List.mem_cons]
    rcases ih (s.applyWrite w) with hws | hws
    · rw [hws]
      exact (State.applyWrite_exc_cases s w).imp_right fun hw => .inl hw.symm
    · exact .inr (.inr hws)

/-- A call of the environment keeps the latch or leaves a kind its handler stores. -/
theorem State.callHandler_exc_cases (s : State) (tr : Transaction) (ref : Handler) :
    (s.callHandler tr ref).exc = s.exc ∨ .latch (s.callHandler tr ref).exc ∈ s.bus.calls.headD ref :=
  State.applyWrites_exc_cases _ _

/-- Where the latch after an instruction comes from: it is the old one, or `inst_misaligned` with `PC` misaligned, or a kind
that a port callback or a handler stores. -/
theorem exec_exc_cases {i : Instr} {s t : State} (h : exec i s = .next t) :
    t.exc = s.exc ∨ (t.exc = .instMisaligned ∧ ¬ aligned t.pc) ∨ (∃ r ∈ s.bus.replies, r.latch = some t.exc) ∨
      (∃ rd rs1 lo, i = .ecall rd rs1 lo ∧ .latch t.exc ∈ s.bus.calls.headD [.latch .envCall]) ∨
      (∃ rd rs1 lo, i = .ebreak rd rs1 lo ∧ .latch t.exc ∈ s.bus.calls.headD [.latch .breakpoint]) := by
  have port : t.exc = s.bus.nextReply.latched s.exc →
      t.exc = s.exc ∨ ∃ r ∈ s.bus.replies, r.latch = some t.exc := by
    intro he; rw [he]; exact Bus.latched_cases s.bus s.exc
  cases runs_of_exec h with
  | x | f | nothing => left; simp
  | csr => left; simp [State.csrAccess]
  | jump rd target => simpa using (State.jumpTo_exc_cases (s.writeX rd (s.pc + 4#32)) target).imp_right Or.inl
  | branch taken imm =>
    cases taken with
    | false => exact .inl rfl
    | true => exact (State.jumpTo_exc_cases s (s.pc + immB imm)).imp_right Or.inl
  | load | flw | store | sc => exact (port (by simp)).imp_right (Or.inr ∘ Or.inl)
  | amo rd rs1 rs2 op => exact (State.amo_exc_cases s rd rs1 rs2 op).imp_right (Or.inr ∘ Or.inl)
  | ecall rd rs1 lo hi =>
    exact (State.callHandler_exc_cases s _ _).imp_right fun hl => .inr (.inr (.inl ⟨rd, rs1, lo, hi, hl⟩))
  | ebreak rd rs1 lo hi =>
    exact (State.callHandler_exc_cases s _ _).imp_right fun hl => .inr (.inr (.inr ⟨rd, rs1, lo, hi, hl⟩))

/-- A write that neither a pending handler nor the reference one makes is not made in the next call. -/
theorem notMem_headD_of_notMem_calls {calls : List Handler} {ref : Handler} {w : EnvWrite}
    (hc : ∀ h ∈ calls, w ∉ h) (href : w ∉ ref) : w ∉ calls.headD ref := by
  cases calls with
  | nil => exact href
  | cons h rest => exact hc h List.mem_cons_self

/-- No instruction clears a set latch unless a callback or a handler stores `none` (R27). -/
theorem exec_exc_ne_none {i : Instr} {s t : State} (h : exec i s = .next t)
    (hr : ∀ r ∈ s.bus.replies, r.latch ≠ some .none) (hc : ∀ h ∈ s.bus.calls, .latch .none ∉ h)
    (hs : s.exc ≠ .none) : t.exc ≠ .none := by
  intro ht
  rcases exec_exc_cases h with he | ⟨he, -⟩ | ⟨r, hmem, hk⟩ | ⟨_, _, _, -, hl⟩ | ⟨_, _, _, -, hl⟩
  · exact hs (he ▸ ht)
  · exact nomatch he.symm.trans ht
  · exact hr r hmem (ht ▸ hk)
  · exact notMem_headD_of_notMem_calls hc (by decide) (ht ▸ hl)
  · exact notMem_headD_of_notMem_calls hc (by decide) (ht ▸ hl)

/-- The driver's loop is not entered while the latch is set (R395). -/
theorem driverLoop_latched {s : State} (hs : s.exc ≠ .none) (fuel target : Nat) :
    driverLoop fuel target s = .next s := by
  cases fuel with
  | zero => rfl
  | succ fuel =>
    have : running target s = false := by simp [running, hs]
    simp [driverLoop, this]

/-- Settles O11: a step and the driver's loop test the latch first; the kinds an instruction can leave are those of
`exec_exc_cases`. -/
theorem latchIsStickyAndGates : Obligations.LatchIsStickyAndGates :=
  ⟨fun _ hs => ⟨step_latched hs, fun _ => driverLoop_latched hs _ _⟩,
    fun _ _ _ h hr hc hs => exec_exc_ne_none h hr hc hs, fun _ _ => rfl, fun _ _ => rfl⟩

/-! ## CSR writes (10_state.md R41) -/

/-- `mstatus` takes a write. -/
theorem State.writeCsr_mstatus (s : State) (v : Word) : s.writeCsr 0x300#12 v = { s with csrMstatus := v } := if_pos rfl

/-- Every other CSR number drops a write. -/
theorem State.writeCsr_of_ne_mstatus (s : State) {a : BitVec 12} (ha : a ≠ 0x300#12) (v : Word) : s.writeCsr a v = s :=
  if_neg ha

/-- A CSR access whose write is dropped leaves the old value in `rd` and does nothing else. -/
theorem State.csrAccess_of_ne_mstatus (s : State) {a : BitVec 12} (ha : a ≠ 0x300#12) (rd : Reg) (new : Word → Word) :
    s.csrAccess rd a new = s.finishX rd (csrTable s a) := by
  rw [State.csrAccess, State.writeCsr_of_ne_mstatus s ha, readCsr_eq]

/-- Settles O41: a dropped write leaves `finishX` of the old value, which is a completed instruction. -/
theorem droppedCsrWrites : Obligations.DroppedCsrWrites :=
  ⟨State.writeCsr_mstatus, fun s _ v ha => State.writeCsr_of_ne_mstatus s ha v,
    fun s rd _ _ ha => completesX_of_finishX s (congrArg _ (State.csrAccess_of_ne_mstatus s ha rd _)) rfl⟩

end Sys2Proof.Machine

/-! ## Immediates (30_encoding.md R92 to R96, R119) -/

namespace Sys2Proof.Machine

/-- A word in the signed range of `k + 1` bits is the sign extension of its low `k + 1` bits. -/
theorem signExtend_extractLsb'_of_range {v : Word} (k : Nat) (hk : k + 1 ≤ 32) (hlo : -2 ^ k ≤ v.toInt)
    (hhi : v.toInt < 2 ^ k) : (v.extractLsb' 0 (k + 1)).signExtend 32 = v := by
  have hpow : (2 : Int) ^ (k + 1) = 2 * 2 ^ k := by ring
  have hdvd : 2 ^ (k + 1) ∣ 2 ^ 32 := Nat.pow_dvd_pow 2 hk
  apply BitVec.eq_of_toInt_eq
  calc ((v.extractLsb' 0 (k + 1)).signExtend 32).toInt
      = (v.toNat : Int).bmod (2 ^ (k + 1)) := by
        rw [BitVec.toInt_signExtend_of_le hk, BitVec.toInt_extractLsb', Nat.shiftRight_zero]
    _ = v.toInt.bmod (2 ^ (k + 1)) := by rw [BitVec.toInt_eq_toNat_bmod, Int.bmod_bmod_of_dvd hdvd]
    _ = v.toInt := Int.bmod_eq_of_le (by push_cast; omega) (by push_cast; omega)

/-- Low bits that count for nothing in the value are zero bits. -/
theorem extractLsb'_low_eq_zero {v : Word} {k : Nat} (h : v.toNat % 2 ^ k = 0) : v.extractLsb' 0 k = 0#k :=
  BitVec.eq_of_toNat_eq (by simpa using h)

/-- Bit 0 of a word that is even as a signed number (B and J offsets). -/
theorem extractLsb'_zero_one_of_even {v : Word} (h : v.toInt % 2 = 0) : v.extractLsb' 0 1 = 0#1 := by
  apply extractLsb'_low_eq_zero
  rw [BitVec.toInt_eq_toNat_cond] at h
  split at h <;> omega

/-- The S extractor gathers `v[11:0]` from the format's two fields (R93). -/
theorem sImmOf_eq_low {v w : Word} (h5 : w.extractLsb' 25 7 = v.extractLsb' 5 7)
    (h0 : w.extractLsb' 7 5 = v.extractLsb' 0 5) : sImmOf w = v.extractLsb' 0 12 := by
  rw [sImmOf, h5, h0]
  exact BitVec.extractLsb'_append_extractLsb'_eq_extractLsb' rfl

/-- The B extractor gathers `v[12:0]` from the format's four fields and the zero bit (R94). -/
theorem bImmOf_eq_low {v w : Word} (h12 : w.extractLsb' 31 1 = v.extractLsb' 12 1)
    (h5 : w.extractLsb' 25 6 = v.extractLsb' 5 6) (h1 : w.extractLsb' 8 4 = v.extractLsb' 1 4)
    (h11 : w.extractLsb' 7 1 = v.extractLsb' 11 1) (h0 : v.extractLsb' 0 1 = 0#1) :
    bImmOf w = v.extractLsb' 0 13 := by
  rw [bImmOf, h12, h11, h5, h1, ← h0]
  rw [BitVec.extractLsb'_append_extractLsb'_eq_extractLsb' (show 12 = 11 + 1 from rfl),
    BitVec.extractLsb'_append_extractLsb'_eq_extractLsb' (show 11 = 5 + 6 from rfl),
    BitVec.extractLsb'_append_extractLsb'_eq_extractLsb' (show 5 = 1 + 4 from rfl),
    BitVec.extractLsb'_append_extractLsb'_eq_extractLsb' (show 1 = 0 + 1 from rfl)]

/-- The J extractor gathers `v[20:0]` from the format's four fields and the zero bit (R96). -/
theorem jImmOf_eq_low {v w : Word} (h20 : w.extractLsb' 31 1 = v.extractLsb' 20 1)
    (h1 : w.extractLsb' 21 10 = v.extractLsb' 1 10) (h11 : w.extractLsb' 20 1 = v.extractLsb' 11 1)
    (h12 : w.extractLsb' 12 8 = v.extractLsb' 12 8) (h0 : v.extractLsb' 0 1 = 0#1) :
    jImmOf w = v.extractLsb' 0 21 := by
  rw [jImmOf, h20, h12, h11, h1, ← h0]
  rw [BitVec.extractLsb'_append_extractLsb'_eq_extractLsb' (show 20 = 12 + 8 from rfl),
    BitVec.extractLsb'_append_extractLsb'_eq_extractLsb' (show 12 = 11 + 1 from rfl),
    BitVec.extractLsb'_append_extractLsb'_eq_extractLsb' (show 11 = 1 + 10 from rfl),
    BitVec.extractLsb'_append_extractLsb'_eq_extractLsb' (show 1 = 0 + 1 from rfl)]

/-- A multiple of 4096 is its upper 20 bits followed by zeros (R95). -/
theorem immU_extractLsb' {v : Word} (h : v.toNat % 4096 = 0) : immU (v.extractLsb' 12 20) = v := by
  rw [immU, ← extractLsb'_low_eq_zero h]
  exact (BitVec.extractLsb'_append_extractLsb'_eq_extractLsb' rfl).trans BitVec.extractLsb'_eq_self

/-- Settles O3: the word's fields join to the low bits of `v` (`sImmOf_eq_low` and its likes), and `v` is the extension of
those (`signExtend_extractLsb'_of_range`). -/
theorem immediateRoundTrip : Obligations.ImmediateRoundTrip := by
  intro v w
  refine ⟨fun hlo hhi h => ?I, fun hlo hhi h5 h0 => ?S, fun hlo hhi heven h12 h5 h1 h11 => ?B, fun hmul h => ?U,
    fun hlo hhi heven h20 h1 h11 h12 => ?J⟩
  case I =>
    rw [imm12, iImmOf, h]
    exact signExtend_extractLsb'_of_range 11 (by decide) hlo (by omega)
  case S =>
    rw [imm12, sImmOf_eq_low h5 h0]
    exact signExtend_extractLsb'_of_range 11 (by decide) hlo (by omega)
  case B =>
    rw [immB, bImmOf_eq_low h12 h5 h1 h11 (extractLsb'_zero_one_of_even heven)]
    exact signExtend_extractLsb'_of_range 12 (by decide) hlo (by omega)
  case U =>
    rw [uImmOf, h]
    exact immU_extractLsb' hmul
  case J =>
    rw [immJ, jImmOf_eq_low h20 h1 h11 h12 (extractLsb'_zero_one_of_even heven)]
    exact signExtend_extractLsb'_of_range 20 (by decide) hlo (by omega)

end Sys2Proof.Machine

/-! ## Integer computational instructions: decode rows and values (40_integer_computational.md R130 to R151) -/

namespace Sys2Proof.Machine

/-! ### The slots OP-IMM and OP in the dispatch table -/

/-- Words of the OP-IMM slot go to its sub-decode (R101). -/
theorem decodeWord_opImm (p : Params) {w : Word} (hslot : slotOf w = 0b00100#5) : decodeWord p w = decodeOpImm w := by
  simp [decodeWord, hslot]

/-- Words of the OP slot go to its sub-decode (R101). -/
theorem decodeWord_op (p : Params) {w : Word} (hslot : slotOf w = 0b01100#5) : decodeWord p w = decodeOp p w := by
  simp [decodeWord, hslot]

/-- A row of R104. -/
theorem selectedBy3_opImm {f3 : BitVec 3} {mk : Word → Instr}
    (hrow : ∀ w, funct3Of w = f3 → decodeOpImm w = .instr (mk w)) : SelectedBy3 0b00100#5 f3 mk :=
  fun p w hslot hf3 _ => (decodeWord_opImm p hslot).trans (hrow w hf3)

/-- A row of R105 with `funct7 = 0000000`. -/
theorem selectedBy73_opBase {f3 : BitVec 3} {mk : Word → Instr}
    (hrow : ∀ w, funct3Of w = f3 → decodeOpBase w = .instr (mk w)) : SelectedBy73 0b01100#5 0b0000000#7 f3 mk := by
  intro p w hslot hf7 hf3 _
  simp [decodeWord_op p hslot, decodeOp, hf7, hrow w hf3]

/-- A row of R105 with `funct7 = 0100000`. -/
theorem selectedBy73_opAlt {f3 : BitVec 3} {mk : Word → Instr}
    (hrow : ∀ w, funct3Of w = f3 → decodeOpAlt w = .instr (mk w)) : SelectedBy73 0b01100#5 0b0100000#7 f3 mk := by
  intro p w hslot hf7 hf3 _
  simp [decodeWord_op p hslot, decodeOp, hf7, hrow w hf3]

/-- The bit that tells SRLI from SRAI, as a truth value (R104). -/
theorem bit30Of_eq_zero_iff (w : Word) : bit30Of w = 0#1 ↔ w.getLsbD 30 = false := by
  simp [bit30Of, BitVec.eq_of_getLsbD_eq_iff]

/-! ### The values written, as the spec's integers -/

/-- `completesX_of_finishX`, with the value written in another way than the instruction's meaning writes it. -/
theorem completesX_of_finishX_of_eq {s : State} {i : Instr} {rd : Reg} {u v : Word}
    (h : exec i s = .next (s.finishX rd u)) (huv : u = v) (hq : sequential i s = true) : CompletesX i s rd v :=
  completesX_of_finishX s (huv ▸ h) hq

/-- The I immediate keeps its signed value (R92). -/
@[simp] theorem toInt_imm12 (imm : BitVec 12) : (imm12 imm).toInt = imm.toInt :=
  BitVec.toInt_signExtend_of_le (by decide)

theorem boolWord_ltSigned (a b : Word) : boolWord (ltSigned a b) = if a.toInt < b.toInt then 1#32 else 0#32 := by
  simp [boolWord, ltSigned]

theorem boolWord_ltUnsigned (a b : Word) : boolWord (ltUnsigned a b) = if a.toNat < b.toNat then 1#32 else 0#32 := by
  simp [boolWord, ltUnsigned]

/-- An addition of words is the sum of their signed values modulo 2^32 (R133). -/
theorem add_eq_ofInt (a b : Word) : a + b = BitVec.ofInt 32 (a.toInt + b.toInt) := by
  rw [BitVec.ofInt_add, BitVec.ofInt_toInt, BitVec.ofInt_toInt]

/-- A subtraction of words is the difference of their signed values modulo 2^32 (R143). -/
theorem sub_eq_ofInt (a b : Word) : a - b = BitVec.ofInt 32 (a.toInt - b.toInt) := by
  rw [Int.sub_eq_add_neg, BitVec.ofInt_add, BitVec.ofInt_neg, BitVec.ofInt_toInt, BitVec.ofInt_toInt,
    BitVec.sub_eq_add_neg]

/-- A shift left is a multiplication by a power of two modulo 2^32 (R139, R144). -/
theorem shiftLeft_eq_ofNat (a : Word) (n : Nat) : a <<< n = BitVec.ofNat 32 (a.toNat * 2 ^ n) :=
  BitVec.eq_of_toNat_eq (by simp [Nat.shiftLeft_eq])

/-- A logical shift right is a floor division of the unsigned value (R140, R148). -/
theorem ushiftRight_eq_ofNat (a : Word) (n : Nat) : a >>> n = BitVec.ofNat 32 (a.toNat / 2 ^ n) := by
  rw [← Nat.shiftRight_eq_div_pow, ← BitVec.toNat_ushiftRight, BitVec.ofNat_toNat, BitVec.setWidth_eq]

/-- An arithmetic shift right is a floor division of the signed value (R141, R149). -/
theorem sshiftRight_eq_ofInt (a : Word) (n : Nat) : a.sshiftRight n = BitVec.ofInt 32 (a.toInt / 2 ^ n) := by
  rw [BitVec.sshiftRight, Int.shiftRight_eq_div_pow, Nat.cast_pow, Nat.cast_ofNat]

/-! ### The statements -/

/-- Settles O27: OP-IMM reads `funct3` and, at 101, bit 30 only; each shift writes the product or the floor quotient of
`shiftLeft_eq_ofNat` and its likes. -/
theorem immediateShifts : Obligations.ImmediateShifts := by
  refine ⟨selectedBy3_opImm fun w hf3 => ?slli, fun p w hslot hf3 => ?right, fun s rd rs1 shamt hi b31 b29 => ⟨
    completesX_of_finishX_of_eq rfl (shiftLeft_eq_ofNat _ _) rfl,
    completesX_of_finishX_of_eq rfl (ushiftRight_eq_ofNat _ _) rfl,
    completesX_of_finishX_of_eq rfl (sshiftRight_eq_ofInt _ _) rfl⟩⟩
  case slli => rw [decodeOpImm, hf3]; rfl
  case right =>
    rw [decodeWord_opImm p hslot, apply_ite Decoded.instr]
    simp only [decodeOpImm, hf3, bit30Of_eq_zero_iff, rs2Of]

/-- Settles O25: both slots hold one instruction, and the value is written as the statement writes it. -/
theorem upperImmediates : Obligations.UpperImmediates := by
  refine ⟨fun p w hslot => ?lui, fun p w hslot => ?auipc, fun s rd imm => ⟨
    completesX_of_finishX s rfl rfl, completesX_of_finishX s rfl rfl⟩⟩
  case lui => simp [decodeWord, hslot, uImmOf]
  case auipc => simp [decodeWord, hslot, uImmOf]

/-- Settles O26: one row of OP-IMM each, and the immediate's signed value is kept by its extension. -/
theorem registerImmediate : Obligations.RegisterImmediate := by
  refine ⟨selectedBy3_opImm ?_, selectedBy3_opImm ?_, selectedBy3_opImm ?_, selectedBy3_opImm ?_, selectedBy3_opImm ?_,
    selectedBy3_opImm ?_, fun s rd rs1 imm => ⟨
    completesX_of_finishX_of_eq rfl ?addi rfl, completesX_of_finishX_of_eq rfl ?slti rfl,
    completesX_of_finishX_of_eq rfl (boolWord_ltUnsigned _ _) rfl,
    completesX_of_finishX s rfl rfl, completesX_of_finishX s rfl rfl, completesX_of_finishX s rfl rfl⟩⟩
  case addi => rw [add_eq_ofInt, toInt_imm12]
  case slti => rw [boolWord_ltSigned, toInt_imm12]
  all_goals intro w hf3; rw [decodeOpImm, hf3]; rfl

/-- Settles O28: one row of OP each, ADD's funct7 row or SUB's. -/
theorem registerRegister : Obligations.RegisterRegister := by
  refine ⟨selectedBy73_opBase ?_, selectedBy73_opAlt ?sub, selectedBy73_opBase ?_, selectedBy73_opBase ?_,
    selectedBy73_opBase ?_, selectedBy73_opBase ?_, selectedBy73_opBase ?_, fun s rd rs1 rs2 => ⟨
    completesX_of_finishX_of_eq rfl (BitVec.add_def _ _) rfl, completesX_of_finishX_of_eq rfl (sub_eq_ofInt _ _) rfl,
    completesX_of_finishX_of_eq rfl (boolWord_ltSigned _ _) rfl,
    completesX_of_finishX_of_eq rfl (boolWord_ltUnsigned _ _) rfl,
    completesX_of_finishX s rfl rfl, completesX_of_finishX s rfl rfl, completesX_of_finishX s rfl rfl⟩⟩
  case sub => intro w hf3; rw [decodeOpAlt, hf3]; rfl
  all_goals intro w hf3; rw [decodeOpBase, hf3]; rfl

end Sys2Proof.Machine

/-! ## Control transfer: decode rows, jumps and branches (41_control_transfer.md R170 to R179) -/

namespace Sys2Proof.Machine

/-! ### The slot BRANCH in the dispatch table -/

/-- Words of the BRANCH slot go to its sub-decode (R101). -/
theorem decodeWord_branch (p : Params) {w : Word} (hslot : slotOf w = 0b11000#5) : decodeWord p w = decodeBranch w := by
  simp [decodeWord, hslot]

/-- A row of R106 that holds an instruction. -/
theorem selectedBy3_branch {f3 : BitVec 3} {mk : Word → Instr}
    (hrow : ∀ w, funct3Of w = f3 → decodeBranch w = .instr (mk w)) : SelectedBy3 0b11000#5 f3 mk :=
  fun p w hslot hf3 _ => (decodeWord_branch p hslot).trans (hrow w hf3)

/-- A row of R106 that holds none. -/
theorem illegalBy3_branch {f3 : BitVec 3} (hrow : ∀ w, funct3Of w = f3 → decodeBranch w = .illegal .funct3) :
    IllegalBy3 0b11000#5 f3 :=
  fun p w hslot hf3 => ⟨.funct3, (decodeWord_branch p hslot).trans (hrow w hf3)⟩

/-! ### Alignment of a target -/

/-- The two bits that the misalignment check reads (R170). -/
theorem aligned_iff_getLsbD (a : Word) : aligned a ↔ a.getLsbD 0 = false ∧ a.getLsbD 1 = false := by
  simp [aligned_iff, BitVec.eq_of_getLsbD_eq_iff, Nat.le_one_iff_eq_zero_or_eq_one]

/-- From an aligned `pc` the offset alone decides whether the target is aligned (R171). -/
theorem aligned_add_iff {pc : Word} (hpc : aligned pc) (d : Word) : aligned (pc + d) ↔ aligned d := by
  unfold aligned at *
  rw [BitVec.toNat_add]
  omega

/-- The two low bits of a J offset are those of its extension (R96). -/
theorem aligned_signExtend_iff (imm : BitVec 21) :
    aligned (imm.signExtend 32) ↔ imm.getLsbD 0 = false ∧ imm.getLsbD 1 = false := by
  simp [aligned_iff_getLsbD, BitVec.getElem_signExtend]

/-! ### What the shared operations do -/

/-- The core's side of JAL and JALR: the link register, then the jump (R171, R172). -/
theorem endX_writeX_jumpTo (s : State) (rd : Reg) (v t : Word) : EndX s ((s.writeX rd v).jumpTo t) rd v t where
  x := fun r => by simp
  f := fun r => by simp
  csrs := by simp [KeptCsrs]
  const := by simp [KeptConst]
  pc := by simp

/-- An instruction whose meaning is `branch`, with its condition as the spec writes it (R173). -/
theorem branchDoes_of_branch {i : Instr} {s : State} {b : Bool} {imm : BitVec 13} {taken : Prop}
    (h : exec i s = .next (s.branch b imm)) (hq : sequential i s = !b) (hb : b = true ↔ taken) :
    BranchDoes i s imm taken := by
  cases b with
  | true =>
    obtain ⟨hend, hbus, hal, hmis⟩ := jumpTo_spec s (s.pc + imm.signExtend 32)
    exact ⟨_, h, fun _ => ⟨hend, hq, hal, hmis⟩, fun hn => absurd (hb.mp rfl) hn, hbus, fun a => hbus ▸ rfl⟩
  | false =>
    exact ⟨_, h, fun ht => (Bool.false_ne_true (hb.mpr ht)).elim, fun _ => ⟨end0_advance s, hq, rfl⟩, rfl, fun _ => rfl⟩

/-! ### The statements -/

/-- Settles O30: the jump checks its target after the link is written, and the link write keeps the latch and the bus; from an
aligned `pc` the target's two low bits are the offset's. -/
theorem jumpAndLink : Obligations.JumpAndLink := by
  refine ⟨fun p w hslot => ?row, fun s rd imm => ⟨?runs, fun hpc h0 => ?bit⟩⟩
  case row => simp [decodeWord, hslot]
  case runs =>
    obtain ⟨-, hbus, hal, hmis⟩ := jumpTo_spec (s.writeX rd (s.pc + 4#32)) (s.pc + imm.signExtend 32)
    rw [State.writeX_bus] at hbus
    rw [State.writeX_exc] at hal
    exact ⟨_, rfl, endX_writeX_jumpTo s rd _ _, hal, hmis, hbus, fun a => congrArg (·.mem.byte a) hbus, rfl⟩
  case bit => rw [aligned_add_iff hpc, aligned_signExtend_iff, h0]; simp

/-- Settles O32: one row of BRANCH each, and each condition of the model is the spec's. -/
theorem branches : Obligations.Branches := by
  refine ⟨selectedBy3_branch ?_, selectedBy3_branch ?_, selectedBy3_branch ?_, selectedBy3_branch ?_,
    selectedBy3_branch ?_, selectedBy3_branch ?_, illegalBy3_branch ?_, illegalBy3_branch ?_, fun s rs1 rs2 imm => ⟨
    branchDoes_of_branch rfl rfl beq_iff_eq,
    branchDoes_of_branch rfl (Bool.not_not _).symm bne_iff_ne,
    branchDoes_of_branch rfl rfl decide_eq_true_iff,
    branchDoes_of_branch rfl (Bool.not_not _).symm ?bge,
    branchDoes_of_branch rfl rfl decide_eq_true_iff,
    branchDoes_of_branch rfl (Bool.not_not _).symm ?bgeu⟩⟩
  case bge => simp [ltSigned]
  case bgeu => simp [ltUnsigned]
  all_goals intro w hf3; rw [decodeBranch, hf3]; rfl

end Sys2Proof.Machine

/-! ## M extension: decode rows, products and quotients (44_m_extension.md R240 to R248) -/

namespace Sys2Proof.Machine

/-! ### The M row of the slot OP -/

/-- A gated sub-decode is the sub-decode where the extension is present (R117). -/
theorem gate_of_has {p : Params} {e : Extension} (h : p.has e = true) (d : Decoded) : gate p e d = d := if_pos h

/-- An instruction of an extension exists where the extension does (R117). -/
theorem Instr.present_of_extension {i : Instr} {e : Extension} (h : i.extension = some e) (p : Params) :
    i.present p = p.has e := by
  rw [Instr.present, h]

/-- A row of R105 with `funct7 = 0000001`. -/
theorem selectedBy73_opMul {f3 : BitVec 3} {mk : Word → Instr} (hext : ∀ w, (mk w).extension = some .m)
    (hrow : ∀ w, funct3Of w = f3 → decodeOpMul w = .instr (mk w)) : SelectedBy73 0b01100#5 0b0000001#7 f3 mk := by
  intro p w hslot hf7 hf3 hpres
  have hm : p.has .m = true := Instr.present_of_extension (hext w) p ▸ hpres
  simp [decodeWord_op p hslot, decodeOp, hf7, gate_of_has hm, hrow w hf3]

/-! ### The values written, as the spec's integers -/

/-- The low word of a product is that of the signed product (R241). -/
theorem mulLow_eq_ofInt (a b : Word) : mulLow a b = BitVec.ofInt 32 (a.toInt * b.toInt) := by
  rw [mulLow, BitVec.ofInt_mul, BitVec.ofInt_toInt, BitVec.ofInt_toInt]

/-- The high word of a 64-bit product is the product's floor quotient by 2^32 (R242 to R244). -/
theorem highWord_eq_ofInt (n : Int) : highWord n = BitVec.ofInt 32 (n / 2 ^ 32) := by
  apply BitVec.eq_of_toNat_eq
  simp only [highWord, BitVec.extractLsb'_toNat, BitVec.toNat_ofInt, Nat.shiftRight_eq_div_pow]
  omega

/-- The high word of the unsigned product (R244). -/
theorem mulHighU_eq_ofNat (a b : Word) : mulHighU a b = BitVec.ofNat 32 (a.toNat * b.toNat / 2 ^ 32) := by
  rw [mulHighU, highWord_eq_ofInt]
  exact BitVec.ofInt_natCast 32 _

/-! ### The statement -/

/-- Settles O42: one row each of OP's `funct7 = 0000001`, and each part of a product is the one of `mulLow_eq_ofInt` and its
likes; the quotient and the remainder are written as the statement writes them. -/
theorem mulMulhMulhuDivuRemu : Obligations.MulMulhMulhuDivuRemu := by
  refine ⟨selectedBy73_opMul (fun _ => rfl) ?_, selectedBy73_opMul (fun _ => rfl) ?_,
    selectedBy73_opMul (fun _ => rfl) ?_, selectedBy73_opMul (fun _ => rfl) ?_, selectedBy73_opMul (fun _ => rfl) ?_,
    fun s rd rs1 rs2 => ⟨
    completesX_of_finishX_of_eq rfl (mulLow_eq_ofInt _ _) rfl,
    completesX_of_finishX_of_eq rfl (highWord_eq_ofInt _) rfl,
    completesX_of_finishX_of_eq rfl (mulHighU_eq_ofNat _ _) rfl,
    completesX_of_finishX s rfl rfl, completesX_of_finishX s rfl rfl⟩⟩
  all_goals intro w hf3; rw [decodeOpMul, hf3]; rfl

end Sys2Proof.Machine

/-! ## F extension: decode rows, bit moves and classification (46_f_extension.md R295, R304 to R306, R311, R315, R318) -/

namespace Sys2Proof.Machine

/-! ### The slot OP-FP in the dispatch table -/

/-- Words of the OP-FP slot go to its sub-decode where EXT_F is present (R101, R117). -/
theorem decodeWord_opFp {p : Params} (hF : p.extF = true) {w : Word} (hslot : slotOf w = 0b10100#5) :
    decodeWord p w = decodeOpFp w := by
  simp [decodeWord, hslot, gate_of_has (e := .f) hF]

/-- A row of R112 with a fixed `funct3` and any `rs2`. -/
theorem selectedBy73_opFp {f7 : BitVec 7} {f3 : BitVec 3} {mk : Word → Instr} (hext : ∀ w, (mk w).extension = some .f)
    (hrow : ∀ w, funct7Of w = f7 → funct3Of w = f3 → decodeOpFp w = .instr (mk w)) : SelectedBy73 0b10100#5 f7 f3 mk := by
  intro p w hslot hf7 hf3 hpres
  have hF : p.has .f = true := Instr.present_of_extension (hext w) p ▸ hpres
  exact (decodeWord_opFp hF hslot).trans (hrow w hf7 hf3)

/-! ### Bit moves -/

/-- A pattern made of a sign and the low bits of another (R304 to R306). -/
theorem sign_append_low {sign : BitVec 1} {b : Bool} (hb : sign.getLsbD 0 = b) (a : Word) :
    (sign ++ a.extractLsb' 0 31).getLsbD 31 = b ∧ (sign ++ a.extractLsb' 0 31).setWidth 31 = a.setWidth 31 := by
  constructor
  · rw [BitVec.getLsbD_append, if_neg (by decide), hb]
  · rw [BitVec.setWidth_append_eq_right, BitVec.setWidth_eq_extractLsb' (by decide)]

/-- Settles O53: each row of OP-FP holds one instruction, and a sign injection appends its sign to the low bits
(`sign_append_low`). -/
theorem floatBitMoves : Obligations.FloatBitMoves := by
  refine ⟨selectedBy73_opFp (fun _ => rfl) ?fsgnj, selectedBy73_opFp (fun _ => rfl) ?fsgnjn,
    selectedBy73_opFp (fun _ => rfl) ?fsgnjx,
    fun p w hslot hrs2 hf3 hF => ⟨fun hf7 => ?fmvXW, fun hf7 => ?fmvWX⟩, fun s rd rs1 rs2 a b ha hb => ?meaning⟩
  case fsgnj | fsgnjn | fsgnjx => intro w hf7 hf3; simp only [decodeOpFp, hf7, hf3]
  case fmvXW | fmvWX => simp only [decodeWord_opFp hF hslot, decodeOpFp, hf7, hf3, hrs2, if_true]
  case meaning =>
    subst ha hb
    exact ⟨completesF_of_finishF s rfl (sign_append_low (by simp) _) rfl,
      completesF_of_finishF s rfl (sign_append_low (by simp) _) rfl,
      completesF_of_finishF s rfl (sign_append_low (by simp) _) rfl,
      completesX_of_finishX s rfl rfl, completesF_of_finishF s rfl rfl rfl⟩

/-! ### Classification -/

/-- The fields of a pattern give it back (R290). -/
theorem pack_fields (v : Word) : pack (fSign v) (fExp v) (fFrac v) = v := by
  have hs : BitVec.ofBool (fSign v) = v.extractLsb' 31 1 := by simp [fSign, BitVec.eq_of_getLsbD_eq_iff]
  rw [pack, hs, fExp, fFrac, BitVec.ofNat_toNat, BitVec.ofNat_toNat, BitVec.setWidth_eq, BitVec.setWidth_eq,
    BitVec.extractLsb'_append_extractLsb'_eq_extractLsb' (show 31 = 23 + 8 from rfl),
    BitVec.extractLsb'_append_extractLsb'_eq_extractLsb' (show 23 = 0 + 23 from rfl)]
  exact BitVec.extractLsb'_eq_self

/-- A pattern is known by its fields (R290). -/
theorem eq_pack_iff {v : Word} {sign : Bool} {e f : Nat} (he : e < 256) (hf : f < 2 ^ 23) :
    v = pack sign e f ↔ fSign v = sign ∧ fExp v = e ∧ fFrac v = f := by
  constructor
  · rintro rfl
    exact ⟨fSign_pack sign e f, fExp_pack sign e f he, fFrac_pack sign e f hf⟩
  · rintro ⟨rfl, rfl, rfl⟩
    exact (pack_fields v).symm

theorem eq_negInf_iff {v : Word} : v = 0xFF800000#32 ↔ fSign v = true ∧ fExp v = 255 ∧ fFrac v = 0 :=
  eq_pack_iff (sign := true) (e := 255) (f := 0) (by decide) (by decide)

theorem eq_posInf_iff {v : Word} : v = 0x7F800000#32 ↔ fSign v = false ∧ fExp v = 255 ∧ fFrac v = 0 :=
  eq_pack_iff (sign := false) (e := 255) (f := 0) (by decide) (by decide)

theorem eq_negZero_iff {v : Word} : v = 0x80000000#32 ↔ fSign v = true ∧ fExp v = 0 ∧ fFrac v = 0 :=
  eq_pack_iff (sign := true) (e := 0) (f := 0) (by decide) (by decide)

theorem eq_posZero_iff {v : Word} : v = 0x00000000#32 ↔ fSign v = false ∧ fExp v = 0 ∧ fFrac v = 0 :=
  eq_pack_iff (sign := false) (e := 0) (f := 0) (by decide) (by decide)

theorem expField_eq_iff {v : Word} {e : BitVec 8} : v.extractLsb' 23 8 = e ↔ fExp v = e.toNat := BitVec.toNat_inj.symm

theorem fracField_eq_zero_iff {v : Word} : v.extractLsb' 0 23 = 0#23 ↔ fFrac v = 0 := BitVec.toNat_inj.symm

/-- The quiet bit of a NaN is its fraction's top bit. -/
theorem bit22_of_fFrac_eq_zero {v : Word} (h : fFrac v = 0) : v.getLsbD 22 = false := by
  have hlow : v.extractLsb' 0 23 = 0#23 := fracField_eq_zero_iff.mpr h
  calc v.getLsbD 22 = (v.extractLsb' 0 23).getLsbD 22 := by simp
    _ = false := by rw [hlow]; decide

/-- An exponent between the two special ones is a normal number's. -/
theorem fExp_normal {v : Word} (h255 : fExp v ≠ 255) (h0 : fExp v ≠ 0) : 1 ≤ fExp v ∧ fExp v ≤ 254 := by
  have hlt : fExp v < 256 := (v.extractLsb' 23 8).isLt
  omega

/-- The row of R295's table that a pattern lies in, found by its exponent, then its fraction, then its sign or quiet bit. -/
def classBit (v : Word) : Nat :=
  if fExp v = 255 then
    if fFrac v = 0 then if fSign v = true then 0 else 7
    else if v.getLsbD 22 = true then 9 else 8
  else if fExp v = 0 then
    if fFrac v = 0 then if fSign v = true then 3 else 4
    else if fSign v = true then 2 else 5
  else if fSign v = true then 1 else 6

theorem classBit_lt (v : Word) : classBit v < 10 := by
  unfold classBit; split_ifs <;> decide

/-- `fclass` sets the bit of the pattern's row (R295). -/
theorem fclass_eq_two_pow (v : Word) : fclass v = BitVec.ofNat 32 (2 ^ classBit v) := by
  have hnormal := @fExp_normal v
  generalize hbit : classBit v = k
  unfold classBit at hbit
  split_ifs at hbit <;> subst hbit <;>
    simp_all [fclass, eq_negInf_iff, eq_posInf_iff, eq_negZero_iff, eq_posZero_iff]

/-- R324 (2). -/
theorem lawClassOneBit : LawClassOneBit := fun v => ⟨classBit v, classBit_lt v, fclass_eq_two_pow v⟩

/-- Settles O56: in each row of `classBit` the mask and every condition of the table are known from the fields. -/
theorem floatClassify : Obligations.FloatClassify := by
  refine ⟨fun p w hslot hf7 hrs2 hf3 hF => ?row, fun s rd rs1 v hv => ?classes⟩
  case row => simp only [decodeWord_opFp hF hslot, decodeOpFp, hf7, hf3, hrs2, if_true]
  case classes =>
    refine ⟨fclass v, hv ▸ completesX_of_finishX s rfl rfl, lawClassOneBit v, ?_⟩
    have hsign : v.getLsbD 31 = fSign v := rfl
    have hexp : (v.extractLsb' 23 8).toNat = fExp v := rfl
    have hnormal := @fExp_normal v
    have hquiet := @bit22_of_fFrac_eq_zero v
    have hmask := fclass_eq_two_pow v
    simp only [eq_negInf_iff, eq_posInf_iff, eq_negZero_iff, eq_posZero_iff, hsign, hexp,
      expField_eq_iff, fracField_eq_zero_iff, ne_eq]
    unfold classBit at hmask
    split_ifs at hmask <;> simp_all

end Sys2Proof.Machine

/-! ## The counter of a step (60_exceptions.md R370) -/

namespace Sys2Proof.Machine

/-- A handler's write has no form that names the counter (R212). -/
@[simp] theorem State.applyWrite_csrCycle (s : State) (w : EnvWrite) : (s.applyWrite w).csrCycle = s.csrCycle := by
  cases w with
  | x r v => exact State.writeX_csrCycle s r v
  | f r v => rw [State.applyWrite]; split <;> rfl
  | pc v => rfl
  | latch k => rfl
  | mem a b => rfl

@[simp] theorem State.applyWrites_csrCycle (s : State) (h : Handler) : (s.applyWrites h).csrCycle = s.csrCycle := by
  induction h generalizing s with
  | nil => rfl
  | cons w ws ih => rw [State.applyWrites, ih, State.applyWrite_csrCycle]

@[simp] theorem State.callHandler_csrCycle (s : State) (tr : Transaction) (ref : Handler) :
    (s.callHandler tr ref).csrCycle = s.csrCycle :=
  State.applyWrites_csrCycle _ _

/-- No instruction writes the counter: it is the driver's alone (R28, R395). -/
theorem exec_csrCycle {i : Instr} {s t : State} (h : exec i s = .next t) : t.csrCycle = s.csrCycle := by
  cases runs_of_exec h with
  | x | f | nothing | jump | load | flw | store | sc => simp
  | csr => simp [State.csrAccess]
  | branch taken imm =>
    cases taken with
    | false => rfl
    | true => exact State.jumpTo_csrCycle s _
  | amo => simp [State.amo]
  | ecall | ebreak => exact State.callHandler_csrCycle s _ _

/-- Settles O12: the instruction (`exec_csrCycle`) or the illegal word leaves the counter to the one `retire` of the step; a
latched step has none. -/
theorem everyStepCountsOne : Obligations.EveryStepCountsOne := by
  refine fun s => ⟨fun he hmax => ?counts, fun he => ⟨s, step_latched he, rfl⟩⟩
  have retired {t : State} (ht : t.csrCycle = s.csrCycle) : t.retire.csrCycle = s.csrCycle + 1#64 := by
    rw [State.retire_csrCycle_of_ne t (ht ▸ hmax), ht]
  rcases step_cases s he with ⟨i, t, -, hx, -, hstep⟩ | ⟨r, -, hstep⟩
  · exact ⟨_, hstep, retired ((exec_csrCycle hx).trans (State.iFetch_csrCycle s))⟩
  · exact ⟨_, hstep, retired rfl⟩

end Sys2Proof.Machine

namespace Sys2Proof.Machine

/-! ## Decode and encode (30_encoding.md R99 to R118) -/

/-! ### From an instruction to its word and back -/

theorem Instr.wellFormed_iff {p : Params} {i : Instr} : i.wellFormed p = true ↔ i.wf = true ∧ i.present p = true := by
  simp [Instr.wellFormed]

/-- The check of a B or J offset is what its round trip needs (R94, R96). -/
theorem evenOffset_iff {n : Nat} {imm : BitVec n} : evenOffset imm = true ↔ imm.getLsbD 0 = false := by
  simp [evenOffset]

/-- The gate of an instruction's extension is open where the instruction exists (R117). -/
theorem gate_of_present {p : Params} {i : Instr} {e : Extension} (hp : i.present p = true) (he : i.extension = some e)
    (d : Decoded) : gate p e d = d :=
  gate_of_has (Instr.present_of_extension he p ▸ hp) d

/-- The word of an instruction decodes to it: its fields read back, and its selectors choose its row. -/
theorem decodeWord_encode {p : Params} {i : Instr} (hwf : i.wf = true) (hp : i.present p = true) :
    decodeWord p (encode i) = .instr i := by
  cases i
  case lui | auipc => simp [encode, decodeWord]
  case jal => simp [encode, decodeWord, jImmOf_encJ _ _ _ (evenOffset_iff.mp hwf)]
  case jalr => simp [encode, decodeWord, decodeJalr]
  case beq | bne | blt | bge | bltu | bgeu =>
    simp [encode, decodeWord, decodeBranch, bImmOf_encB _ _ _ _ _ (evenOffset_iff.mp hwf)]
  case lb | lh | lw | lbu | lhu => simp [encode, decodeWord, decodeLoad]
  case sb | sh | sw => simp [encode, decodeWord, decodeStore]
  case addi | slti | sltiu | xori | ori | andi | slli => simp [encode, decodeWord, decodeOpImm]
  case srli rd rs1 shamt b31 b29 =>
    obtain ⟨h30, h31, h29⟩ := bit30Of_encR_shift b31 0#1 b29 shamt rs1 0b101#3 rd 0b00100#5
    simp [encode, decodeWord, decodeOpImm, h30, h31, h29]
  case srai rd rs1 shamt b31 b29 =>
    obtain ⟨h30, h31, h29⟩ := bit30Of_encR_shift b31 1#1 b29 shamt rs1 0b101#3 rd 0b00100#5
    simp [encode, decodeWord, decodeOpImm, h30, h31, h29]
  case add | sll | slt | sltu | xor | srl | or | and => simp [encode, decodeWord, decodeOp, decodeOpBase]
  case sub | sra => simp [encode, decodeWord, decodeOp, decodeOpAlt]
  case fence rd rs1 succ pred fm =>
    obtain ⟨hsucc, hpred, hfm⟩ := fenceFields_encI fm pred succ rs1 0b000#3 rd 0b00011#5
    simp [encode, decodeWord, decodeMiscMem, hsucc, hpred, hfm]
  case fenceI => simp [encode, decodeWord, decodeMiscMem, gate_of_present hp rfl]
  case ecall | ebreak => simp [encode, decodeWord, decodeSystem]
  case csrrw | csrrs | csrrc | csrrwi | csrrsi | csrrci =>
    simp [encode, decodeWord, decodeSystem, gate_of_present hp rfl]
  case mul | mulh | mulhsu | mulhu | div | divu | rem | remu =>
    simp [encode, decodeWord, decodeOp, decodeOpMul, gate_of_present hp rfl]
  case lrW | scW | amoswapW | amoaddW | amoxorW | amoandW | amoorW | amominW | amomaxW | amominuW | amomaxuW =>
    simp [encode, decodeWord, decodeAmo, gate_of_present hp rfl]
  case flw => simp [encode, decodeWord, decodeLoadFp, gate_of_present hp rfl]
  case fsw => simp [encode, decodeWord, decodeStoreFp, gate_of_present hp rfl]
  case fmaddS | fmsubS | fnmsubS | fnmaddS => simp [encode, decodeWord, decodeFused, gate_of_present hp rfl]
  all_goals simp [encode, decodeWord, decodeOpFp, gate_of_present hp rfl]

/-- Settles O1: `decodeWord_encode`. -/
theorem decodeOfEncode : Obligations.DecodeOfEncode := by
  intro p i h
  obtain ⟨hwf, hp⟩ := Instr.wellFormed_iff.mp h
  exact decodeWord_encode hwf hp

end Sys2Proof.Machine

namespace Sys2Proof.Machine

/-! ### From a word to its instruction and back: each sub-decode keeps every field -/

theorem or_three_or_three (w : Word) : (w ||| 3#32) ||| 3#32 = w ||| 3#32 := by
  rw [BitVec.or_assoc, BitVec.or_self]

/-- `i` holds the fields of `w`: its offset is even, its word is `w` but for `inst[1:0]`, and those too are kept by a call. -/
structure Spells (w : Word) (i : Instr) : Prop where
  wf : i.wf = true
  word : encode i ||| 3#32 = w ||| 3#32
  ecall : ∀ rd rs1 lo, i = .ecall rd rs1 lo → encode i = w
  ebreak : ∀ rd rs1 lo, i = .ebreak rd rs1 lo → encode i = w

/-- An instruction other than a call is spelled with `inst[1:0] = 11`. -/
theorem Spells.of_encode {w : Word} {i : Instr} (h : encode i = w ||| 3#32) (hwf : i.wf = true)
    (he : ∀ rd rs1 lo, i ≠ .ecall rd rs1 lo) (hb : ∀ rd rs1 lo, i ≠ .ebreak rd rs1 lo) : Spells w i where
  wf := hwf
  word := by rw [h, or_three_or_three]
  ecall := fun _ _ _ hi => absurd hi (he _ _ _)
  ebreak := fun _ _ _ hi => absurd hi (hb _ _ _)

section Fields

variable {w : Word} {slot : BitVec 5} {f3 : BitVec 3} {f7 : BitVec 7} {rs2 : Reg}

theorem encR_of_fields (hs : slotOf w = slot) (h7 : funct7Of w = f7) (h2 : rs2Of w = rs2) (h3 : funct3Of w = f3) :
    encR f7 rs2 (rs1Of w) f3 (rdOf w) slot = w ||| 3#32 := by
  subst hs h7 h2 h3; exact encR_fields w

theorem encI_of_fields (hs : slotOf w = slot) (h3 : funct3Of w = f3) :
    encI (iImmOf w) (rs1Of w) f3 (rdOf w) slot = w ||| 3#32 := by
  subst hs h3; exact encI_fields w

theorem encS_of_fields (hs : slotOf w = slot) (h3 : funct3Of w = f3) :
    encS (sImmOf w) (rs2Of w) (rs1Of w) f3 slot = w ||| 3#32 := by
  subst hs h3; exact encS_fields w

theorem encB_of_fields (hs : slotOf w = slot) (h3 : funct3Of w = f3) :
    encB (bImmOf w) (rs2Of w) (rs1Of w) f3 slot = w ||| 3#32 := by
  subst hs h3; exact encB_fields w

theorem encU_of_fields (hs : slotOf w = slot) : encU (uImmOf w) (rdOf w) slot = w ||| 3#32 := by
  subst hs; exact encU_fields w

theorem encJ_of_fields (hs : slotOf w = slot) : encJ (jImmOf w) (rdOf w) slot = w ||| 3#32 := by
  subst hs; exact encJ_fields w

theorem encR4_of_fields (hs : slotOf w = slot) (hfmt : fmtOf w = 0b00#2) :
    encR4 (rs3Of w) (rs2Of w) (rs1Of w) (funct3Of w) (rdOf w) slot = w ||| 3#32 := by
  subst hs; exact encR4_fields w hfmt

theorem encAmo_of_fields {f5 : BitVec 5} (hs : slotOf w = 0b01011#5) (h3 : funct3Of w = 0b010#3) (h5 : rs3Of w = f5)
    (h2 : rs2Of w = rs2) : encAmo f5 (aqOf w) (rlOf w) rs2 (rs1Of w) (rdOf w) = w ||| 3#32 := by
  subst h5 h2; exact encAmo_fields w hs h3

theorem encCall_of_fields {imm : BitVec 12} (hs : slotOf w = 0b11100#5) (h3 : funct3Of w = 0b000#3) (hi : iImmOf w = imm) :
    encCall imm (rs1Of w) (rdOf w) (lowOf w) = w := by
  subst hi; exact encCall_fields w hs h3

end Fields

/-- The eighth value of a `funct3`. -/
theorem eq_seven_of_ne : ∀ f3 : BitVec 3, f3 ≠ 0b000#3 → f3 ≠ 0b001#3 → f3 ≠ 0b010#3 → f3 ≠ 0b011#3 → f3 ≠ 0b100#3 →
    f3 ≠ 0b101#3 → f3 ≠ 0b110#3 → f3 = 0b111#3 := by
  intro f3 h0 h1 h2 h3 h4 h5 h6
  bv_omega

/-- A gated sub-decode that answers an instruction: its extension is there (R117). -/
theorem gate_eq_instr {p : Params} {e : Extension} {d : Decoded} {i : Instr} (h : gate p e d = .instr i) :
    p.has e = true ∧ d = .instr i := by
  unfold gate at h
  split at h
  · next he => exact ⟨he, h⟩
  · cases h

theorem Instr.present_of_none {i : Instr} (h : i.extension = none) (p : Params) : i.present p = true := by
  rw [Instr.present, h]

section SubDecoders

variable {p : Params} {w : Word} {i : Instr}

theorem decodeLoad_spells (hs : slotOf w = 0b00000#5) (h : decodeLoad w = .instr i) :
    Spells w i ∧ i.extension = none := by
  unfold decodeLoad at h
  split at h <;> cases h <;> next hf3 => exact ⟨.of_encode (encI_of_fields hs hf3) rfl nofun nofun, rfl⟩

theorem decodeLoadFp_spells (hs : slotOf w = 0b00001#5) (h : decodeLoadFp w = .instr i) :
    Spells w i ∧ i.extension = some .f := by
  unfold decodeLoadFp at h
  split at h <;> cases h
  next hf3 => exact ⟨.of_encode (encI_of_fields hs hf3) rfl nofun nofun, rfl⟩

theorem decodeMiscMem_spells (hs : slotOf w = 0b00011#5) (h : decodeMiscMem p w = .instr i) :
    Spells w i ∧ i.present p = true := by
  unfold decodeMiscMem at h
  split at h
  · next hf3 =>
    cases h
    refine ⟨.of_encode ?_ rfl nofun nofun, rfl⟩
    rw [encode, fenceFields]
    exact encI_of_fields hs hf3
  · next hf3 =>
    obtain ⟨hp, h⟩ := gate_eq_instr h
    cases h
    exact ⟨.of_encode (encI_of_fields hs hf3) rfl nofun nofun, hp⟩
  · cases h

theorem bit30Of_eq_one {w : Word} (h : bit30Of w ≠ 0#1) : bit30Of w = 1#1 := by
  revert h; generalize bit30Of w = b; revert b; decide

theorem decodeOpImm_spells (hs : slotOf w = 0b00100#5) (h : decodeOpImm w = .instr i) :
    Spells w i ∧ i.extension = none := by
  unfold decodeOpImm at h
  split at h
  case h_2 hf3 => cases h; exact ⟨.of_encode (encR_of_fields hs rfl rfl hf3) rfl nofun nofun, rfl⟩
  case h_6 hf3 =>
    split at h <;> cases h
    · next hb =>
      exact ⟨.of_encode (encR_of_fields hs (by rw [← hb, shiftFields]) rfl hf3) rfl nofun nofun, rfl⟩
    · next hb =>
      exact ⟨.of_encode (encR_of_fields hs (by rw [← bit30Of_eq_one hb, shiftFields]) rfl hf3) rfl nofun nofun, rfl⟩
  case h_8 h0 h1 h2 h3 h4 h5 h6 =>
    cases h
    exact ⟨.of_encode (encI_of_fields hs (eq_seven_of_ne _ h0 h1 h2 h3 h4 h5 h6)) rfl nofun nofun, rfl⟩
  all_goals next hf3 => cases h; exact ⟨.of_encode (encI_of_fields hs hf3) rfl nofun nofun, rfl⟩

theorem decodeStore_spells (hs : slotOf w = 0b01000#5) (h : decodeStore w = .instr i) :
    Spells w i ∧ i.extension = none := by
  unfold decodeStore at h
  split at h <;> cases h <;> next hf3 => exact ⟨.of_encode (encS_of_fields hs hf3) rfl nofun nofun, rfl⟩

theorem decodeStoreFp_spells (hs : slotOf w = 0b01001#5) (h : decodeStoreFp w = .instr i) :
    Spells w i ∧ i.extension = some .f := by
  unfold decodeStoreFp at h
  split at h <;> cases h
  next hf3 => exact ⟨.of_encode (encS_of_fields hs hf3) rfl nofun nofun, rfl⟩

theorem decodeAmo_spells (hs : slotOf w = 0b01011#5) (h : decodeAmo w = .instr i) :
    Spells w i ∧ i.extension = some .a := by
  unfold decodeAmo at h
  split at h
  · next hf3 =>
    split at h
    case h_1 hf5 =>
      split at h <;> cases h
      next hrs2 => exact ⟨.of_encode (encAmo_of_fields hs hf3 hf5 hrs2) rfl nofun nofun, rfl⟩
    case h_12 => cases h
    all_goals next hf5 => cases h; exact ⟨.of_encode (encAmo_of_fields hs hf3 hf5 rfl) rfl nofun nofun, rfl⟩
  · cases h

theorem decodeOpBase_spells (hs : slotOf w = 0b01100#5) (h7 : funct7Of w = 0b0000000#7) (h : decodeOpBase w = .instr i) :
    Spells w i ∧ i.extension = none := by
  unfold decodeOpBase at h
  split at h
  case h_8 h0 h1 h2 h3 h4 h5 h6 =>
    cases h
    exact ⟨.of_encode (encR_of_fields hs h7 rfl (eq_seven_of_ne _ h0 h1 h2 h3 h4 h5 h6)) rfl nofun nofun, rfl⟩
  all_goals next hf3 => cases h; exact ⟨.of_encode (encR_of_fields hs h7 rfl hf3) rfl nofun nofun, rfl⟩

theorem decodeOpAlt_spells (hs : slotOf w = 0b01100#5) (h7 : funct7Of w = 0b0100000#7) (h : decodeOpAlt w = .instr i) :
    Spells w i ∧ i.extension = none := by
  unfold decodeOpAlt at h
  split at h <;> cases h <;> next hf3 => exact ⟨.of_encode (encR_of_fields hs h7 rfl hf3) rfl nofun nofun, rfl⟩

theorem decodeOpMul_spells (hs : slotOf w = 0b01100#5) (h7 : funct7Of w = 0b0000001#7) (h : decodeOpMul w = .instr i) :
    Spells w i ∧ i.extension = some .m := by
  unfold decodeOpMul at h
  split at h
  case h_8 h0 h1 h2 h3 h4 h5 h6 =>
    cases h
    exact ⟨.of_encode (encR_of_fields hs h7 rfl (eq_seven_of_ne _ h0 h1 h2 h3 h4 h5 h6)) rfl nofun nofun, rfl⟩
  all_goals next hf3 => cases h; exact ⟨.of_encode (encR_of_fields hs h7 rfl hf3) rfl nofun nofun, rfl⟩

/-- What a gated sub-decode answers exists. -/
theorem present_of_gate {e : Extension} (hp : p.has e = true) (h : Spells w i ∧ i.extension = some e) :
    Spells w i ∧ i.present p = true :=
  h.imp_right fun he => (Instr.present_of_extension he p).trans hp

theorem present_of_base (h : Spells w i ∧ i.extension = none) : Spells w i ∧ i.present p = true :=
  h.imp_right fun he => Instr.present_of_none he p

theorem decodeOp_spells (hs : slotOf w = 0b01100#5) (h : decodeOp p w = .instr i) :
    Spells w i ∧ i.present p = true := by
  unfold decodeOp at h
  split at h
  · next h7 => exact present_of_base (decodeOpBase_spells hs h7 h)
  · next h7 => exact present_of_base (decodeOpAlt_spells hs h7 h)
  · next h7 =>
    obtain ⟨hp, h⟩ := gate_eq_instr h
    exact present_of_gate hp (decodeOpMul_spells hs h7 h)
  · cases h

theorem decodeOpFp_spells (hs : slotOf w = 0b10100#5) (h : decodeOpFp w = .instr i) :
    Spells w i ∧ i.extension = some .f := by
  unfold decodeOpFp at h
  split at h
  case h_1 h7 | h_2 h7 | h_3 h7 | h_4 h7 =>
    cases h; exact ⟨.of_encode (encR_of_fields hs h7 rfl rfl) rfl nofun nofun, rfl⟩
  case h_5 h7 =>
    split at h <;> cases h
    next h2 => exact ⟨.of_encode (encR_of_fields hs h7 h2 rfl) rfl nofun nofun, rfl⟩
  case h_6 h7 | h_7 h7 | h_10 h7 =>
    split at h <;> cases h <;>
      next h3 => exact ⟨.of_encode (encR_of_fields hs h7 rfl h3) rfl nofun nofun, rfl⟩
  case h_8 h7 | h_11 h7 =>
    split at h <;> cases h <;>
      next h2 => exact ⟨.of_encode (encR_of_fields hs h7 h2 rfl) rfl nofun nofun, rfl⟩
  case h_9 h7 | h_12 h7 =>
    split at h
    · next h2 =>
      split at h <;> cases h <;>
        next h3 => exact ⟨.of_encode (encR_of_fields hs h7 h2 h3) rfl nofun nofun, rfl⟩
    · cases h
  case h_13 => cases h

theorem decodeBranch_spells (hs : slotOf w = 0b11000#5) (h : decodeBranch w = .instr i) :
    Spells w i ∧ i.extension = none := by
  unfold decodeBranch at h
  split at h <;> cases h <;>
    next hf3 => exact ⟨.of_encode (encB_of_fields hs hf3) (evenOffset_bImmOf w) nofun nofun, rfl⟩

theorem decodeJalr_spells (hs : slotOf w = 0b11001#5) (h : decodeJalr w = .instr i) :
    Spells w i ∧ i.extension = none := by
  unfold decodeJalr at h
  split at h <;> cases h
  next hf3 => exact ⟨.of_encode (encI_of_fields hs hf3) rfl nofun nofun, rfl⟩

theorem decodeSystem_spells (hs : slotOf w = 0b11100#5) (h : decodeSystem p w = .instr i) :
    Spells w i ∧ i.present p = true := by
  unfold decodeSystem at h
  split at h
  case h_1 hf3 =>
    split at h
    · next himm =>
      have hw := encCall_of_fields hs hf3 himm
      cases h
      exact ⟨⟨rfl, congrArg (· ||| 3#32) hw, fun _ _ _ _ => hw, nofun⟩, rfl⟩
    · split at h <;> cases h
      next himm =>
      have hw := encCall_of_fields hs hf3 himm
      exact ⟨⟨rfl, congrArg (· ||| 3#32) hw, nofun, fun _ _ _ _ => hw⟩, rfl⟩
  case h_8 => cases h
  all_goals
    next hf3 =>
    obtain ⟨hp, h⟩ := gate_eq_instr h
    cases h
    exact ⟨.of_encode (encI_of_fields hs hf3) rfl nofun nofun, hp⟩

end SubDecoders

/-- What the decoder answers holds every field of the word, and exists under the parameters. -/
theorem decodeWord_spells {p : Params} {w : Word} {i : Instr} (h : decodeWord p w = .instr i) :
    Spells w i ∧ i.present p = true := by
  unfold decodeWord at h
  split at h
  case h_1 hs => exact present_of_base (decodeLoad_spells hs h)
  case h_2 hs =>
    obtain ⟨hp, h⟩ := gate_eq_instr h
    exact present_of_gate hp (decodeLoadFp_spells hs h)
  case h_3 hs => exact decodeMiscMem_spells hs h
  case h_4 hs => exact present_of_base (decodeOpImm_spells hs h)
  case h_5 hs | h_10 hs => cases h; exact ⟨.of_encode (encU_of_fields hs) rfl nofun nofun, rfl⟩
  case h_6 hs => exact present_of_base (decodeStore_spells hs h)
  case h_7 hs =>
    obtain ⟨hp, h⟩ := gate_eq_instr h
    exact present_of_gate hp (decodeStoreFp_spells hs h)
  case h_8 hs =>
    obtain ⟨hp, h⟩ := gate_eq_instr h
    exact present_of_gate hp (decodeAmo_spells hs h)
  case h_9 hs => exact decodeOp_spells hs h
  case h_11 hs | h_12 hs | h_13 hs | h_14 hs =>
    obtain ⟨hp, h⟩ := gate_eq_instr h
    unfold decodeFused at h
    split at h <;> cases h
    next hfmt => exact ⟨.of_encode (encR4_of_fields hs hfmt) rfl nofun nofun, hp⟩
  case h_15 hs =>
    obtain ⟨hp, h⟩ := gate_eq_instr h
    exact present_of_gate hp (decodeOpFp_spells hs h)
  case h_16 hs => exact present_of_base (decodeBranch_spells hs h)
  case h_17 hs => exact present_of_base (decodeJalr_spells hs h)
  case h_18 hs => cases h; exact ⟨.of_encode (encJ_of_fields hs) (evenOffset_jImmOf w) nofun nofun, rfl⟩
  case h_19 hs => exact decodeSystem_spells hs h
  case h_20 => cases h

/-- Settles O2: `decodeWord_spells`. -/
theorem encodeOfDecode : Obligations.EncodeOfDecode := by
  intro p w i h
  obtain ⟨hw, hp⟩ := decodeWord_spells h
  exact ⟨Instr.wellFormed_iff.mpr ⟨hw.wf, hp⟩, hw.word, fun rd rs1 lo hi => hi.elim (hw.ecall rd rs1 lo) (hw.ebreak rd rs1 lo)⟩

/-! ### `inst[1:0]` (R100, D9) -/

/-- The word with other low bits. -/
def withLow (w : Word) (lo : BitVec 2) : Word := w.extractLsb' 2 30 ++ lo

/-- Every field above `inst[1:0]` is kept. -/
theorem extractLsb'_withLow (w : Word) (lo : BitVec 2) {k n : Nat} (h2 : 2 ≤ k) (hn : k + n ≤ 32) :
    (withLow w lo).extractLsb' k n = w.extractLsb' k n := by
  ext j hj
  have hadd : 2 + (k + j - 2) = k + j := by omega
  rw [withLow, BitVec.getElem_extractLsb', BitVec.getElem_extractLsb', BitVec.getLsbD_append, if_neg (by omega),
    BitVec.getLsbD_extractLsb', decide_eq_true (by omega), Bool.true_and, hadd]

theorem lowOf_withLow (w : Word) (lo : BitVec 2) : lowOf (withLow w lo) = lo := by
  ext j hj
  rw [lowOf, withLow, BitVec.getElem_extractLsb', BitVec.getLsbD_append, if_pos (by omega), Nat.zero_add,
    BitVec.getLsbD_eq_getElem]

/-- The decoder's answer to a word with other low bits: only a call shows them. -/
def setLow (lo : BitVec 2) : Decoded → Decoded
  | .instr (.ecall rd rs1 _) => .instr (.ecall rd rs1 lo)
  | .instr (.ebreak rd rs1 _) => .instr (.ebreak rd rs1 lo)
  | d => d

/-- The gate looks at the extension alone. -/
theorem setLow_gate (p : Params) (e : Extension) (d : Decoded) (lo : BitVec 2) :
    setLow lo (gate p e d) = gate p e (setLow lo d) := by
  unfold gate; split <;> rfl

section WithLow

variable (p : Params) (w : Word) (lo : BitVec 2)

@[simp] theorem slotOf_withLow : slotOf (withLow w lo) = slotOf w := extractLsb'_withLow w lo (by decide) (by decide)
@[simp] theorem rdOf_withLow : rdOf (withLow w lo) = rdOf w := extractLsb'_withLow w lo (by decide) (by decide)
@[simp] theorem funct3Of_withLow : funct3Of (withLow w lo) = funct3Of w := extractLsb'_withLow w lo (by decide) (by decide)
@[simp] theorem rs1Of_withLow : rs1Of (withLow w lo) = rs1Of w := extractLsb'_withLow w lo (by decide) (by decide)
@[simp] theorem rs2Of_withLow : rs2Of (withLow w lo) = rs2Of w := extractLsb'_withLow w lo (by decide) (by decide)
@[simp] theorem rs3Of_withLow : rs3Of (withLow w lo) = rs3Of w := extractLsb'_withLow w lo (by decide) (by decide)
@[simp] theorem funct7Of_withLow : funct7Of (withLow w lo) = funct7Of w := extractLsb'_withLow w lo (by decide) (by decide)
@[simp] theorem fmtOf_withLow : fmtOf (withLow w lo) = fmtOf w := extractLsb'_withLow w lo (by decide) (by decide)
@[simp] theorem aqOf_withLow : aqOf (withLow w lo) = aqOf w := extractLsb'_withLow w lo (by decide) (by decide)
@[simp] theorem rlOf_withLow : rlOf (withLow w lo) = rlOf w := extractLsb'_withLow w lo (by decide) (by decide)
@[simp] theorem bit30Of_withLow : bit30Of (withLow w lo) = bit30Of w := extractLsb'_withLow w lo (by decide) (by decide)
@[simp] theorem iImmOf_withLow : iImmOf (withLow w lo) = iImmOf w := extractLsb'_withLow w lo (by decide) (by decide)
@[simp] theorem uImmOf_withLow : uImmOf (withLow w lo) = uImmOf w := extractLsb'_withLow w lo (by decide) (by decide)
@[simp] theorem sImmOf_withLow : sImmOf (withLow w lo) = sImmOf w := by simp [sImmOf, extractLsb'_withLow]
@[simp] theorem bImmOf_withLow : bImmOf (withLow w lo) = bImmOf w := by simp [bImmOf, extractLsb'_withLow]
@[simp] theorem jImmOf_withLow : jImmOf (withLow w lo) = jImmOf w := by simp [jImmOf, extractLsb'_withLow]

end WithLow

section WithLowDecode

variable (p : Params) (w : Word) (lo : BitVec 2)

/-! A sub-decode reads no low bit, and only SYSTEM's shows them in its answer. -/

theorem decodeLoad_withLow : decodeLoad (withLow w lo) = setLow lo (decodeLoad w) := by
  simp only [decodeLoad, rdOf_withLow, rs1Of_withLow, iImmOf_withLow, funct3Of_withLow]
  split <;> rfl

theorem decodeLoadFp_withLow : decodeLoadFp (withLow w lo) = setLow lo (decodeLoadFp w) := by
  simp only [decodeLoadFp, rdOf_withLow, rs1Of_withLow, iImmOf_withLow, funct3Of_withLow]
  split <;> rfl

theorem decodeMiscMem_withLow : decodeMiscMem p (withLow w lo) = setLow lo (decodeMiscMem p w) := by
  simp only [decodeMiscMem, rdOf_withLow, rs1Of_withLow, iImmOf_withLow, funct3Of_withLow]
  simp only [extractLsb'_withLow, Nat.reduceLeDiff, Nat.reduceAdd]
  split
  · rfl
  · rw [setLow_gate]; rfl
  · rfl

theorem decodeOpImm_withLow : decodeOpImm (withLow w lo) = setLow lo (decodeOpImm w) := by
  simp only [decodeOpImm, rdOf_withLow, rs1Of_withLow, rs2Of_withLow, iImmOf_withLow, funct3Of_withLow, funct7Of_withLow,
    bit30Of_withLow]
  simp only [extractLsb'_withLow, Nat.reduceLeDiff, Nat.reduceAdd]
  split
  case h_6 => split <;> rfl
  all_goals rfl

theorem decodeStore_withLow : decodeStore (withLow w lo) = setLow lo (decodeStore w) := by
  simp only [decodeStore, rs1Of_withLow, rs2Of_withLow, sImmOf_withLow, funct3Of_withLow]
  split <;> rfl

theorem decodeStoreFp_withLow : decodeStoreFp (withLow w lo) = setLow lo (decodeStoreFp w) := by
  simp only [decodeStoreFp, rs1Of_withLow, rs2Of_withLow, sImmOf_withLow, funct3Of_withLow]
  split <;> rfl

theorem decodeAmo_withLow : decodeAmo (withLow w lo) = setLow lo (decodeAmo w) := by
  simp only [decodeAmo, rdOf_withLow, rs1Of_withLow, rs2Of_withLow, rs3Of_withLow, aqOf_withLow, rlOf_withLow,
    funct3Of_withLow]
  split
  · split
    case h_1 => split <;> rfl
    all_goals rfl
  · rfl

theorem decodeOpBase_withLow : decodeOpBase (withLow w lo) = setLow lo (decodeOpBase w) := by
  simp only [decodeOpBase, rdOf_withLow, rs1Of_withLow, rs2Of_withLow, funct3Of_withLow]
  split <;> rfl

theorem decodeOpAlt_withLow : decodeOpAlt (withLow w lo) = setLow lo (decodeOpAlt w) := by
  simp only [decodeOpAlt, rdOf_withLow, rs1Of_withLow, rs2Of_withLow, funct3Of_withLow]
  split <;> rfl

theorem decodeOpMul_withLow : decodeOpMul (withLow w lo) = setLow lo (decodeOpMul w) := by
  simp only [decodeOpMul, rdOf_withLow, rs1Of_withLow, rs2Of_withLow, funct3Of_withLow]
  split <;> rfl

theorem decodeOp_withLow : decodeOp p (withLow w lo) = setLow lo (decodeOp p w) := by
  simp only [decodeOp, funct7Of_withLow]
  split
  · exact decodeOpBase_withLow w lo
  · exact decodeOpAlt_withLow w lo
  · rw [decodeOpMul_withLow, setLow_gate]
  · rfl

theorem decodeFused_withLow {mk : Reg → Reg → Reg → Reg → BitVec 3 → Instr}
    (hmk : ∀ rd rs1 rs2 rs3 rm, setLow lo (.instr (mk rd rs1 rs2 rs3 rm)) = .instr (mk rd rs1 rs2 rs3 rm)) :
    decodeFused mk (withLow w lo) = setLow lo (decodeFused mk w) := by
  simp only [decodeFused, rdOf_withLow, rs1Of_withLow, rs2Of_withLow, rs3Of_withLow, fmtOf_withLow, funct3Of_withLow]
  split
  · exact (hmk ..).symm
  · rfl

theorem decodeOpFp_withLow : decodeOpFp (withLow w lo) = setLow lo (decodeOpFp w) := by
  simp only [decodeOpFp, rdOf_withLow, rs1Of_withLow, rs2Of_withLow, funct3Of_withLow, funct7Of_withLow]
  split
  case h_5 | h_6 | h_7 | h_8 | h_10 | h_11 => split <;> rfl
  case h_9 | h_12 =>
    split
    · split <;> rfl
    · rfl
  all_goals rfl

theorem decodeBranch_withLow : decodeBranch (withLow w lo) = setLow lo (decodeBranch w) := by
  simp only [decodeBranch, rs1Of_withLow, rs2Of_withLow, bImmOf_withLow, funct3Of_withLow]
  split <;> rfl

theorem decodeJalr_withLow : decodeJalr (withLow w lo) = setLow lo (decodeJalr w) := by
  simp only [decodeJalr, rdOf_withLow, rs1Of_withLow, iImmOf_withLow, funct3Of_withLow]
  split <;> rfl

theorem decodeSystem_withLow : decodeSystem p (withLow w lo) = setLow lo (decodeSystem p w) := by
  simp only [decodeSystem, rdOf_withLow, rs1Of_withLow, iImmOf_withLow, funct3Of_withLow, lowOf_withLow]
  split
  case h_1 =>
    split
    · rfl
    · split <;> rfl
  case h_8 => rfl
  all_goals rw [setLow_gate]; rfl

theorem decodeWord_withLow : decodeWord p (withLow w lo) = setLow lo (decodeWord p w) := by
  simp only [decodeWord, slotOf_withLow, rdOf_withLow, uImmOf_withLow, jImmOf_withLow, decodeLoad_withLow,
    decodeLoadFp_withLow, decodeMiscMem_withLow, decodeOpImm_withLow, decodeStore_withLow, decodeStoreFp_withLow,
    decodeAmo_withLow, decodeOp_withLow, decodeOpFp_withLow, decodeBranch_withLow,
    decodeJalr_withLow, decodeSystem_withLow, ← setLow_gate]
  split
  case h_11 | h_12 | h_13 | h_14 => rw [decodeFused_withLow w lo fun _ _ _ _ _ => rfl, setLow_gate]
  all_goals rfl

end WithLowDecode

/-- Settles O4: each sub-decode keeps its answer, but for the call's two low bits (`decodeWord_withLow`). -/
theorem lowBitsSelectNothing : Obligations.LowBitsSelectNothing := decodeWord_withLow

/-- A word that differs only in `inst[1:0]`, as `withLow`. -/
theorem eq_withLow_of_or_three {v w : Word} (h : v ||| 3#32 = w ||| 3#32) : w = withLow v (lowOf w) := by
  have hhigh : w.extractLsb' 2 30 = v.extractLsb' 2 30 := by
    have hor := congrArg (BitVec.extractLsb' 2 30) h
    rw [BitVec.extractLsb'_or, BitVec.extractLsb'_or] at hor
    simpa using hor.symm
  rw [withLow, ← hhigh, lowOf, BitVec.extractLsb'_append_extractLsb'_eq_extractLsb' (show 2 = 0 + 2 from rfl)]
  exact BitVec.extractLsb'_eq_self.symm

/-- Only a call shows the low bits. -/
theorem setLow_instr {i : Instr} (he : ∀ rd rs1 l, i ≠ .ecall rd rs1 l) (hb : ∀ rd rs1 l, i ≠ .ebreak rd rs1 l)
    (lo : BitVec 2) : setLow lo (.instr i) = .instr i := by
  unfold setLow
  split
  · next h => exact absurd (Decoded.instr.inj h) (he _ _ _)
  · next h => exact absurd (Decoded.instr.inj h) (hb _ _ _)
  · rfl

/-- The decoder answers `i` exactly when `i` holds every field of the word and exists under the parameters. -/
theorem decodeWord_eq_instr_iff {p : Params} {w : Word} {i : Instr} :
    decodeWord p w = .instr i ↔ Spells w i ∧ i.present p = true := by
  refine ⟨decodeWord_spells, fun ⟨hw, hp⟩ => ?_⟩
  have henc := decodeWord_encode hw.wf hp
  by_cases hcall : encode i = w
  · rw [← hcall]; exact henc
  · rw [eq_withLow_of_or_three hw.word, decodeWord_withLow, henc]
    exact setLow_instr (fun rd rs1 l hi => hcall (hw.ecall rd rs1 l hi)) (fun rd rs1 l hi => hcall (hw.ebreak rd rs1 l hi)) _

end Sys2Proof.Machine

namespace Sys2Proof.Machine

/-! ### The opcode table (R114, R118) -/

/-- The encoder puts every instruction in its own row. -/
theorem rowMatches_encode : ∀ i : Instr, i.rowMatches (encode i)
  | .lui .. => Laws.TableRow.lui ..
  | .auipc .. => Laws.TableRow.auipc ..
  | .jal .. => Laws.TableRow.jal ..
  | .jalr .. => Laws.TableRow.jalr ..
  | .beq .. => Laws.TableRow.beq ..
  | .bne .. => Laws.TableRow.bne ..
  | .blt .. => Laws.TableRow.blt ..
  | .bge .. => Laws.TableRow.bge ..
  | .bltu .. => Laws.TableRow.bltu ..
  | .bgeu .. => Laws.TableRow.bgeu ..
  | .lb .. => Laws.TableRow.lb ..
  | .lh .. => Laws.TableRow.lh ..
  | .lw .. => Laws.TableRow.lw ..
  | .lbu .. => Laws.TableRow.lbu ..
  | .lhu .. => Laws.TableRow.lhu ..
  | .sb .. => Laws.TableRow.sb ..
  | .sh .. => Laws.TableRow.sh ..
  | .sw .. => Laws.TableRow.sw ..
  | .addi .. => Laws.TableRow.addi ..
  | .slti .. => Laws.TableRow.slti ..
  | .sltiu .. => Laws.TableRow.sltiu ..
  | .xori .. => Laws.TableRow.xori ..
  | .ori .. => Laws.TableRow.ori ..
  | .andi .. => Laws.TableRow.andi ..
  | .slli .. => Laws.TableRow.slli ..
  | .srli .. => Laws.TableRow.srli ..
  | .srai .. => Laws.TableRow.srai ..
  | .add .. => Laws.TableRow.add ..
  | .sub .. => Laws.TableRow.sub ..
  | .sll .. => Laws.TableRow.sll ..
  | .slt .. => Laws.TableRow.slt ..
  | .sltu .. => Laws.TableRow.sltu ..
  | .xor .. => Laws.TableRow.xor ..
  | .srl .. => Laws.TableRow.srl ..
  | .sra .. => Laws.TableRow.sra ..
  | .or .. => Laws.TableRow.or ..
  | .and .. => Laws.TableRow.and ..
  | .fence .. => Laws.TableRow.fence ..
  | .fenceI .. => Laws.TableRow.fenceI ..
  | .ecall .. => Laws.TableRow.ecall ..
  | .ebreak .. => Laws.TableRow.ebreak ..
  | .csrrw .. => Laws.TableRow.csrrw ..
  | .csrrs .. => Laws.TableRow.csrrs ..
  | .csrrc .. => Laws.TableRow.csrrc ..
  | .csrrwi .. => Laws.TableRow.csrrwi ..
  | .csrrsi .. => Laws.TableRow.csrrsi ..
  | .csrrci .. => Laws.TableRow.csrrci ..
  | .mul .. => Laws.TableRow.mul ..
  | .mulh .. => Laws.TableRow.mulh ..
  | .mulhsu .. => Laws.TableRow.mulhsu ..
  | .mulhu .. => Laws.TableRow.mulhu ..
  | .div .. => Laws.TableRow.div ..
  | .divu .. => Laws.TableRow.divu ..
  | .rem .. => Laws.TableRow.rem ..
  | .remu .. => Laws.TableRow.remu ..
  | .lrW .. => Laws.TableRow.lrW ..
  | .scW .. => Laws.TableRow.scW ..
  | .amoswapW .. => Laws.TableRow.amoswapW ..
  | .amoaddW .. => Laws.TableRow.amoaddW ..
  | .amoxorW .. => Laws.TableRow.amoxorW ..
  | .amoandW .. => Laws.TableRow.amoandW ..
  | .amoorW .. => Laws.TableRow.amoorW ..
  | .amominW .. => Laws.TableRow.amominW ..
  | .amomaxW .. => Laws.TableRow.amomaxW ..
  | .amominuW .. => Laws.TableRow.amominuW ..
  | .amomaxuW .. => Laws.TableRow.amomaxuW ..
  | .flw .. => Laws.TableRow.flw ..
  | .fsw .. => Laws.TableRow.fsw ..
  | .fmaddS .. => Laws.TableRow.fmaddS ..
  | .fmsubS .. => Laws.TableRow.fmsubS ..
  | .fnmsubS .. => Laws.TableRow.fnmsubS ..
  | .fnmaddS .. => Laws.TableRow.fnmaddS ..
  | .faddS .. => Laws.TableRow.faddS ..
  | .fsubS .. => Laws.TableRow.fsubS ..
  | .fmulS .. => Laws.TableRow.fmulS ..
  | .fdivS .. => Laws.TableRow.fdivS ..
  | .fsqrtS .. => Laws.TableRow.fsqrtS ..
  | .fsgnjS .. => Laws.TableRow.fsgnjS ..
  | .fsgnjnS .. => Laws.TableRow.fsgnjnS ..
  | .fsgnjxS .. => Laws.TableRow.fsgnjxS ..
  | .fminS .. => Laws.TableRow.fminS ..
  | .fmaxS .. => Laws.TableRow.fmaxS ..
  | .fcvtWS .. => Laws.TableRow.fcvtWS ..
  | .fcvtWuS .. => Laws.TableRow.fcvtWuS ..
  | .fmvXW .. => Laws.TableRow.fmvXW ..
  | .feqS .. => Laws.TableRow.feqS ..
  | .fltS .. => Laws.TableRow.fltS ..
  | .fleS .. => Laws.TableRow.fleS ..
  | .fclassS .. => Laws.TableRow.fclassS ..
  | .fcvtSW .. => Laws.TableRow.fcvtSW ..
  | .fcvtSWu .. => Laws.TableRow.fcvtSWu ..
  | .fmvWX .. => Laws.TableRow.fmvWX ..

section Masks

variable {v w : Word}

/-- Two words alike under a mask agree in a field that the mask covers. -/
theorem extractLsb'_of_masked {m : Word} (h : (w ||| 3#32) &&& m = (v ||| 3#32) &&& m) {lo n : Nat}
    (hlow : (3#32).extractLsb' lo n = 0#n) (hmask : m.extractLsb' lo n = BitVec.allOnes n) :
    w.extractLsb' lo n = v.extractLsb' lo n := by
  have hfield := congrArg (BitVec.extractLsb' lo n) h
  rwa [BitVec.extractLsb'_and, BitVec.extractLsb'_and, BitVec.extractLsb'_or, BitVec.extractLsb'_or, hlow, hmask,
    BitVec.or_zero, BitVec.or_zero, BitVec.and_allOnes, BitVec.and_allOnes] at hfield

/-! The selectors that each mask of the table covers. -/

theorem selectors_of_maskSlot (h : (w ||| 3#32) &&& 0x0000007F#32 = (v ||| 3#32) &&& 0x0000007F#32) :
    slotOf w = slotOf v :=
  extractLsb'_of_masked h (by decide) (by decide)

theorem selectors_of_mask3 (h : (w ||| 3#32) &&& 0x0000707F#32 = (v ||| 3#32) &&& 0x0000707F#32) :
    slotOf w = slotOf v ∧ funct3Of w = funct3Of v :=
  ⟨extractLsb'_of_masked h (by decide) (by decide), extractLsb'_of_masked h (by decide) (by decide)⟩

theorem selectors_of_maskShift (h : (w ||| 3#32) &&& 0x4000707F#32 = (v ||| 3#32) &&& 0x4000707F#32) :
    slotOf w = slotOf v ∧ funct3Of w = funct3Of v ∧ bit30Of w = bit30Of v :=
  ⟨extractLsb'_of_masked h (by decide) (by decide), extractLsb'_of_masked h (by decide) (by decide),
    extractLsb'_of_masked h (by decide) (by decide)⟩

theorem selectors_of_mask7 (h : (w ||| 3#32) &&& 0xFE00007F#32 = (v ||| 3#32) &&& 0xFE00007F#32) :
    slotOf w = slotOf v ∧ funct7Of w = funct7Of v :=
  ⟨extractLsb'_of_masked h (by decide) (by decide), extractLsb'_of_masked h (by decide) (by decide)⟩

theorem selectors_of_mask73 (h : (w ||| 3#32) &&& 0xFE00707F#32 = (v ||| 3#32) &&& 0xFE00707F#32) :
    slotOf w = slotOf v ∧ funct7Of w = funct7Of v ∧ funct3Of w = funct3Of v :=
  ⟨extractLsb'_of_masked h (by decide) (by decide), extractLsb'_of_masked h (by decide) (by decide),
    extractLsb'_of_masked h (by decide) (by decide)⟩

theorem selectors_of_mask72 (h : (w ||| 3#32) &&& 0xFFF0007F#32 = (v ||| 3#32) &&& 0xFFF0007F#32) :
    slotOf w = slotOf v ∧ funct7Of w = funct7Of v ∧ rs2Of w = rs2Of v :=
  ⟨extractLsb'_of_masked h (by decide) (by decide), extractLsb'_of_masked h (by decide) (by decide),
    extractLsb'_of_masked h (by decide) (by decide)⟩

theorem selectors_of_mask723 (h : (w ||| 3#32) &&& 0xFFF0707F#32 = (v ||| 3#32) &&& 0xFFF0707F#32) :
    slotOf w = slotOf v ∧ funct7Of w = funct7Of v ∧ rs2Of w = rs2Of v ∧ funct3Of w = funct3Of v :=
  ⟨extractLsb'_of_masked h (by decide) (by decide), extractLsb'_of_masked h (by decide) (by decide),
    extractLsb'_of_masked h (by decide) (by decide), extractLsb'_of_masked h (by decide) (by decide)⟩

theorem selectors_of_maskCall (h : (w ||| 3#32) &&& 0xFFF0707F#32 = (v ||| 3#32) &&& 0xFFF0707F#32) :
    slotOf w = slotOf v ∧ iImmOf w = iImmOf v ∧ funct3Of w = funct3Of v :=
  ⟨extractLsb'_of_masked h (by decide) (by decide), extractLsb'_of_masked h (by decide) (by decide),
    extractLsb'_of_masked h (by decide) (by decide)⟩

theorem selectors_of_maskFused (h : (w ||| 3#32) &&& 0x0600007F#32 = (v ||| 3#32) &&& 0x0600007F#32) :
    slotOf w = slotOf v ∧ fmtOf w = fmtOf v :=
  ⟨extractLsb'_of_masked h (by decide) (by decide), extractLsb'_of_masked h (by decide) (by decide)⟩

theorem selectors_of_maskAmo (h : (w ||| 3#32) &&& 0xF800707F#32 = (v ||| 3#32) &&& 0xF800707F#32) :
    slotOf w = slotOf v ∧ funct3Of w = funct3Of v ∧ rs3Of w = rs3Of v :=
  ⟨extractLsb'_of_masked h (by decide) (by decide), extractLsb'_of_masked h (by decide) (by decide),
    extractLsb'_of_masked h (by decide) (by decide)⟩

theorem selectors_of_maskLr (h : (w ||| 3#32) &&& 0xF9F0707F#32 = (v ||| 3#32) &&& 0xF9F0707F#32) :
    slotOf w = slotOf v ∧ funct3Of w = funct3Of v ∧ rs3Of w = rs3Of v ∧ rs2Of w = rs2Of v :=
  ⟨extractLsb'_of_masked h (by decide) (by decide), extractLsb'_of_masked h (by decide) (by decide),
    extractLsb'_of_masked h (by decide) (by decide), extractLsb'_of_masked h (by decide) (by decide)⟩

end Masks

/-- A word in the row of an instruction that exists decodes to an instruction of that row: the two words agree in every
selector, so the dispatch goes the same way. -/
theorem exists_decodeWord_of_row {p : Params} {w : Word} {j : Instr} (h : j.rowMatches w) (hp : j.present p = true) :
    ∃ i, decodeWord p w = .instr i ∧ i.tableRow = j.tableRow := by
  have alike := h.trans (rowMatches_encode j).symm
  cases j
  case lui | auipc | jal =>
    have hslot := selectors_of_maskSlot alike
    simp [decodeWord, hslot, encode]; rfl
  case jalr =>
    obtain ⟨hslot, hf3⟩ := selectors_of_mask3 alike
    simp [decodeWord, hslot, hf3, decodeJalr, encode]; rfl
  case beq | bne | blt | bge | bltu | bgeu =>
    obtain ⟨hslot, hf3⟩ := selectors_of_mask3 alike
    simp [decodeWord, hslot, hf3, decodeBranch, encode]; rfl
  case lb | lh | lw | lbu | lhu =>
    obtain ⟨hslot, hf3⟩ := selectors_of_mask3 alike
    simp [decodeWord, hslot, hf3, decodeLoad, encode]; rfl
  case sb | sh | sw =>
    obtain ⟨hslot, hf3⟩ := selectors_of_mask3 alike
    simp [decodeWord, hslot, hf3, decodeStore, encode]; rfl
  case addi | slti | sltiu | xori | ori | andi | slli =>
    obtain ⟨hslot, hf3⟩ := selectors_of_mask3 alike
    simp [decodeWord, hslot, hf3, decodeOpImm, encode]; rfl
  case srli rd rs1 shamt b31 b29 =>
    obtain ⟨hslot, hf3, h30⟩ := selectors_of_maskShift alike
    simp [decodeWord, hslot, hf3, h30, decodeOpImm, encode, (bit30Of_encR_shift ..).1]; rfl
  case srai rd rs1 shamt b31 b29 =>
    obtain ⟨hslot, hf3, h30⟩ := selectors_of_maskShift alike
    simp [decodeWord, hslot, hf3, h30, decodeOpImm, encode, (bit30Of_encR_shift ..).1]; rfl
  case add | sll | slt | sltu | xor | srl | or | and =>
    obtain ⟨hslot, hf7, hf3⟩ := selectors_of_mask73 alike
    simp [decodeWord, hslot, hf7, hf3, decodeOp, decodeOpBase, encode]; rfl
  case sub | sra =>
    obtain ⟨hslot, hf7, hf3⟩ := selectors_of_mask73 alike
    simp [decodeWord, hslot, hf7, hf3, decodeOp, decodeOpAlt, encode]; rfl
  case mul | mulh | mulhsu | mulhu | div | divu | rem | remu =>
    obtain ⟨hslot, hf7, hf3⟩ := selectors_of_mask73 alike
    simp [decodeWord, hslot, hf7, hf3, decodeOp, decodeOpMul, gate_of_present hp rfl, encode]; rfl
  case fence =>
    obtain ⟨hslot, hf3⟩ := selectors_of_mask3 alike
    simp [decodeWord, hslot, hf3, decodeMiscMem, encode]; rfl
  case fenceI =>
    obtain ⟨hslot, hf3⟩ := selectors_of_mask3 alike
    simp [decodeWord, hslot, hf3, decodeMiscMem, gate_of_present hp rfl, encode]; rfl
  case ecall | ebreak =>
    obtain ⟨hslot, himm, hf3⟩ := selectors_of_maskCall alike
    simp [decodeWord, hslot, himm, hf3, decodeSystem, encode]; rfl
  case csrrw | csrrs | csrrc | csrrwi | csrrsi | csrrci =>
    obtain ⟨hslot, hf3⟩ := selectors_of_mask3 alike
    simp [decodeWord, hslot, hf3, decodeSystem, gate_of_present hp rfl, encode]; rfl
  case lrW =>
    obtain ⟨hslot, hf3, hf5, hrs2⟩ := selectors_of_maskLr alike
    simp [decodeWord, hslot, hf3, hf5, hrs2, decodeAmo, gate_of_present hp rfl, encode]; rfl
  case scW | amoswapW | amoaddW | amoxorW | amoandW | amoorW | amominW | amomaxW | amominuW | amomaxuW =>
    obtain ⟨hslot, hf3, hf5⟩ := selectors_of_maskAmo alike
    simp [decodeWord, hslot, hf3, hf5, decodeAmo, gate_of_present hp rfl, encode]; rfl
  case flw =>
    obtain ⟨hslot, hf3⟩ := selectors_of_mask3 alike
    simp [decodeWord, hslot, hf3, decodeLoadFp, gate_of_present hp rfl, encode]; rfl
  case fsw =>
    obtain ⟨hslot, hf3⟩ := selectors_of_mask3 alike
    simp [decodeWord, hslot, hf3, decodeStoreFp, gate_of_present hp rfl, encode]; rfl
  case fmaddS | fmsubS | fnmsubS | fnmaddS =>
    obtain ⟨hslot, hfmt⟩ := selectors_of_maskFused alike
    simp [decodeWord, hslot, hfmt, decodeFused, gate_of_present hp rfl, encode]; rfl
  case faddS | fsubS | fmulS | fdivS =>
    obtain ⟨hslot, hf7⟩ := selectors_of_mask7 alike
    simp [decodeWord, hslot, hf7, decodeOpFp, gate_of_present hp rfl, encode]; rfl
  case fsqrtS | fcvtWS | fcvtWuS | fcvtSW | fcvtSWu =>
    obtain ⟨hslot, hf7, hrs2⟩ := selectors_of_mask72 alike
    simp [decodeWord, hslot, hf7, hrs2, decodeOpFp, gate_of_present hp rfl, encode]; rfl
  case fsgnjS | fsgnjnS | fsgnjxS | fminS | fmaxS | feqS | fltS | fleS =>
    obtain ⟨hslot, hf7, hf3⟩ := selectors_of_mask73 alike
    simp [decodeWord, hslot, hf7, hf3, decodeOpFp, gate_of_present hp rfl, encode]; rfl
  case fmvXW | fclassS | fmvWX =>
    obtain ⟨hslot, hf7, hrs2, hf3⟩ := selectors_of_mask723 alike
    simp [decodeWord, hslot, hf7, hrs2, hf3, decodeOpFp, gate_of_present hp rfl, encode]; rfl

/-- The row of what a word decodes to holds the word: the word agrees with the encoding but for `inst[1:0]`. -/
theorem rowMatches_of_decodeWord {p : Params} {w : Word} {i : Instr} (h : decodeWord p w = .instr i) : i.rowMatches w := by
  rw [Instr.rowMatches, ← (decodeWord_spells h).1.word]
  exact rowMatches_encode i

/-- Every extension is there. -/
def withAllExtensions (p : Params) : Params :=
  { p with extM := true, extA := true, extF := true, extZicsr := true, extZifencei := true }

theorem present_withAllExtensions (p : Params) (i : Instr) : i.present (withAllExtensions p) = true := by
  unfold Instr.present
  split
  · rfl
  · next e _ => cases e <;> rfl

/-- Settles O5: `rowMatches_of_decodeWord`, `exists_decodeWord_of_row`, and a word in two rows would decode to two
instructions under the parameters with every extension. -/
theorem decoderIsTheOpcodeTable : Obligations.DecoderIsTheOpcodeTable := by
  refine ⟨fun p w i h => ⟨rowMatches_of_decodeWord h, (decodeWord_spells h).2⟩,
    fun p w j => exists_decodeWord_of_row, fun w i j hi hj => ?_⟩
  obtain ⟨i', hi', hrow⟩ := exists_decodeWord_of_row hi (present_withAllExtensions Params.default i)
  obtain ⟨j', hj', hrow'⟩ := exists_decodeWord_of_row hj (present_withAllExtensions Params.default j)
  obtain rfl : i' = j' := Decoded.instr.inj (hi'.symm.trans hj')
  exact hrow.symm.trans hrow'

/-! ### Gating (R116, R117, D1) and the unpopulated slots -/

/-- What a word decodes to with every extension it also decodes to with its own, and without that one it is illegal. -/
theorem decodeWord_of_withAllExtensions {p : Params} {w : Word} {i : Instr} (h : decodeWord (withAllExtensions p) w = .instr i) :
    (i.present p = true → decodeWord p w = .instr i) ∧ (i.present p = false → ∃ r, decodeWord p w = .illegal r) := by
  refine ⟨fun hp => decodeWord_eq_instr_iff.mpr ⟨(decodeWord_spells h).1, hp⟩, fun hp => ?_⟩
  cases hd : decodeWord p w with
  | illegal r => exact ⟨r, rfl⟩
  | instr j =>
    obtain ⟨hj, hpj⟩ := decodeWord_spells hd
    have hj' : decodeWord (withAllExtensions p) w = .instr j := decodeWord_eq_instr_iff.mpr ⟨hj, present_withAllExtensions p j⟩
    rw [Decoded.instr.inj (hj'.symm.trans h), hp] at hpj
    exact nomatch hpj

/-- A step at an illegal word latches `illegal_inst` and leaves `PC` (R353). -/
theorem step_illegal_latches {s : State} {r : Illegal} (he : s.exc = .none)
    (hd : decodeWord s.params (s.bus.answer s.pc .word) = .illegal r) :
    ∃ t, step s = .next t ∧ t.exc = .illegalInst ∧ t.pc = s.pc :=
  ⟨_, step_illegal he hd, by simp, by simp⟩

/-- Settles O6: `decodeWord_of_withAllExtensions`, then `step_illegal_latches`. -/
theorem extensionGating : Obligations.ExtensionGating := by
  intro s i he h
  obtain ⟨hpresent, habsent⟩ := decodeWord_of_withAllExtensions (p := s.params) h
  refine ⟨hpresent, fun hp => ?_⟩
  obtain ⟨r, hr⟩ := habsent hp
  exact step_illegal_latches he hr

/-- Settles O7: none of the thirteen slots has a sub-decode. -/
theorem unpopulatedSlotsLatchIllegal : Obligations.UnpopulatedSlotsLatchIllegal := by
  intro s he hslot
  have hd : decodeWord s.params (s.bus.answer s.pc .word) = .illegal .unpopulatedSlot := by
    simp only [List.mem_cons, List.not_mem_nil, or_false] at hslot
    rcases hslot with h | h | h | h | h | h | h | h | h | h | h | h | h <;> simp [decodeWord, h]
  obtain ⟨t, hstep, hexc, -⟩ := step_illegal_latches he hd
  exact ⟨t, hstep, hexc⟩

/-- Settles O8: the thirteen words are evaluated. -/
theorem sampleWordsDecode : Obligations.SampleWordsDecode := by
  unfold Obligations.SampleWordsDecode
  decide

end Sys2Proof.Machine

namespace Sys2Proof.Machine

/-! ## The environment's calls (43_system_csr.md R210 to R212) -/

/-- What no write of a handler reaches (R42, R212): the CSRs, `X[0]`, the record of the transactions, the pending handlers. -/
theorem State.applyWrite_keeps (s : State) (w : EnvWrite) :
    (s.applyWrite w).csrMstatus = s.csrMstatus ∧ (s.applyWrite w).csrFcsr = s.csrFcsr ∧ (s.applyWrite w).x[0] = s.x[0] ∧
      (s.applyWrite w).bus.log = s.bus.log ∧ (s.applyWrite w).bus.calls = s.bus.calls := by
  cases w with
  | x r v => simp [State.applyWrite]
  | f r v => simp only [State.applyWrite]; split <;> simp
  | pc v => exact ⟨rfl, rfl, rfl, rfl, rfl⟩
  | latch k => exact ⟨rfl, rfl, rfl, rfl, rfl⟩
  | mem a b => exact ⟨rfl, rfl, rfl, rfl, rfl⟩

theorem State.applyWrites_keeps (s : State) (h : Handler) :
    (s.applyWrites h).csrMstatus = s.csrMstatus ∧ (s.applyWrites h).csrFcsr = s.csrFcsr ∧ (s.applyWrites h).x[0] = s.x[0] ∧
      (s.applyWrites h).bus.log = s.bus.log ∧ (s.applyWrites h).bus.calls = s.bus.calls := by
  induction h generalizing s with
  | nil => exact ⟨rfl, rfl, rfl, rfl, rfl⟩
  | cons w ws ih =>
    obtain ⟨hm, hf, hx, hl, hc⟩ := State.applyWrite_keeps s w
    simpa only [State.applyWrites, hm, hf, hx, hl, hc] using ih (s.applyWrite w)

section CallHandler

variable (s : State) (tr : Transaction) (ref : Handler)

/-! What a call of the environment does beside its handler's writes: it is logged and uses up one handler. -/

@[simp] theorem State.callHandler_csrMstatus : (s.callHandler tr ref).csrMstatus = s.csrMstatus :=
  have ⟨h, _, _, _, _⟩ := State.applyWrites_keeps _ _; h
@[simp] theorem State.callHandler_csrFcsr : (s.callHandler tr ref).csrFcsr = s.csrFcsr :=
  have ⟨_, h, _, _, _⟩ := State.applyWrites_keeps _ _; h
@[simp] theorem State.callHandler_x_zero : (s.callHandler tr ref).x[0] = s.x[0] :=
  have ⟨_, _, h, _, _⟩ := State.applyWrites_keeps _ _; h
@[simp] theorem State.callHandler_log : (s.callHandler tr ref).bus.log = tr :: s.bus.log :=
  have ⟨_, _, _, h, _⟩ := State.applyWrites_keeps _ _; h
@[simp] theorem State.callHandler_calls : (s.callHandler tr ref).bus.calls = s.bus.calls.tail :=
  have ⟨_, _, _, _, h⟩ := State.applyWrites_keeps _ _; h

end CallHandler

/-- Everything an ECALL or EBREAK does, with the handler that is next. -/
theorem called_callHandler (s : State) (hm : s.bus.mem.wf = true) (tr : Transaction) (ref : Handler) :
    Called s (s.callHandler tr ref).advance tr (s.bus.calls.headD ref) := by
  obtain ⟨hx, hf, hpc, hexc, hcsrs, hconst, hlog, hreplies, hcalls, hbytes⟩ := applyWrites_spec
    { s with bus := { s.bus with calls := s.bus.calls.tail, log := tr :: s.bus.log } } (s.bus.calls.headD ref) hm
  exact {
    x := fun r hr => (State.readX_advance _ r).trans (hx r hr)
    x0 := State.readX_zero _
    f := fun hF r => hf hF r
    pc := congrArg (· + 4#32) hpc
    exc := hexc
    csrs := hcsrs
    const := hconst
    log := hlog
    replies := hreplies
    calls := hcalls
    bytes := hbytes }

/-- Settles O39: the next handler is the scripted one (`called_callHandler`). -/
theorem callsWithAnyHandler : Obligations.CallsWithAnyHandler := by
  intro s h rest rd rs1 lo hcalls hm
  have hnext (ref : Handler) : s.bus.calls.headD ref = h := by rw [hcalls]; rfl
  exact ⟨⟨_, rfl, hnext [.latch .envCall] ▸ called_callHandler s hm _ _, rfl⟩,
    ⟨_, rfl, hnext [.latch .breakpoint] ▸ called_callHandler s hm _ _, rfl⟩⟩

/-- With no handler pending the reference environment stores one kind in the latch (R79). -/
theorem callHandler_reference (s : State) (hc : s.bus.calls = []) (tr : Transaction) (k : ExceptionKind) :
    s.callHandler tr [.latch k] = { s with exc := k, bus := { s.bus with log := tr :: s.bus.log } } := by
  rw [State.callHandler, hc]
  show ({ s with exc := k, bus := { s.bus with calls := [], log := tr :: s.bus.log } } : State) = _
  rw [← hc]

/-- The core's side of a call of the reference environment: nothing but `PC`. -/
theorem end0_callHandler_reference (s : State) (hc : s.bus.calls = []) (tr : Transaction) (k : ExceptionKind) :
    End0 s (s.callHandler tr [.latch k]).advance (s.pc + 4#32) := by
  rw [callHandler_reference s hc]
  exact ⟨fun _ => rfl, fun _ => rfl, ⟨rfl, rfl, rfl⟩, ⟨rfl, rfl, rfl⟩, rfl⟩

/-- Settles O38: the reference handler is one latch write (`callHandler_reference`). -/
theorem callsUnderTheReferenceEnvironment : Obligations.CallsUnderTheReferenceEnvironment := by
  intro s rd rs1 lo hc
  refine ⟨⟨_, rfl, end0_callHandler_reference s hc _ _, ?_⟩, ⟨_, rfl, end0_callHandler_reference s hc _ _, ?_⟩⟩
  all_goals
    simp only [State.onEcall, State.onEbreak, callHandler_reference s hc]
    exact ⟨rfl, rfl, fun _ => rfl, rfl⟩

/-! ## The invariant of a run (10_state.md R37, 70_reset_and_hazards.md R390, R391) -/

/-- No instruction writes `X[0]` (R21). -/
theorem exec_x_zero {i : Instr} {s t : State} (h : exec i s = .next t) : t.x[0] = s.x[0] := by
  cases runs_of_exec h with
  | x | f | nothing | jump | load | flw | store | sc => simp
  | csr => simp [State.csrAccess]
  | branch taken imm =>
    cases taken with
    | false => rfl
    | true => simp [State.branch]
  | amo => simp [State.amo]
  | ecall | ebreak => exact State.callHandler_x_zero s _ _

/-- Every instruction keeps the canonical form of memory. -/
theorem exec_wf {i : Instr} {s t : State} (h : exec i s = .next t) (hm : s.bus.mem.wf = true) : t.bus.mem.wf = true := by
  cases runs_of_exec h with
  | x | f | nothing | jump => simpa using hm
  | csr => simpa [State.csrAccess] using hm
  | branch taken imm =>
    cases taken with
    | false => exact hm
    | true => simpa [State.branch] using hm
  | load | flw => simpa using State.wf_memRead hm _ _
  | store | sc => simpa using State.wf_memWrite hm _ _ _
  | amo => simpa [State.amo] using State.wf_memWrite (State.wf_memRead hm _ _) _ _ _
  | ecall | ebreak => exact State.wf_callHandler hm _ _

/-- Handlers are used up and never added. -/
theorem exec_calls_subset {i : Instr} {s t : State} (h : exec i s = .next t) : t.bus.calls ⊆ s.bus.calls := by
  cases runs_of_exec h with
  | x | f | nothing | jump => simp
  | csr => simp [State.csrAccess]
  | branch taken imm =>
    cases taken with
    | false => exact List.Subset.refl _
    | true => simp [State.branch]
  | load | flw => simp [Bus.afterRead]
  | store | sc => simp [State.memWrite]
  | amo => simp [State.amo, State.memWrite, Bus.afterRead]
  | ecall | ebreak => simpa [State.onEcall, State.onEbreak] using List.tail_subset _

theorem aligned_add_four {a : Word} (h : aligned a) : aligned (a + 4#32) := (aligned_add_iff h _).mpr rfl

/-- A handler that meets its duty leaves `PC` aligned (R371). -/
theorem aligned_applyWrites {s : State} {h : Handler} (hpc : aligned s.pc) (hduty : ∀ w ∈ h, w.keepsAlignment) :
    aligned (s.applyWrites h).pc := by
  induction h generalizing s with
  | nil => exact hpc
  | cons w ws ih =>
    refine ih ?_ fun w' hw' => hduty w' (List.mem_cons_of_mem _ hw')
    have hw := hduty w List.mem_cons_self
    cases w with
    | pc v => exact hw
    | x r v => simpa [State.applyWrite] using hpc
    | f r v => simp only [State.applyWrite]; split <;> exact hpc
    | latch k => exact hpc
    | mem a b => exact hpc

/-- The next handler meets its duty when all pending ones and the reference one do. -/
theorem aligned_callHandler {s : State} {ref : Handler} (tr : Transaction) (hpc : aligned s.pc)
    (hduty : ∀ h ∈ s.bus.calls, ∀ w ∈ h, w.keepsAlignment) (href : ∀ w ∈ ref, w.keepsAlignment) :
    aligned (s.callHandler tr ref).pc := by
  refine aligned_applyWrites hpc ?_
  cases hc : s.bus.calls with
  | nil => exact href
  | cons h rest => exact hduty h (hc ▸ List.mem_cons_self)

/-- A jump leaves `PC` aligned or latches `inst_misaligned` (R170). -/
theorem aligned_or_misaligned_jumpTo (s : State) (t : Word) :
    aligned (s.jumpTo t).pc ∨ (s.jumpTo t).exc = .instMisaligned := by
  obtain ⟨-, -, -, hmis⟩ := jumpTo_spec s t
  rw [State.jumpTo_pc]
  exact or_iff_not_imp_left.mpr hmis

/-- From an aligned `PC` every instruction leaves an aligned one or latches `inst_misaligned` (R24, R25). -/
theorem exec_aligned_or_misaligned {i : Instr} {s t : State} (h : exec i s = .next t) (hpc : aligned s.pc)
    (hduty : ∀ h ∈ s.bus.calls, ∀ w ∈ h, w.keepsAlignment) : aligned t.pc ∨ t.exc = .instMisaligned := by
  have hnext : aligned (s.pc + 4#32) := aligned_add_four hpc
  cases runs_of_exec h with
  | x | f | nothing | load | flw | store | sc => exact .inl (by simpa using hnext)
  | csr => exact .inl (by simpa [State.csrAccess] using hnext)
  | jump => exact aligned_or_misaligned_jumpTo _ _
  | branch taken imm =>
    cases taken with
    | false => exact .inl hnext
    | true => exact aligned_or_misaligned_jumpTo _ _
  | amo => exact .inl (by simpa [State.amo] using hnext)
  | ecall | ebreak =>
    exact .inl (aligned_add_four (aligned_callHandler _ hpc hduty (by simp [EnvWrite.keepsAlignment])))

/-- An instruction begun at an aligned `PC`, whatever the latch, keeps the invariant. -/
theorem RunInv.exec {i : Instr} {s t : State} (h : exec i s = .next t) (hs : RunInv s) (hpc : aligned s.pc) : RunInv t where
  zero := (exec_x_zero h).trans hs.zero
  pc := exec_aligned_or_misaligned h hpc hs.env
  mem := exec_wf h hs.mem
  env := fun c hc => hs.env c (exec_calls_subset h hc)

/-- The fetch keeps the invariant where `PC` is aligned. -/
theorem RunInv.iFetch {s : State} (hs : RunInv s) (hpc : aligned s.pc) : RunInv s.iFetch.2 where
  zero := hs.zero
  pc := .inl hpc
  mem := hs.mem
  env := hs.env

theorem RunInv.illegal {s : State} (hs : RunInv s) (hpc : aligned s.pc) : RunInv s.illegal where
  zero := hs.zero
  pc := .inl hpc
  mem := hs.mem
  env := hs.env

theorem RunInv.retire {s : State} (hs : RunInv s) : RunInv s.retire where
  zero := by simpa using hs.zero
  pc := by simpa using hs.pc
  mem := by simpa using hs.mem
  env := by simpa using hs.env

/-- Settles O13: a latched state stays; otherwise `PC` is aligned, and the fetch, the instruction or the illegal word, and the
count each keep the invariant. -/
theorem stepKeepsInvariant : Obligations.StepKeepsInvariant := by
  intro s t hs hstep
  by_cases he : s.exc = .none
  case neg =>
    rw [step_latched he] at hstep
    cases hstep
    exact hs
  case pos =>
    have hpc : aligned s.pc := hs.pc.resolve_right (by rw [he]; nofun)
    have hfetch := hs.iFetch hpc
    rcases step_cases s he with ⟨i, u, -, hx, -, hnext⟩ | ⟨r, -, hnext⟩
    · rw [hnext] at hstep
      cases hstep
      exact (hfetch.exec hx hpc).retire
    · rw [hnext] at hstep
      cases hstep
      exact (hfetch.illegal hpc).retire

/-! ### Reset -/

theorem resetX_zero (p : Params) : (resetX p)[0] = 0#32 := by
  simp [resetX]

/-- Settles O14: reset clears `X[0]` and the latch and places an aligned `PC`; memory and handlers are as before. -/
theorem resetHasInvariant : Obligations.ResetHasInvariant :=
  ⟨⟨resetX_zero _, .inl rfl, Memory.wf_reset, nofun⟩,
    fun _ _ hs hpc => ⟨resetX_zero _, .inl hpc, hs.mem, hs.env⟩⟩

/-- What the integer registers read after reset (R391). -/
theorem readX_resetTo (s : State) (pc : Word) (r : Reg) :
    (s.resetTo pc).readX r = if r = 2#5 then s.params.defaultSp else 0#32 := by
  by_cases h0 : r = 0#5
  · subst h0; rfl
  · have h2 : (2 = r.toNat) ↔ r = 2#5 := by rw [BitVec.toNat_eq]; exact eq_comm
    simp [State.readX, State.resetTo, resetX, h0, Vector.getElem_set, h2]

theorem readF_resetTo (s : State) (pc : Word) (hF : s.params.extF = true) (r : Reg) : (s.resetTo pc).readF r = 0#32 := by
  simp [State.readF, State.resetTo, hF]

/-- The premise on `DEFAULT_SP`, as a number (R393). -/
theorem toNat_mod_of_spAligned {p : Params} (h : p.spAligned = true) : p.defaultSp.toNat % 16 = 0 := by
  have hlow : p.defaultSp.extractLsb' 0 4 = 0#4 := by simpa [Params.spAligned] using h
  simpa [BitVec.extractLsb'_toNat] using congrArg BitVec.toNat hlow

/-- Settles O15: `resetTo` writes each field, and `create` is a reset to 0 of a state that a second one gives again. -/
theorem resetState : Obligations.ResetState := by
  refine ⟨fun s pc => ⟨rfl, rfl, rfl, rfl, rfl, readX_resetTo s pc, readF_resetTo s pc, fun h => ?_, rfl, rfl, rfl, rfl⟩,
    fun p u io => ⟨rfl, rfl, rfl, ?_⟩⟩
  · rw [readX_resetTo, if_pos rfl]; exact toNat_mod_of_spAligned h
  · simp [State.create, State.resetTo]

end Sys2Proof.Machine

namespace Sys2Proof.Machine

/-! ## Claims over all instructions: the sequential flag, the CSRs, the latch, the transactions -/

/-- A callback keeps the latch or stores a kind that a pending reply names. -/
theorem exc_of_latched {s t : State} (h : t.exc = s.bus.nextReply.latched s.exc) :
    t.exc = s.exc ∨ ∃ r ∈ s.bus.replies, r.latch = some t.exc := by
  rw [h]; exact Bus.latched_cases s.bus s.exc

/-- Settles O16: a shape whose flag can be true advances `PC`, and only its callbacks touch the latch. -/
theorem sequentialFlagMeansPlusFour : Obligations.SequentialFlagMeansPlusFour := by
  intro i s t h hseq
  cases runs_of_exec h with
  | x | f | nothing => exact ⟨by simp, .inl (by simp)⟩
  | csr => exact ⟨by simp [State.csrAccess], .inl (by simp [State.csrAccess])⟩
  | jump _ _ hq => exact nomatch hq.symm.trans hseq
  | branch taken imm hq =>
    cases taken with
    | false => exact ⟨rfl, .inl rfl⟩
    | true => exact nomatch hq.symm.trans hseq
  | load | flw | store | sc => exact ⟨by simp, exc_of_latched (by simp)⟩
  | amo => exact ⟨by simp [State.amo], State.amo_exc_cases s _ _ _ _⟩
  | ecall _ _ _ _ hq | ebreak _ _ _ _ hq => exact nomatch hq.symm.trans hseq

/-- No instruction writes `csr_fcsr` (R30, R41). -/
theorem exec_csrFcsr {i : Instr} {s t : State} (h : exec i s = .next t) : t.csrFcsr = s.csrFcsr := by
  cases runs_of_exec h with
  | x | f | nothing | jump | load | flw | store | sc => simp
  | csr => simp [State.csrAccess]
  | branch taken imm =>
    cases taken with
    | false => rfl
    | true => simp [State.branch]
  | amo => simp [State.amo]
  | ecall | ebreak => exact State.callHandler_csrFcsr s _ _

/-- An instruction writes `csr_mstatus` only as a CSR instruction that names it (R41, C1). -/
theorem exec_csrMstatus {i : Instr} {s t : State} (h : exec i s = .next t) :
    t.csrMstatus = s.csrMstatus ∨ (i.extension = some .zicsr ∧ iImmOf (encode i) = 0x300#12) := by
  cases runs_of_exec h with
  | x | f | nothing | jump | load | flw | store | sc => left; simp
  | csr rd a new _ _ he ha =>
    by_cases hmstatus : a = 0x300#12
    · exact .inr ⟨he, ha.trans hmstatus⟩
    · left; simp [State.csrAccess, hmstatus]
  | branch taken imm =>
    cases taken with
    | false => exact .inl rfl
    | true => left; simp [State.branch]
  | amo => left; simp [State.amo]
  | ecall | ebreak => exact .inl (State.callHandler_csrMstatus s _ _)

/-- Settles O17: `exec_csrCycle`, `exec_csrFcsr` and `exec_csrMstatus`. -/
theorem onlyCsrInstructionsWriteMstatus : Obligations.OnlyCsrInstructionsWriteMstatus := by
  intro i s t h
  exact ⟨exec_csrCycle h, exec_csrFcsr h, fun hne => (exec_csrMstatus h).resolve_left hne⟩

/-- Where the latch after a step from a clear latch comes from. -/
theorem step_exc_cases {i : Instr} {s t : State} (he : s.exc = .none) (hx : exec i s.iFetch.2 = .next t) :
    t.exc = .none ∨ (t.exc = .instMisaligned ∧ ¬ aligned t.pc) ∨ (∃ r ∈ s.bus.replies, r.latch = some t.exc) ∨
      (∃ rd rs1 lo, i = .ecall rd rs1 lo ∧ .latch t.exc ∈ s.bus.calls.headD [.latch .envCall]) ∨
      (∃ rd rs1 lo, i = .ebreak rd rs1 lo ∧ .latch t.exc ∈ s.bus.calls.headD [.latch .breakpoint]) := by
  rcases exec_exc_cases hx with hkept | hmis | ⟨r, hr, hk⟩ | hcall | hcall
  · rcases exc_of_latched (s := s) (t := s.iFetch.2) rfl with hfetch | ⟨r, hr, hk⟩
    · exact .inl (hkept.trans (hfetch.trans he))
    · exact .inr (.inr (.inl ⟨r, hr, hkept ▸ hk⟩))
  · exact .inr (.inl hmis)
  · exact .inr (.inr (.inl ⟨r, List.mem_of_mem_tail hr, hk⟩))
  · exact .inr (.inr (.inr (.inl hcall)))
  · exact .inr (.inr (.inr (.inr hcall)))

/-- Settles O18: `exec_exc_cases` for instructions, `step_exc_cases` for a step that runs one, and an illegal word latches
its own kind. -/
theorem coreLatchesTwoKinds : Obligations.CoreLatchesTwoKinds := by
  refine ⟨fun i s t h => exec_exc_cases h, fun s t d he hd hstep => ?_⟩
  rw [← Bus.answer_eq] at hd
  rcases step_cases s he with ⟨i, u, hi, hx, -, hnext⟩ | ⟨r, hr, hnext⟩
  · rw [hnext] at hstep
    cases hstep
    rw [hi] at hd
    subst hd
    simp only [State.retire_exc, State.retire_pc, Decoded.instr.injEq]
    refine ⟨nofun, ?_⟩
    rcases step_exc_cases he hx with h | h | h | h | h
    · exact .inl h
    · exact .inr (.inl h)
    · exact .inr (.inr (.inr (.inl h)))
    · exact .inr (.inr (.inr (.inr (.inl h))))
    · exact .inr (.inr (.inr (.inr (.inr h))))
  · rw [hnext] at hstep
    cases hstep
    rw [hr] at hd
    exact ⟨fun _ _ => by simp, .inr (.inr (.inl ⟨by simp, r, hd⟩))⟩

/-! ### Transactions (20_memory.md R68) -/

/-- The fetch changes nothing that an instruction's transactions or its flag depend on. -/
theorem portTable_iFetch (i : Instr) (w : Word) (s : State) : portTable i w s.iFetch.2 = portTable i w s := by
  cases i <;> rfl

theorem sequential_iFetch (i : Instr) (s : State) : sequential i s.iFetch.2 = sequential i s := by
  cases i <;> rfl

/-- An instruction of the word `w` logs its row of the table. -/
theorem exec_log {i : Instr} {s t : State} {w : Word} (h : exec i s = .next t) (hw : Spells w i) :
    t.bus.log.map Transaction.shape = (portTable i w s).reverse ++ s.bus.log.map Transaction.shape := by
  cases runs_of_exec h with
  | x _ _ _ hp | f _ _ _ hp | nothing _ hp | jump _ _ _ hp => simp [hp w]
  | csr _ _ _ _ hp => simp [State.csrAccess, hp w]
  | branch taken imm _ hp =>
    cases taken with
    | false => simp [State.branch, hp w]
    | true => simp [State.branch, hp w]
  | load _ _ _ _ _ hp | flw _ _ _ hp => simp [hp w, Bus.afterRead, Transaction.shape]
  | store _ _ _ _ hp | sc _ _ _ _ hp => simp [hp w, State.memWrite, Transaction.shape]
  | amo _ _ _ _ _ hp => simp [State.amo, hp w, State.memWrite, Bus.afterRead, Transaction.shape]
  | ecall rd rs1 lo hi => rw [hw.ecall rd rs1 lo hi, hi]; simp [State.onEcall, portTable, Transaction.shape]
  | ebreak rd rs1 lo hi => rw [hw.ebreak rd rs1 lo hi, hi]; simp [State.onEbreak, portTable, Transaction.shape]

/-- A word that decodes to an instruction is not illegal. -/
theorem not_illegal_of_instr {d : Decoded} {i : Instr} {r : Illegal} (hi : d = .instr i) (hr : d = .illegal r) : False :=
  Decoded.noConfusion (hi.symm.trans hr)

/-- Settles O19: the fetch logs one transaction, the instruction its row (`exec_log`), the illegal word none. -/
theorem portTransactions : Obligations.PortTransactions := by
  intro s he
  rcases step_cases s he with ⟨i, t, hi, hx, -, hnext⟩ | ⟨r, hr, hnext⟩
  · refine ⟨_, hnext, fun j hj => ?_, fun r hr => (not_illegal_of_instr hi hr).elim⟩
    obtain rfl : i = j := Decoded.instr.inj (hi.symm.trans hj)
    rw [State.retire_bus, exec_log hx (decodeWord_spells hi).1, portTable_iFetch]
    rfl
  · refine ⟨_, hnext, fun j hj => (not_illegal_of_instr hj hr).elim, fun _ _ => ?_⟩
    rw [State.retire_bus]
    rfl

/-! ## A step in its parts (70_reset_and_hazards.md R395) -/

/-- The state after the fetch, in the words of the spec. -/
theorem iFetch_eq (s : State) : s.iFetch.2 = { s with exc := latchAfter s, bus := { s.bus with
    replies := s.bus.replies.tail, log := .ifetch s.pc (BitVec.ofNat 32 (answered s s.pc .word)) :: s.bus.log } } := by
  rw [← latched_eq, ← Bus.answer_eq]
  rfl

/-- Settles O9: with no reply pending the fetch reads the four bytes at `PC` and only logs. -/
theorem stepRunsDecodedInstruction : Obligations.StepRunsDecodedInstruction := by
  intro s t i he hreplies hmax hd hx
  have hfetch : s.iFetch.2 = { s with bus := { s.bus with
      log := .ifetch s.pc (BitVec.ofNat 32 (littleEndian s.bus.mem s.pc 4)) :: s.bus.log } } := by
    rw [iFetch_eq]
    simp [latchAfter, answered, hreplies, Width.bytes]
  have hword : decodeWord s.params (s.bus.answer s.pc .word) = .instr i := by
    rw [Bus.answer, Bus.nextReply, hreplies]
    exact hd
  rw [← hfetch] at hx
  have hcycle : t.csrCycle = s.iFetch.2.csrCycle := exec_csrCycle hx
  rw [State.iFetch_csrCycle] at hcycle
  rw [step_instr he hword hx, retire_spec t (hcycle ▸ hmax)]

/-- Settles O10: the fetch, the latch and the count, one after the other. -/
theorem illegalWordOnlyLatches : Obligations.IllegalWordOnlyLatches := by
  intro s r he hmax hd
  have hflag : sequential1 s = false := by
    rw [sequential1]
    show (match decodeWord s.params (s.bus.answer s.pc .word) with
      | .instr i => sequential i s.iFetch.2
      | .illegal _ => false) = false
    rw [hd]
  exact ⟨_, (step_illegal he hd).trans (congrArg Host.Outcome.next (retire_spec _ hmax)), rfl, rfl, fun _ => rfl,
    fun _ => rfl, ⟨rfl, rfl, rfl⟩, rfl, rfl, rfl, rfl, rfl, fun _ => rfl, hflag⟩

/-- Settles O23: `resume` writes the latch and `PC` alone, and the four words have another immediate than 0 and 1. -/
theorem returnIsTheEnvironments : Obligations.ReturnIsTheEnvironments := by
  refine ⟨fun s a he => ⟨step_latched he, rfl, rfl, fun _ => rfl, fun _ => rfl, ⟨rfl, rfl, rfl⟩, ⟨rfl, rfl, rfl⟩, rfl, ?_⟩,
    fun p => ?_⟩
  · rfl
  · simp only [List.forall_mem_cons]
    exact ⟨rfl, rfl, rfl, rfl, nofun⟩

/-- A sequential instruction without transactions keeps the latch and advances `PC`. -/
theorem exec_of_portTable_nil {i : Instr} {s t : State} {w : Word} (h : exec i s = .next t) (hp : portTable i w s = [])
    (hseq : sequential i s = true) : t.exc = s.exc ∧ t.pc = s.pc + 4#32 := by
  cases runs_of_exec h with
  | x | f | nothing => simp
  | csr => simp [State.csrAccess]
  | jump _ _ hq => exact nomatch hq.symm.trans hseq
  | branch taken imm hq =>
    cases taken with
    | false => exact ⟨rfl, rfl⟩
    | true => exact nomatch hq.symm.trans hseq
  | load _ _ _ _ _ hrow | flw _ _ _ hrow | store _ _ _ _ hrow | sc _ _ _ _ hrow | amo _ _ _ _ _ hrow =>
    exact nomatch (hrow w).symm.trans hp
  | ecall _ _ _ _ hq | ebreak _ _ _ _ hq => exact nomatch hq.symm.trans hseq

/-- A JAL to a misaligned target leaves `PC` there and latches it. -/
theorem exec_jal_misaligned {rd : Reg} {imm : BitVec 21} {s t : State} (h : exec (.jal rd imm) s = .next t)
    (hmis : ¬ aligned (s.pc + imm.signExtend 32)) : t.exc = .instMisaligned ∧ t.pc = s.pc + imm.signExtend 32 := by
  cases h
  obtain ⟨hend, -, -, hexc⟩ := jumpTo_spec (s.writeX rd (s.pc + 4#32)) (s.pc + imm.signExtend 32)
  exact ⟨hexc hmis, hend.pc⟩

/-- Settles O24: the step is `exec` in the state after the fetch (`iFetch_eq`) and one count, which touches neither the latch
nor `PC`. -/
theorem fetchFaultStillExecutes : Obligations.FetchFaultStillExecutes := by
  constructor
  · intro s w i he hmax hw hd
    subst hw
    obtain ⟨t, hx, -⟩ := runs i s.iFetch.2
    refine ⟨t, iFetch_eq s ▸ hx, ?_⟩
    have hcycle : t.csrCycle = s.iFetch.2.csrCycle := exec_csrCycle hx
    rw [State.iFetch_csrCycle] at hcycle
    rw [← Bus.answer_eq] at hd
    rw [step_instr he hd hx, retire_spec t (hcycle ▸ hmax), hcycle]
  · intro s w k rest he hreplies
    have hword : s.bus.answer s.pc .word = w := by simp [Bus.answer, Bus.nextReply, hreplies, Width.cut]
    have hexc : s.iFetch.2.exc = k := by simp [Bus.nextReply, hreplies, BusReply.latched]
    rcases step_cases s he with ⟨i, t, hi, hx, -, hnext⟩ | ⟨r, hr, hnext⟩
    · rw [hword] at hi
      refine ⟨_, hnext, fun r hr => (not_illegal_of_instr hi hr).elim, fun rd imm hj hmis => ?_, fun j hj hp hseq => ?_⟩
      all_goals
        rw [State.retire_exc, State.retire_pc]
        obtain rfl := Decoded.instr.inj (hi.symm.trans hj)
      · exact exec_jal_misaligned (s := s.iFetch.2) hx hmis
      · rw [← portTable_iFetch] at hp
        rw [← sequential_iFetch] at hseq
        rw [← hexc]
        exact exec_of_portTable_nil hx hp hseq
    · rw [hword] at hr
      exact ⟨_, hnext, fun _ _ => by simp, fun rd imm hj => (not_illegal_of_instr hj hr).elim, fun j hj => (not_illegal_of_instr hj hr).elim⟩

/-! ## The driver (70_reset_and_hazards.md R395 to R397) -/

/-- One execution unit inside the counter's range counts one (R370). -/
theorem step1_counts {s : State} (he : s.exc = .none) (hc : s.csrCycle.toNat + 1 < 2 ^ 64) :
    ∃ t, step1 s = .next t ∧ t.csrCycle.toNat = s.csrCycle.toNat + 1 := by
  have hmax : s.csrCycle ≠ BitVec.allOnes 64 := by
    intro h; rw [h] at hc; simp at hc
  obtain ⟨t, hstep, hcycle⟩ := (everyStepCountsOne s).1 he hmax
  refine ⟨t, (if_pos he).symm.trans hstep, ?_⟩
  rw [hcycle, BitVec.toNat_add]
  exact Nat.mod_eq_of_lt hc

theorem running_iff {target : Nat} {s : State} : running target s = true ↔ s.csrCycle.toNat < target ∧ s.exc = .none := by
  simp [running]

theorem driver_zero (s : State) : driver 0 s = .next s := rfl

/-- While the latch is set the driver does nothing. -/
theorem driver_latched {s : State} (he : s.exc ≠ .none) (n : Nat) : driver n s = .next s := driverLoop_latched he _ _

/-- With a clear latch the driver is one execution unit, then the driver with one less to do: the target is the same. -/
theorem driver_succ {s t : State} {n : Nat} (he : s.exc = .none) (hstep : step1 s = .next t)
    (hcycle : t.csrCycle.toNat = s.csrCycle.toNat + 1) : driver (n + 1) s = driver n t := by
  have hrun : running (s.csrCycle.toNat + (n + 1)) s = true := running_iff.mpr ⟨by omega, he⟩
  have htarget : t.csrCycle.toNat + n = s.csrCycle.toNat + (n + 1) := by omega
  rw [driver, driverLoop, if_pos hrun, hstep, driver, htarget]

/-- Settles O21, by induction on the first budget. -/
theorem driverSplits : Obligations.DriverSplits := by
  intro a b
  induction a with
  | zero => intro s _; exact ⟨s, driver_zero s, by rw [Nat.zero_add]⟩
  | succ a ih =>
    intro s hc
    by_cases he : s.exc = .none
    · obtain ⟨u, hstep, hcycle⟩ := step1_counts he (by omega)
      obtain ⟨t, ha, hab⟩ := ih u (by omega)
      refine ⟨t, (driver_succ he hstep hcycle).trans ha, ?_⟩
      rw [Nat.add_right_comm, driver_succ he hstep hcycle, hab]
    · exact ⟨s, driver_latched he _, by rw [driver_latched he, driver_latched he]⟩

/-- `k` steps after a first one, of any machine. -/
theorem run_succ (M : Host.Core) {s t : M.State} (h : M.step s = .next t) (k : Nat) : M.run (k + 1) s = M.run k t := by
  rw [Host.Core.run, h]

/-- Settles O22, by induction on the budget. -/
theorem driverStopsAtBudgetOrLatch : Obligations.DriverStopsAtBudgetOrLatch := by
  intro n
  induction n with
  | zero => intro s _; exact ⟨0, s, Nat.le_refl 0, driver_zero s, rfl, rfl, .inl rfl, fun j hj => nomatch hj⟩
  | succ n ih =>
    intro s hc
    by_cases he : s.exc = .none
    · obtain ⟨u, hstep1, hcycle⟩ := step1_counts he (by omega)
      have hstep : step s = .next u := (if_pos he).trans hstep1
      obtain ⟨k, t, hk, hdriver, hrun, hcount, hend, hclear⟩ := ih u (by omega)
      refine ⟨k + 1, t, by omega, (driver_succ he hstep1 hcycle).trans hdriver, (run_succ Sys2Proof.core hstep k).trans hrun, by omega,
        hend.imp_left fun h => by omega, fun j hj => ?_⟩
      cases j with
      | zero => exact ⟨s, rfl, he⟩
      | succ j =>
        obtain ⟨v, hv, hnone⟩ := hclear j (by omega)
        exact ⟨v, (run_succ Sys2Proof.core hstep j).trans hv, hnone⟩
    · exact ⟨0, s, Nat.zero_le _, driver_latched he _, rfl, rfl, .inr he, fun j hj => nomatch hj⟩

/-- The source's loops leave a state that does not run as it is, from either head. -/
theorem sourceLoop_not_running {target : Nat} {s : State} (h : ¬ running target s = true) (fuel : Nat) (inner : Bool) :
    sourceLoop fuel inner target s = .next s := by
  cases fuel with
  | zero => rfl
  | succ fuel =>
    cases inner with
    | false => rw [sourceLoop, if_neg h]
    | true =>
      rw [sourceLoop, if_neg h]
      cases fuel with
      | zero => rfl
      | succ fuel => rw [sourceLoop, if_neg h]

/-- From either head of the source's loops, with `k` to go and two loop heads an instruction, the outcome is the driver's. -/
theorem sourceLoop_eq_driver (k : Nat) : ∀ (fuel : Nat) (inner : Bool) (s : State), 2 * k + 1 ≤ fuel →
    s.csrCycle.toNat + k < 2 ^ 64 → sourceLoop fuel inner (s.csrCycle.toNat + k) s = driver k s := by
  induction k with
  | zero =>
    intro fuel inner s _ _
    exact sourceLoop_not_running (fun h => Nat.lt_irrefl _ (running_iff.mp h).1) fuel inner
  | succ k ih =>
    intro fuel inner s hfuel hc
    by_cases he : s.exc = .none
    · obtain ⟨t, hstep, hcycle⟩ := step1_counts he (by omega)
      have hrun : running (s.csrCycle.toNat + (k + 1)) s = true := running_iff.mpr ⟨by omega, he⟩
      have htarget : s.csrCycle.toNat + (k + 1) = t.csrCycle.toNat + k := by omega
      have inside (f : Nat) (hf : 2 * k + 1 ≤ f) :
          sourceLoop (f + 1) true (s.csrCycle.toNat + (k + 1)) s = driver (k + 1) s := by
        rw [sourceLoop, if_pos hrun, hstep, driver_succ he hstep hcycle, htarget]
        exact ih f _ t hf (by omega)
      obtain ⟨f, rfl⟩ : ∃ f, fuel = f + 2 := ⟨fuel - 2, by omega⟩
      cases inner with
      | false => rw [sourceLoop, if_pos hrun]; exact inside f (by omega)
      | true => exact inside (f + 1) (by omega)
    · rw [driver_latched he]
      exact sourceLoop_not_running (fun h => he (running_iff.mp h).2) fuel inner

/-- Settles O20: `sourceLoop_eq_driver`, from the head of the outer loop. -/
theorem sourceLoopIsTheDriver : Obligations.SourceLoopIsTheDriver :=
  fun n s hc => sourceLoop_eq_driver n _ false s (by omega) hc

end Sys2Proof.Machine

namespace Sys2Proof.Machine

/-! ## Register shifts, JALR, fences (40_integer_computational.md R144, R148, R149; 41_control_transfer.md R172) -/

/-- The shift amount is the count modulo 32 (R144, D22). -/
theorem shiftAmount_eq (v : Word) : shiftAmount v = v.toNat % 32 := by
  simp [shiftAmount, BitVec.extractLsb'_toNat]

/-- Settles O29: one row of OP each, and each shift by the masked count is the product or the floor quotient of
`shiftLeft_eq_ofNat` and its likes. -/
theorem registerShifts : Obligations.RegisterShifts := by
  refine ⟨selectedBy73_opBase ?_, selectedBy73_opBase ?_, selectedBy73_opAlt ?sra, fun s rd rs1 rs2 => ?meaning⟩
  case sra => intro w hf3; rw [decodeOpAlt, hf3]; rfl
  case meaning =>
    simp only [← shiftAmount_eq]
    exact ⟨completesX_of_finishX_of_eq rfl (shiftLeft_eq_ofNat _ _) rfl,
      completesX_of_finishX_of_eq rfl (ushiftRight_eq_ofNat _ _) rfl,
      completesX_of_finishX_of_eq rfl (sshiftRight_eq_ofInt _ _) rfl⟩
  all_goals intro w hf3; rw [decodeOpBase, hf3]; rfl

/-- Words of the JALR slot go to its sub-decode (R101). -/
theorem decodeWord_jalr (p : Params) {w : Word} (hslot : slotOf w = 0b11001#5) : decodeWord p w = decodeJalr w := by
  simp [decodeWord, hslot]

/-- JALR's target is the sum with its last bit taken off (R172). -/
theorem jalrTarget_eq (base : Word) (imm : BitVec 12) :
    jalrTarget base imm = BitVec.ofNat 32 ((base + imm.signExtend 32).toNat / 2 * 2) := by
  have hclear (sum : Word) : sum &&& 0xFFFFFFFE#32 = (sum >>> 1) <<< 1 := by
    apply BitVec.eq_of_getLsbD_eq
    intro i hi
    interval_cases i <;> simp
  rw [jalrTarget, imm12, hclear, shiftLeft_eq_ofNat, BitVec.toNat_ushiftRight, Nat.shiftRight_eq_div_pow, pow_one]

/-- With bit 0 cleared the check reads bit 1 alone (R170, R172). -/
theorem aligned_jalrTarget_iff (base : Word) (imm : BitVec 12) :
    aligned (jalrTarget base imm) ↔ (base + imm.signExtend 32).getLsbD 1 = false := by
  rw [aligned_iff_getLsbD, jalrTarget, imm12, BitVec.getLsbD_and, BitVec.getLsbD_and]
  simp

/-- Settles O31. -/
theorem jumpAndLinkRegister : Obligations.JumpAndLinkRegister := by
  refine ⟨fun p w hslot hf3 _ => ?row, fun f3 hne p w hslot hf3 => ⟨.funct3, ?illegal⟩, fun s rd rs1 imm => ?meaning⟩
  case row => rw [decodeWord_jalr p hslot, decodeJalr, if_pos hf3, iImmOf]
  case illegal => rw [decodeWord_jalr p hslot, decodeJalr, if_neg (hf3 ▸ hne)]
  case meaning =>
    obtain ⟨-, hbus, hal, hmis⟩ := jumpTo_spec (s.writeX rd (s.pc + 4#32)) (jalrTarget (s.readX rs1) imm)
    rw [State.writeX_bus] at hbus
    rw [State.writeX_exc, aligned_jalrTarget_iff] at hal
    rw [aligned_jalrTarget_iff, Bool.not_eq_false] at hmis
    exact ⟨_, rfl, jalrTarget_eq _ _ ▸ endX_writeX_jumpTo s rd _ _, hal, hmis, hbus, fun a => congrArg (·.mem.byte a) hbus, rfl⟩

/-- Settles O35: two rows of MISC-MEM, and both meanings are the advance alone. -/
theorem fences : Obligations.Fences := by
  refine ⟨fun p w hslot hf3 _ => ?fence, fun p w hslot hf3 hp => ?fenceI, fun s rd rs1 succ pred fm imm => ⟨
    completes0_of_advance s rfl rfl, completes0_of_advance s rfl rfl⟩⟩
  case fence => simp [decodeWord, hslot, decodeMiscMem, hf3]
  case fenceI => simp [decodeWord, hslot, decodeMiscMem, hf3, gate_of_present hp rfl, iImmOf]

/-! ## Memory (20_memory.md R65, R66, R75, R79) -/

/-! ### Canonical memories are their bytes -/

theorem Memory.wfFrom_cons_iff {k lo : Nat} {v : Byte} {rest : Memory} :
    Memory.wfFrom lo ((k, v) :: rest) = true ↔
      lo ≤ k ∧ k < 2 ^ 32 ∧ v ≠ Memory.unlisted ∧ Memory.wfFrom (k + 1) rest = true := by
  simp [Memory.wfFrom, and_assoc]

/-- The first key of a canonical list is the first that reads other than unlisted, so it is in no list that starts later. -/
theorem Memory.not_key_lt {k k' : Nat} {v v' : Byte} {rest rest' : Memory} {lo : Nat}
    (hm : Memory.wfFrom lo ((k, v) :: rest) = true) (hn : Memory.wfFrom lo ((k', v') :: rest') = true)
    (h : ∀ a, Memory.lookup ((k, v) :: rest) a = Memory.lookup ((k', v') :: rest') a) : ¬ k < k' := by
  intro hlt
  obtain ⟨-, -, hv, -⟩ := Memory.wfFrom_cons_iff.mp hm
  obtain ⟨-, hk', hv', hrest'⟩ := Memory.wfFrom_cons_iff.mp hn
  have hlate : Memory.wfFrom k' ((k', v') :: rest') = true := Memory.wfFrom_cons_iff.mpr ⟨Nat.le_refl _, hk', hv', hrest'⟩
  have hat := h k
  rw [Memory.lookup_cons, if_pos rfl, Memory.lookup_of_lt hlate hlt] at hat
  exact hv hat

/-- A canonical list that reads unlisted everywhere is empty. -/
theorem Memory.eq_nil_of_lookup {m : Memory} {lo : Nat} (hm : Memory.wfFrom lo m = true)
    (h : ∀ a, Memory.lookup m a = Memory.unlisted) : m = [] := by
  cases m with
  | nil => rfl
  | cons e rest =>
    obtain ⟨k, v⟩ := e
    obtain ⟨-, -, hv, -⟩ := Memory.wfFrom_cons_iff.mp hm
    exact absurd ((if_pos rfl).symm.trans (h k)) hv

/-- Canonical lists that read alike at every key are equal. -/
theorem Memory.eq_of_lookup {m n : Memory} {lo : Nat} (hm : Memory.wfFrom lo m = true) (hn : Memory.wfFrom lo n = true)
    (h : ∀ a, Memory.lookup m a = Memory.lookup n a) : m = n := by
  induction m generalizing n lo with
  | nil => exact (Memory.eq_nil_of_lookup hn fun a => (h a).symm).symm
  | cons e rest ih =>
    obtain ⟨k, v⟩ := e
    cases n with
    | nil => exact Memory.eq_nil_of_lookup hm h
    | cons e' rest' =>
      obtain ⟨k', v'⟩ := e'
      have hk : k = k' := by
        have := Memory.not_key_lt hm hn h
        have := Memory.not_key_lt hn hm fun a => (h a).symm
        omega
      subst hk
      have hv : v = v' := by simpa [Memory.lookup_cons] using h k
      obtain ⟨-, -, -, hrest⟩ := Memory.wfFrom_cons_iff.mp hm
      obtain ⟨-, -, -, hrest'⟩ := Memory.wfFrom_cons_iff.mp hn
      have htail (a : Nat) : Memory.lookup rest a = Memory.lookup rest' a := by
        by_cases ha : a = k
        · subst ha
          rw [Memory.lookup_of_lt hrest (Nat.lt_succ_self _), Memory.lookup_of_lt hrest' (Nat.lt_succ_self _)]
        · simpa [Memory.lookup_cons, Ne.symm ha] using h a
      rw [hv, ih hrest hrest' htail]

/-- A canonical list has no key from 2^32 on. -/
theorem Memory.lookup_of_ge {m : Memory} {lo a : Nat} (h : Memory.wfFrom lo m = true) (ha : 2 ^ 32 ≤ a) :
    Memory.lookup m a = Memory.unlisted := by
  induction m generalizing lo with
  | nil => rfl
  | cons e rest ih =>
    obtain ⟨k, v⟩ := e
    obtain ⟨-, hk, -, hrest⟩ := Memory.wfFrom_cons_iff.mp h
    rw [Memory.lookup_cons, if_neg (by omega), ih hrest]

/-- Settles O37: the keys below 2^32 are the addresses, and the others read as unlisted. -/
theorem memoryIsItsBytes : Obligations.MemoryIsItsBytes := by
  intro m n hm hn h
  refine Memory.eq_of_lookup hm hn fun a => ?_
  by_cases ha : a < 2 ^ 32
  · have hbyte := h (BitVec.ofNat 32 a)
    rwa [Memory.byte, Memory.byte, BitVec.toNat_ofNat, Nat.mod_eq_of_lt ha] at hbyte
  · rw [Memory.lookup_of_ge hm (not_lt.mp ha), Memory.lookup_of_ge hn (not_lt.mp ha)]

/-! ### Read after write -/

/-- The number the first bytes of a written value spell. -/
theorem littleEndian_write {m : Memory} (h : m.wf = true) (a : Word) (n : Width) (v : Word) (k : Nat) (hk : k ≤ n.bytes) :
    littleEndian (m.write a n v) a k = v.toNat % 2 ^ (8 * k) := by
  induction k with
  | zero => simp [littleEndian, Nat.mod_one]
  | succ k ih =>
    have hn : n.bytes ≤ 4 := by cases n <;> decide
    have hoff : (a + BitVec.ofNat 32 k - a).toNat = k := (Memory.offset_iff a _ k (by omega)).mp rfl
    rw [littleEndian, ih (by omega), Memory.byte_write h, hoff, if_pos (by omega), BitVec.extractLsb'_toNat,
      Nat.shiftRight_eq_div_pow, show 256 = 2 ^ 8 from rfl, ← Nat.pow_mul, Nat.mul_succ, Nat.pow_add, Nat.mod_mul]
    ring

/-- What is written reads back (R79). -/
theorem read_write {m : Memory} (h : m.wf = true) (a : Word) (n : Width) (v : Word) :
    (m.write a n v).read a n = n.cut v := by
  rw [Memory.read_eq, littleEndian_write h a n v _ (Nat.le_refl _), Width.cut_eq]

/-- With no reply pending the reference memory answers (R79). -/
theorem Bus.answer_of_no_reply {b : Bus} (h : b.replies = []) (a : Word) (n : Width) : b.answer a n = b.mem.read a n := by
  rw [Bus.answer, Bus.nextReply, h]; rfl

/-- The store leaves its word in memory, and the fetch there reads it (R75). -/
theorem iFetch_after_sw {s t : State} {rs1 rs2 : Reg} {imm : BitVec 12} (hm : s.bus.mem.wf = true)
    (hreplies : s.bus.replies = []) (h : exec (.sw rs1 rs2 imm) s = .next t) :
    (t.setPc (s.readX rs1 + imm.signExtend 32)).iFetch.1 = s.readX rs2 := by
  cases h
  have hmem : (s.store (s.ea rs1 imm) .word (s.readX rs2)).bus.mem = s.bus.mem.write (s.ea rs1 imm) .word (s.readX rs2) := by
    simp [State.store, State.memWrite, Bus.memAfterWrite, Bus.nextReply, hreplies, BusReply.reference]
  have hnone : (s.store (s.ea rs1 imm) .word (s.readX rs2)).bus.replies = [] := by
    simp [State.store, State.memWrite, hreplies]
  show (s.store (s.ea rs1 imm) .word (s.readX rs2)).bus.answer (s.ea rs1 imm) .word = s.readX rs2
  rw [Bus.answer_of_no_reply hnone, hmem]
  exact read_write hm _ _ _

/-- Settles O36: `littleEndian_write`, `read_write` and `Memory.byte_write`; the fetch after a store is a read after a write. -/
theorem readAfterWrite : Obligations.ReadAfterWrite :=
  ⟨fun _ a n v h => ⟨littleEndian_write h a n v _ (Nat.le_refl _), read_write h a n v,
      fun b hb => (Memory.byte_write h a n v b).trans (if_neg (not_lt.mpr hb)), Memory.wf_write h a n v⟩,
    fun _ _ _ _ _ hm hreplies h => iFetch_after_sw hm hreplies h⟩

end Sys2Proof.Machine

namespace Sys2Proof.Machine

/-! ## Loads, stores and atomics (42_load_store_fence.md R190 to R199, 45_a_extension.md, 46_f_extension.md R297, R298) -/

/-! ### Rows of the slots -/

section Rows

variable {slot : BitVec 5} {f3 : BitVec 3} {mk : Word → Instr} {sub : Params → Word → Decoded}

/-- A row, selected by `funct3`, of the sub-decode that its slot goes to. -/
theorem selectedBy3_of_subDecode (hslot : ∀ p w, slotOf w = slot → decodeWord p w = sub p w)
    (hrow : ∀ p w, funct3Of w = f3 → (mk w).present p = true → sub p w = .instr (mk w)) : SelectedBy3 slot f3 mk :=
  fun p w hs hf3 hp => (hslot p w hs).trans (hrow p w hf3 hp)

/-- A row that holds no instruction. -/
theorem illegalBy3_of_subDecode (hslot : ∀ p w, slotOf w = slot → decodeWord p w = sub p w)
    (hrow : ∀ p w, funct3Of w = f3 → sub p w = .illegal .funct3) : IllegalBy3 slot f3 :=
  fun p w hs hf3 => ⟨.funct3, (hslot p w hs).trans (hrow p w hf3)⟩

end Rows

theorem decodeWord_load (p : Params) (w : Word) (hslot : slotOf w = 0b00000#5) : decodeWord p w = decodeLoad w := by
  simp [decodeWord, hslot]

theorem decodeWord_store (p : Params) (w : Word) (hslot : slotOf w = 0b01000#5) : decodeWord p w = decodeStore w := by
  simp [decodeWord, hslot]

theorem decodeWord_loadFp (p : Params) (w : Word) (hslot : slotOf w = 0b00001#5) :
    decodeWord p w = gate p .f (decodeLoadFp w) := by
  simp [decodeWord, hslot]

theorem decodeWord_storeFp (p : Params) (w : Word) (hslot : slotOf w = 0b01001#5) :
    decodeWord p w = gate p .f (decodeStoreFp w) := by
  simp [decodeWord, hslot]

theorem decodeWord_amo (p : Params) (w : Word) (hslot : slotOf w = 0b01011#5) :
    decodeWord p w = gate p .a (decodeAmo w) := by
  simp [decodeWord, hslot]

theorem decodeWord_system (p : Params) (w : Word) (hslot : slotOf w = 0b11100#5) : decodeWord p w = decodeSystem p w := by
  simp [decodeWord, hslot]

/-- A row of R110. -/
theorem selectedByF5_amo {f5 : BitVec 5} {mk : Word → Instr} (hext : ∀ w, (mk w).extension = some .a)
    (hrow : ∀ w, funct3Of w = 0b010#3 → rs3Of w = f5 → decodeAmo w = .instr (mk w)) : SelectedByF5 f5 mk := by
  intro p w hslot hf3 hf5 hp
  rw [decodeWord_amo p w hslot, gate_of_present hp (hext w), hrow w hf3 hf5]

/-! ### The value loaded -/

theorem setWidth_ofNat_word {n : Nat} (hn : n ≤ 32) (x : Nat) : (BitVec.ofNat 32 x).setWidth n = BitVec.ofNat n x := by
  apply BitVec.eq_of_toNat_eq
  rw [BitVec.toNat_setWidth, BitVec.toNat_ofNat, BitVec.toNat_ofNat, Nat.mod_mod_of_dvd _ (Nat.pow_dvd_pow 2 hn)]

theorem sext8_ofNat (x : Nat) : sext8 (BitVec.ofNat 32 x) = (BitVec.ofNat 8 x).signExtend 32 := by
  rw [sext8, setWidth_ofNat_word (by decide)]

theorem sext16_ofNat (x : Nat) : sext16 (BitVec.ofNat 32 x) = (BitVec.ofNat 16 x).signExtend 32 := by
  rw [sext16, setWidth_ofNat_word (by decide)]

/-- A byte read is its own zero extension. -/
theorem zext8_ofNat {x : Nat} (hx : x < 2 ^ 8) : zext8 (BitVec.ofNat 32 x) = BitVec.ofNat 32 x := by
  rw [zext8, setWidth_ofNat_word (by decide)]
  exact BitVec.eq_of_toNat_eq (by simp; omega)

/-- A half word read is its own zero extension. -/
theorem zext16_ofNat {x : Nat} (hx : x < 2 ^ 16) : zext16 (BitVec.ofNat 32 x) = BitVec.ofNat 32 x := by
  rw [zext16, setWidth_ofNat_word (by decide)]
  exact BitVec.eq_of_toNat_eq (by simp; omega)

/-! ### What the shared operations do -/

section Port

variable {s t : State} {i : Instr} {a : Word} {n : Width}

/-- A read leaves the core's side as it was (R62). -/
theorem EndX.of_memRead {rd : Reg} {v pc' : Word} (h : EndX (s.memRead a n).2 t rd v pc') : EndX s t rd v pc' :=
  ⟨h.x, h.f, h.csrs, h.const, h.pc⟩

theorem EndF.of_memRead {rd : Reg} {v : Word} (h : EndF (s.memRead a n).2 t rd v) : EndF s t rd v :=
  ⟨h.x, h.f, h.csrs, h.const, h.pc⟩

/-- A write leaves the core's side as it was (R63). -/
theorem EndX.of_memWrite {u v pc' : Word} {rd : Reg} (h : EndX (s.memWrite a n u) t rd v pc') : EndX s t rd v pc' :=
  ⟨h.x, h.f, h.csrs, h.const, h.pc⟩

/-- An instruction that reads once and ends with the extended value in `rd`. -/
theorem loadDoes_of_memRead {rd : Reg} {v : Word} {ext : Word → Word}
    (h : exec i s = .next ((s.memRead a n).2.finishX rd (ext (s.memRead a n).1))) (hq : sequential i s = true)
    (hv : ext (BitVec.ofNat 32 (answered s a n)) = v) : LoadDoes i s rd a n v := by
  have hval : ext (s.memRead a n).1 = v := by rw [← hv, ← Bus.answer_eq]; rfl
  rw [hval] at h
  exact ⟨_, h, (endX_finishX (s.memRead a n).2 rd v).of_memRead,
    (readOnce_memRead s a n).congr (State.finishX_bus _ _ _) (State.finishX_exc _ _ _), hq⟩

/-- An instruction that writes once and advances. -/
theorem storeDoes_of_store {v : Word} (hm : s.bus.mem.wf = true) (h : exec i s = .next (s.store a n v))
    (hq : sequential i s = true) : StoreDoes i s a n v := by
  obtain ⟨hend, hwrote⟩ := store_spec s hm a n v
  exact ⟨_, h, hend, hwrote, hq⟩

/-- An AMO, with its operation as the spec writes it. -/
theorem amoDoes_of_amo {rd rs1 rs2 : Reg} {op op' : Word → Word → Word} (hm : s.bus.mem.wf = true)
    (h : exec i s = .next (s.amo rd rs1 rs2 op)) (hq : sequential i s = true) (hop : ∀ u v, op u v = op' u v) :
    AmoDoes i s rd rs1 rs2 op' := by
  obtain ⟨hread, hwrote, hend⟩ := amo_spec s hm rd rs1 rs2 op
  exact ⟨_, _, h, hread, hop _ _ ▸ hwrote, hend, hq⟩

end Port

/-! ### The statements -/

/-- Settles O33: one row of LOAD each, and each extension of the value read is the spec's. -/
theorem loads : Obligations.Loads := by
  refine ⟨selectedBy3_of_subDecode decodeWord_load ?_, selectedBy3_of_subDecode decodeWord_load ?_,
    selectedBy3_of_subDecode decodeWord_load ?_, selectedBy3_of_subDecode decodeWord_load ?_,
    selectedBy3_of_subDecode decodeWord_load ?_, illegalBy3_of_subDecode decodeWord_load ?none3,
    illegalBy3_of_subDecode decodeWord_load ?none6, illegalBy3_of_subDecode decodeWord_load ?none7,
    fun s rd rs1 imm a ha => ?meaning⟩
  case meaning =>
    subst ha
    exact ⟨loadDoes_of_memRead rfl rfl (sext8_ofNat _), loadDoes_of_memRead rfl rfl (sext16_ofNat _),
      loadDoes_of_memRead (ext := id) rfl rfl rfl, loadDoes_of_memRead rfl rfl (zext8_ofNat (answered_lt s _ .byte)),
      loadDoes_of_memRead rfl rfl (zext16_ofNat (answered_lt s _ .half))⟩
  case none3 | none6 | none7 => intro p w hf3; rw [decodeLoad, hf3]; rfl
  all_goals intro p w hf3 _; rw [decodeLoad, hf3]; rfl

/-- Settles O34: one row of STORE each, and every meaning is the shared `store`. -/
theorem stores : Obligations.Stores := by
  refine ⟨selectedBy3_of_subDecode decodeWord_store ?_, selectedBy3_of_subDecode decodeWord_store ?_,
    selectedBy3_of_subDecode decodeWord_store ?_, illegalBy3_of_subDecode decodeWord_store ?none3,
    illegalBy3_of_subDecode decodeWord_store ?none4, illegalBy3_of_subDecode decodeWord_store ?none5,
    illegalBy3_of_subDecode decodeWord_store ?none6, illegalBy3_of_subDecode decodeWord_store ?none7,
    fun s rs1 rs2 imm hm => ⟨storeDoes_of_store hm rfl rfl, storeDoes_of_store hm rfl rfl, storeDoes_of_store hm rfl rfl⟩⟩
  case none3 | none4 | none5 | none6 | none7 => intro p w hf3; rw [decodeStore, hf3]; rfl
  all_goals intro p w hf3 _; rw [decodeStore, hf3]; rfl

/-- Settles O48: one row of each slot; FLW is a read into `f[rd]`, FSW the shared `store`. -/
theorem floatLoadStore : Obligations.FloatLoadStore := by
  refine ⟨selectedBy3_of_subDecode decodeWord_loadFp fun p w hf3 hp => ?flw,
    selectedBy3_of_subDecode decodeWord_storeFp fun p w hf3 hp => ?fsw, fun s rd rs1 rs2 imm a ha => ?meaning⟩
  case flw => rw [gate_of_present hp rfl, decodeLoadFp, hf3]; rfl
  case fsw => rw [gate_of_present hp rfl, decodeStoreFp, hf3]; rfl
  case meaning =>
    subst ha
    refine ⟨?_, fun hm => storeDoes_of_store hm rfl rfl⟩
    rw [← Bus.answer_eq]
    exact ⟨_, rfl, (endF_finishF (s.memRead (s.ea rs1 imm) .word).2 rd _).of_memRead,
      (readOnce_memRead s (s.ea rs1 imm) .word).congr (State.finishF_bus _ _ _) (State.finishF_exc _ _ _), rfl⟩

/-- Settles O45: LR.W's row asks for `rs2 = 0`; LR.W is a load, SC.W a write with 0 in `rd`. -/
theorem lrSc : Obligations.LrSc := by
  refine ⟨fun p w hslot hf3 hf5 hA => ?lr, selectedByF5_amo (fun _ => rfl) fun w hf3 hf5 => ?sc,
    fun s rd rs1 rs2 aq rl => ⟨loadDoes_of_memRead (ext := id) rfl rfl rfl, fun hm => ?meaning⟩⟩
  case lr =>
    have hf5' : rs3Of w = 0b00010#5 := hf5
    rw [decodeWord_amo p w hslot, gate_of_has (e := .a) hA, decodeAmo, if_pos hf3, hf5']
    exact ⟨fun hrs2 => if_pos hrs2, fun hrs2 => ⟨.rs2, if_neg hrs2⟩⟩
  case sc => rw [decodeAmo, if_pos hf3, hf5]; rfl
  case meaning =>
    exact ⟨_, rfl, (endX_finishX (s.memWrite (s.readX rs1) .word (s.readX rs2)) rd 0#32).of_memWrite,
      (wroteOnce_memWrite s hm _ _ _).congr (State.finishX_bus _ _ _) (State.finishX_exc _ _ _), rfl⟩

/-- Settles O46: one row of AMO each, and every meaning is the shared `amo`. -/
theorem amoLogical : Obligations.AmoLogical := by
  refine ⟨selectedByF5_amo (fun _ => rfl) ?_, selectedByF5_amo (fun _ => rfl) ?_, selectedByF5_amo (fun _ => rfl) ?_,
    selectedByF5_amo (fun _ => rfl) ?_, selectedByF5_amo (fun _ => rfl) ?_, fun s rd rs1 rs2 aq rl hm => ⟨
    amoDoes_of_amo hm rfl rfl fun _ _ => rfl, amoDoes_of_amo hm rfl rfl BitVec.add_def,
    amoDoes_of_amo hm rfl rfl fun _ _ => rfl, amoDoes_of_amo hm rfl rfl fun _ _ => rfl,
    amoDoes_of_amo hm rfl rfl fun _ _ => rfl⟩⟩
  all_goals intro w hf3 hf5; rw [decodeAmo, if_pos hf3, hf5]; rfl

theorem minSigned_eq (t v : Word) : minSigned t v = BitVec.ofInt 32 (min t.toInt v.toInt) := by
  by_cases h : t.toInt < v.toInt
  · simp [minSigned, ltSigned, h, min_eq_left h.le]
  · simp [minSigned, ltSigned, h, min_eq_right (not_lt.mp h)]

theorem maxSigned_eq (t v : Word) : maxSigned t v = BitVec.ofInt 32 (max t.toInt v.toInt) := by
  by_cases h : v.toInt < t.toInt
  · simp [maxSigned, ltSigned, h, max_eq_left h.le]
  · simp [maxSigned, ltSigned, h, max_eq_right (not_lt.mp h)]

theorem minUnsigned_eq (t v : Word) : minUnsigned t v = BitVec.ofNat 32 (min t.toNat v.toNat) := by
  by_cases h : t.toNat < v.toNat
  · simp [minUnsigned, ltUnsigned, h, min_eq_left h.le]
  · simp [minUnsigned, ltUnsigned, h, min_eq_right (not_lt.mp h)]

theorem maxUnsigned_eq (t v : Word) : maxUnsigned t v = BitVec.ofNat 32 (max t.toNat v.toNat) := by
  by_cases h : v.toNat < t.toNat
  · simp [maxUnsigned, ltUnsigned, h, max_eq_left h.le]
  · simp [maxUnsigned, ltUnsigned, h, max_eq_right (not_lt.mp h)]

/-- Settles O47: one row of AMO each, and each operation is the spec's minimum or maximum. -/
theorem amoMinMax : Obligations.AmoMinMax := by
  refine ⟨selectedByF5_amo (fun _ => rfl) ?_, selectedByF5_amo (fun _ => rfl) ?_, selectedByF5_amo (fun _ => rfl) ?_,
    selectedByF5_amo (fun _ => rfl) ?_, fun s rd rs1 rs2 aq rl hm => ⟨
    amoDoes_of_amo hm rfl rfl minSigned_eq, amoDoes_of_amo hm rfl rfl maxSigned_eq,
    amoDoes_of_amo hm rfl rfl minUnsigned_eq, amoDoes_of_amo hm rfl rfl maxUnsigned_eq⟩⟩
  all_goals intro w hf3 hf5; rw [decodeAmo, if_pos hf3, hf5]; rfl

/-! ## CSR instructions (43_system_csr.md R213 to R219) -/

/-- A CSR instruction, with its new value as the spec writes it. -/
theorem csrDoes_of_csrAccess {s : State} {i : Instr} {rd : Reg} {csr : BitVec 12} {new : Word → Word} {v : Word}
    (h : exec i s = .next (s.csrAccess rd csr new)) (hq : sequential i s = true) (hv : new (csrTable s csr) = v) :
    CsrDoes i s rd csr v := by
  rw [State.csrAccess, readCsr_eq, hv] at h
  refine ⟨_, h, fun r => ?x, fun r => ?f, ?pc, ?mstatus, ?cycle, ?fcsr, ?const, ?quiet, hq⟩
  case x | f | pc | mstatus | cycle | fcsr => simp
  case const => simp [KeptConst]
  case quiet => simp [Quiet]

/-- The immediate forms take the field as a number (R98). -/
theorem zimmOf_eq (z : BitVec 5) : zimmOf z = BitVec.ofNat 32 z.toNat := (BitVec.ofNat_toNat 32 z).symm

/-- Settles O40: one row of SYSTEM each, and every meaning is the shared `csrAccess`. -/
theorem csrInstructions : Obligations.CsrInstructions := by
  refine ⟨selectedBy3_of_subDecode decodeWord_system ?_, selectedBy3_of_subDecode decodeWord_system ?_,
    selectedBy3_of_subDecode decodeWord_system ?_, selectedBy3_of_subDecode decodeWord_system ?_,
    selectedBy3_of_subDecode decodeWord_system ?_, selectedBy3_of_subDecode decodeWord_system ?_,
    fun s rd rs1 zimm csr => ?meaning⟩
  case meaning =>
    rw [← zimmOf_eq]
    exact ⟨csrDoes_of_csrAccess rfl rfl rfl, csrDoes_of_csrAccess rfl rfl rfl, csrDoes_of_csrAccess rfl rfl rfl,
      csrDoes_of_csrAccess rfl rfl rfl, csrDoes_of_csrAccess rfl rfl rfl, csrDoes_of_csrAccess rfl rfl rfl⟩
  all_goals intro p w hf3 hp; rw [decodeSystem, hf3]; exact gate_of_present hp rfl _

/-! ## Multiplication and division (44_m_extension.md R243, R245, R247, R249) -/

/-- The remainder that goes with the quotient rounded toward zero (R247). -/
theorem sub_mul_tdiv (a b : Int) : a - b * a.tdiv b = a.tmod b := (Int.tmod_def a b).symm

/-- Settles O43: one row each of OP's `funct7 = 0000001`; the results are the model's, with the remainder as `tmod`. -/
theorem mulhsuDivRem : Obligations.MulhsuDivRem := by
  refine ⟨selectedBy73_opMul (fun _ => rfl) ?_, selectedBy73_opMul (fun _ => rfl) ?_,
    selectedBy73_opMul (fun _ => rfl) ?_, fun s rd rs1 rs2 => ⟨
    completesX_of_finishX_of_eq rfl (highWord_eq_ofInt _) rfl, completesX_of_finishX s rfl rfl,
    completesX_of_finishX_of_eq rfl ?rem rfl⟩⟩
  case rem => rw [remSigned, sub_mul_tdiv]
  all_goals intro w hf3; rw [decodeOpMul, hf3]; rfl

/-- The two words of a product join to all of it. -/
theorem highWord_append_ofInt (n : Int) : highWord n ++ BitVec.ofInt 32 n = BitVec.ofInt 64 n := by
  apply BitVec.eq_of_toNat_eq
  rw [highWord_eq_ofInt, BitVec.toNat_append, ← Nat.shiftLeft_add_eq_or_of_lt (BitVec.isLt _), Nat.shiftLeft_eq]
  simp only [BitVec.toNat_ofInt]
  omega

/-- A word is its unsigned value modulo 2^32. -/
theorem ofInt_toNat (a : Word) : BitVec.ofInt 32 (a.toNat : Int) = a := by
  rw [BitVec.ofInt_natCast, BitVec.ofNat_toNat, BitVec.setWidth_eq]

/-- The low word of the product, whichever operand is read as unsigned. -/
theorem mulLow_eq_ofInt_mixed (a b : Word) : mulLow a b = BitVec.ofInt 32 (a.toInt * (b.toNat : Int)) := by
  rw [mulLow, BitVec.ofInt_mul, BitVec.ofInt_toInt, ofInt_toNat]

theorem mulLow_eq_ofInt_unsigned (a b : Word) : mulLow a b = BitVec.ofInt 32 ((a.toNat : Int) * (b.toNat : Int)) := by
  rw [mulLow, BitVec.ofInt_mul, ofInt_toNat, ofInt_toNat]

/-- Overflow, as numbers: the least word divided by -1. -/
theorem overflow_iff {a b : Word} : a = 0x80000000#32 ∧ b = 0xFFFFFFFF#32 ↔ a.toInt = -2 ^ 31 ∧ b.toInt = -1 := by
  rw [← BitVec.toInt_inj, ← BitVec.toInt_inj]
  rfl

theorem divSigned_mul_add_remSigned (a b : Word) : divSigned a b * b + remSigned a b = a := by
  unfold divSigned remSigned
  split_ifs with hzero hover
  · rw [hzero, BitVec.mul_zero, BitVec.zero_add]
  · obtain ⟨rfl, rfl⟩ := hover; decide
  · calc BitVec.ofInt 32 (a.toInt.tdiv b.toInt) * b + BitVec.ofInt 32 (a.toInt - b.toInt * a.toInt.tdiv b.toInt)
        = BitVec.ofInt 32 (a.toInt.tdiv b.toInt * b.toInt + (a.toInt - b.toInt * a.toInt.tdiv b.toInt)) := by
          rw [BitVec.ofInt_add, BitVec.ofInt_mul, BitVec.ofInt_toInt]
      _ = BitVec.ofInt 32 a.toInt := by congr 1; ring
      _ = a := BitVec.ofInt_toInt

theorem divUnsigned_mul_add_remUnsigned (a b : Word) : divUnsigned a b * b + remUnsigned a b = a := by
  unfold divUnsigned remUnsigned
  split_ifs with hzero
  · rw [hzero, BitVec.mul_zero, BitVec.zero_add]
  · apply BitVec.eq_of_toNat_eq
    have hab := Nat.div_add_mod' a.toNat b.toNat
    rw [BitVec.toNat_add, BitVec.toNat_mul, BitVec.toNat_ofNat, BitVec.toNat_ofNat, Nat.mod_mul_mod, Nat.mod_add_mod,
      Nat.add_mod_mod, hab, Nat.mod_eq_of_lt a.isLt]

theorem toNat_remUnsigned_lt {a b : Word} (hb : b ≠ 0#32) : (remUnsigned a b).toNat < b.toNat := by
  have hpos : 0 < b.toNat := Nat.pos_of_ne_zero fun h => hb (BitVec.eq_of_toNat_eq h)
  rw [remUnsigned, if_neg hb, BitVec.toNat_ofNat]
  exact lt_of_le_of_lt (Nat.mod_le _ _) (Nat.mod_lt _ hpos)

/-- The quotient rounded toward zero, by magnitudes and signs. -/
theorem tdiv_eq_sign_mul (a b : Int) :
    a.tdiv b = (if (a < 0) = (b < 0) then 1 else -1) * (a.natAbs / b.natAbs : Nat) := by
  have hquot : ((a.natAbs / b.natAbs : Nat) : Int) = |a|.tdiv |b| := by
    rw [← Int.natCast_natAbs, ← Int.natCast_natAbs, Int.ofNat_tdiv]
  rw [hquot]
  rcases lt_or_ge a 0 with ha | ha <;> rcases lt_or_ge b 0 with hb | hb
  case inl.inl => simp [ha, hb, abs_of_neg]
  case inl.inr => simp [ha, hb.not_gt, abs_of_neg ha, abs_of_nonneg hb]
  case inr.inl => simp [ha.not_gt, hb, abs_of_nonneg ha, abs_of_neg hb]
  case inr.inr => simp [ha.not_gt, hb.not_gt, abs_of_nonneg, ha, hb]

/-- The remainder of the dividend's sign, by magnitudes. -/
theorem tmod_eq_sign_mul (a b : Int) : a.tmod b = (if a < 0 then -1 else 1) * (a.natAbs % b.natAbs : Nat) := by
  have habs : |a|.tmod |b| = |a|.tmod b := by rcases abs_choice b with h | h <;> rw [h]; exact Int.tmod_neg _ _
  have hrem : ((a.natAbs % b.natAbs : Nat) : Int) = |a|.tmod b := by
    rw [Int.ofNat_tmod, Int.natCast_natAbs, Int.natCast_natAbs, habs]
  rw [hrem]
  split_ifs with ha
  · simp [abs_of_neg ha]
  · simp [abs_of_nonneg (not_lt.mp ha)]

/-- A word holds a number of its range. -/
theorem toInt_ofInt_of_range {n : Int} (hlow : -2 ^ 31 ≤ n) (hhigh : n < 2 ^ 31) : (BitVec.ofInt 32 n).toInt = n :=
  BitVec.toInt_ofInt_eq_self (by decide) hlow hhigh

/-- The quotient is in the range unless the least number is divided by -1: dividing by 2 or more at least halves it. -/
theorem tdiv_range {a b : Int} (hlow : -2 ^ 31 ≤ a) (hhigh : a < 2 ^ 31) (hb : b ≠ 0)
    (hover : ¬ (a = -2 ^ 31 ∧ b = -1)) : -2 ^ 31 ≤ a.tdiv b ∧ a.tdiv b < 2 ^ 31 := by
  have habs : (a.tdiv b).natAbs = a.natAbs / b.natAbs := Int.natAbs_tdiv a b
  by_cases hone : b = 1 ∨ b = -1
  · rcases hone with rfl | rfl
    case inl => rw [Int.tdiv_one]; exact ⟨hlow, hhigh⟩
    case inr => rw [Int.tdiv_neg, Int.tdiv_one]; omega
  · have hhalf : a.natAbs / b.natAbs ≤ a.natAbs / 2 := Nat.div_le_div_left (by omega) (by decide)
    omega

/-- Without a zero divisor and without overflow the quotient is a word's. -/
theorem toInt_divSigned {a b : Word} (hb : b ≠ 0#32) (hover : ¬ (a = 0x80000000#32 ∧ b = 0xFFFFFFFF#32)) :
    (divSigned a b).toInt = a.toInt.tdiv b.toInt := by
  rw [divSigned, if_neg hb, if_neg hover]
  rw [overflow_iff] at hover
  have hlow : -2 ^ 31 ≤ a.toInt := BitVec.le_toInt a
  have hhigh : a.toInt < 2 ^ 31 := BitVec.toInt_lt
  have hpos : b.toInt ≠ 0 := fun h => hb (BitVec.eq_of_toInt_eq h)
  obtain ⟨hge, hlt⟩ := tdiv_range hlow hhigh hpos hover
  exact toInt_ofInt_of_range hge hlt

/-- The remainder is a word's in the same case. -/
theorem toInt_remSigned {a b : Word} (hb : b ≠ 0#32) (hover : ¬ (a = 0x80000000#32 ∧ b = 0xFFFFFFFF#32)) :
    (remSigned a b).toInt = a.toInt.tmod b.toInt := by
  rw [remSigned, if_neg hb, if_neg hover, sub_mul_tdiv]
  have hlow : -2 ^ 31 ≤ a.toInt := BitVec.le_toInt a
  have hhigh : a.toInt < 2 ^ 31 := BitVec.toInt_lt
  have hsize : (a.toInt.natAbs % b.toInt.natAbs) ≤ a.toInt.natAbs := Nat.mod_le _ _
  have hrem := tmod_eq_sign_mul a.toInt b.toInt
  refine toInt_ofInt_of_range ?_ ?_ <;> split_ifs at hrem <;> omega

/-- Settles O44: exact products and quotients over the integers, and the range of the quotient without overflow. -/
theorem multiplyDivideLaws : Obligations.MultiplyDivideLaws := by
  intro a b
  refine ⟨?unsigned, ?signed, ?mixed, divSigned_mul_add_remSigned a b, divUnsigned_mul_add_remUnsigned a b,
    rfl, rfl, rfl, rfl, rfl, rfl, rfl, rfl, toNat_remUnsigned_lt, fun hb hover => ⟨?quotient, ?remainder, ?smaller⟩⟩
  case unsigned =>
    rw [mulLow_eq_ofInt_unsigned, mulHighU, highWord_append_ofInt, ← Nat.cast_mul, BitVec.ofInt_natCast]
  case signed => rw [mulLow_eq_ofInt, mulHigh, highWord_append_ofInt]
  case mixed => rw [mulLow_eq_ofInt_mixed, mulHighSU, highWord_append_ofInt]
  case quotient => rw [toInt_divSigned hb hover, tdiv_eq_sign_mul]
  case remainder => rw [toInt_remSigned hb hover, tmod_eq_sign_mul]
  case smaller =>
    have hpos : 0 < b.toInt.natAbs := Int.natAbs_pos.mpr fun h => hb (BitVec.eq_of_toInt_eq h)
    rw [toInt_remSigned hb hover, Int.natAbs_tmod]
    exact Nat.mod_lt _ hpos

end Sys2Proof.Machine

namespace Sys2Proof.Machine

/-! ## Patterns and the numbers they stand for (46_f_extension.md R290) -/

theorem fInf_eq_signed (s : Bool) : fInf s = signed s 0x7F800000#31 := by cases s <;> rfl

theorem fZero_eq_signed (s : Bool) : fZero s = signed s 0#31 := by cases s <;> rfl

/-- The fields as numbers. -/
theorem fExp_eq (v : Word) : fExp v = v.toNat / 2 ^ 23 % 2 ^ 8 := by
  rw [fExp, BitVec.extractLsb'_toNat, Nat.shiftRight_eq_div_pow]

theorem fFrac_eq (v : Word) : fFrac v = v.toNat % 2 ^ 23 := by
  rw [fFrac, BitVec.extractLsb'_toNat, Nat.shiftRight_zero]

theorem isZero_iff {v : Word} : isZero v = true ↔ fExp v = 0 ∧ fFrac v = 0 := by
  rw [isZero, decide_eq_true_iff, ← BitVec.toNat_inj, BitVec.extractLsb'_toNat, Nat.shiftRight_zero, fExp_eq, fFrac_eq,
    BitVec.toNat_ofNat]
  omega

theorem magnitude_eq_zero_iff {v : Word} : magnitude v = 0 ↔ isZero v = true := by
  rw [isZero_iff, magnitude]
  split_ifs with hexp
  · exact ⟨fun h => ⟨hexp, h⟩, And.right⟩
  · exact iff_of_false (by positivity) fun h => hexp h.1

theorem natAbs_value (v : Word) : (value v).natAbs = magnitude v := by
  unfold value; split_ifs <;> simp

theorem value_eq_zero_iff {v : Word} : value v = 0 ↔ isZero v = true := by
  rw [← Int.natAbs_eq_zero, natAbs_value, magnitude_eq_zero_iff]

/-- The sign bit is the sign of a value that is not zero. -/
theorem value_neg_iff {v : Word} (hv : isZero v = false) : value v < 0 ↔ fSign v = true := by
  have hmag : magnitude v ≠ 0 := fun h => by simp [magnitude_eq_zero_iff.mp h] at hv
  unfold value; split_ifs with hs <;> simp [hs]; omega

/-- One quantum is 1 / `quanta`, as a rational and as a real. -/
theorem quanta_mul_zpow {K : Type} [Field K] [CharZero K] : (quanta : K) * (2 : K) ^ (-149 : ℤ) = 1 := by
  rw [quanta, Nat.cast_pow, Nat.cast_ofNat, ← zpow_natCast, ← zpow_add₀ (by norm_num)]
  norm_num

theorem quanta_pos : 0 < quanta := by unfold quanta; positivity

/-- A value is its number of quanta divided by `quanta`. -/
theorem valQ_eq_div (v : Word) : valQ v = (value v : ℚ) / quanta := by
  have hq : (quanta : ℚ) ≠ 0 := by exact_mod_cast quanta_pos.ne'
  rw [valQ_eq, eq_div_iff hq, mul_assoc, mul_comm _ (quanta : ℚ), quanta_mul_zpow, mul_one]

/-- `roundInt` rounds a rational given as a fraction of quanta. -/
theorem roundsTo_roundInt_of_eq {r : ℚ} {num : ℤ} {den : ℕ} (hn : num ≠ 0) (hd : 0 < den)
    (hr : r = (num : ℚ) / den / quanta) : RoundsTo (r : ℝ) (roundInt num den) := by
  have hq : (quanta : ℚ) ≠ 0 := by exact_mod_cast quanta_pos.ne'
  have hr' : r = (num : ℚ) / den * (2 : ℚ) ^ (-149 : ℤ) := by
    rw [hr, div_eq_iff hq, mul_assoc, mul_comm _ (quanta : ℚ), quanta_mul_zpow, mul_one]
  refine roundsTo_roundInt hn hd ?_
  rw [hr']
  push_cast
  rfl

/-! ## Arithmetic (R299 to R303, R319 to R322) -/

section Clauses

variable {c d P Q : Prop} [Decidable c] [Decidable d] {x y w : Option Word}

/-- One clause of a rule against the same clause of the model's function, whose value is `w`. -/
theorem clause (hw : (if d then x else y) = w) (hcond : c ↔ d) (hpos : c → x = w → P) (hneg : ¬ c → y = w → Q) :
    if c then P else Q := by
  by_cases hc : c
  · rw [if_pos hc]; exact hpos hc ((if_pos (hcond.mp hc)).symm.trans hw)
  · rw [if_neg hc]; exact hneg hc ((if_neg (mt hcond.mpr hc)).symm.trans hw)

/-- A NaN result is `NAN_RESULT` (R293). -/
theorem getD_of_none {nan : Word} (hw : none = w) : w.getD nan = nan := hw ▸ rfl

theorem getD_of_some {nan v : Word} (hw : some v = w) : w.getD nan = v := hw ▸ rfl

theorem getD_of_fInf {nan : Word} {s : Bool} (hw : some (fInf s) = w) : w.getD nan = signed s 0x7F800000#31 :=
  (getD_of_some hw).trans (fInf_eq_signed s)

theorem getD_of_fZero {nan : Word} {s : Bool} (hw : some (fZero s) = w) : w.getD nan = signed s 0#31 :=
  (getD_of_some hw).trans (fZero_eq_signed s)

end Clauses

/-- The sum is exact in quanta. -/
theorem valQ_add_valQ (a b : Word) : valQ a + valQ b = ((value a + value b : ℤ) : ℚ) / quanta := by
  rw [valQ_eq_div, valQ_eq_div, ← add_div]; push_cast; rfl

theorem div_quanta_eq_zero_iff {n : ℤ} : (n : ℚ) / quanta = 0 ↔ n = 0 := by
  rw [div_eq_zero_iff, or_iff_left (by exact_mod_cast quanta_pos.ne'), Int.cast_eq_zero]

/-- `fadd` is R299's function. -/
theorem addIs_fadd (nan a b : Word) : AddIs nan a b ((fadd a b).getD nan) := by
  have hzero : valQ a + valQ b = 0 ↔ value a + value b = 0 := by rw [valQ_add_valQ, div_quanta_eq_zero_iff]
  generalize hw : fadd a b = w
  refine clause hw (by simp) (fun _ => getD_of_none) fun _ hw =>
    clause hw (by simp [fSign, and_assoc]) (fun _ => getD_of_none) fun _ hw =>
    clause hw Iff.rfl (fun _ => getD_of_some) fun _ hw =>
    clause hw Iff.rfl (fun _ => getD_of_some) fun _ hw =>
    clause hw (by simp [fSign, and_assoc]) (fun _ => getD_of_some) fun _ hw =>
    clause hw (by simp) (fun _ => getD_of_some) fun _ hw =>
    clause hw hzero (fun _ => getD_of_some) fun hsum hw => ?_
  rw [getD_of_some hw]
  exact roundsTo_roundInt_of_eq (mt hzero.mpr hsum) one_pos (by rw [valQ_add_valQ, Nat.cast_one, div_one])

/-- `fsub` is R300's function: `fadd` of the negated operand after the NaN clause. -/
theorem subIs_fsub (nan a b : Word) : if isNaN a ∨ isNaN b then (fsub a b).getD nan = nan
    else AddIs nan a (negated b) ((fsub a b).getD nan) := by
  generalize hw : fsub a b = w
  exact clause hw (by simp) (fun _ => getD_of_none) fun _ hw => hw ▸ addIs_fadd nan a (fNeg b)

/-- Settles O49: `fadd` clause by clause; the sum of two whole numbers of quanta is rounded once (`roundsTo_roundInt`). -/
theorem floatAddSubtract : Obligations.FloatAddSubtract := by
  rintro s rd rs1 rs2 rm a b rfl rfl
  exact ⟨completesF_of_finishF s rfl (addIs_fadd _ _ _) rfl, completesF_of_finishF s rfl (subIs_fsub _ _ _) rfl⟩

/-- `fmul` is R301's function. -/
theorem mulIs_fmul (nan a b : Word) : MulIs nan a b ((fmul a b).getD nan) := by
  generalize hw : fmul a b = w
  refine clause hw (by simp) (fun _ => getD_of_none) fun _ hw =>
    clause hw (by simp) (fun _ => getD_of_none) fun _ hw =>
    clause hw (by simp) (fun _ => getD_of_fInf) fun _ hw =>
    clause hw (by simp) (fun _ => getD_of_fZero) fun hzero hw => ?_
  rw [not_or, ← value_eq_zero_iff, ← value_eq_zero_iff] at hzero
  obtain ⟨ha, hb⟩ := hzero
  rw [getD_of_some hw]
  refine roundsTo_roundInt_of_eq (mul_ne_zero ha hb) quanta_pos ?_
  rw [valQ_eq_div, valQ_eq_div]; push_cast; ring

theorem valQ_neg_iff {v : Word} (hv : ¬ isZero v = true) : valQ v < 0 ↔ fSign v = true := by
  have hq : (0 : ℚ) < quanta := by exact_mod_cast quanta_pos
  rw [valQ_eq_div, div_lt_iff₀ hq, zero_mul, Int.cast_lt_zero, value_neg_iff (Bool.not_eq_true _ ▸ hv)]

theorem valQ_eq_zero_iff {v : Word} : valQ v = 0 ↔ isZero v = true := by
  rw [valQ_eq_div, div_quanta_eq_zero_iff, value_eq_zero_iff]

theorem valQ_pos_iff {v : Word} (hv : ¬ isZero v = true) : 0 < valQ v ↔ fSign v = false := by
  rw [← Bool.not_eq_true, ← valQ_neg_iff hv, not_lt, le_iff_lt_or_eq, eq_comm, valQ_eq_zero_iff, or_iff_left hv]

theorem magnitude_pos {v : Word} (hv : ¬ isZero v = true) : 0 < magnitude v :=
  Nat.pos_of_ne_zero fun h => hv (magnitude_eq_zero_iff.mp h)

/-- The sign of a quotient is known from the two signs. -/
theorem valQ_div_neg_iff {a b : Word} (ha : ¬ isZero a = true) (hb : ¬ isZero b = true) :
    valQ a / valQ b < 0 ↔ (fSign a != fSign b) = true := by
  rw [div_neg_iff, valQ_pos_iff ha, valQ_pos_iff hb, valQ_neg_iff ha, valQ_neg_iff hb]
  cases fSign a <;> cases fSign b <;> decide

/-- `fdiv` is R302's function. -/
theorem divIs_fdiv (nan a b : Word) : DivIs nan a b ((fdiv a b).getD nan) := by
  generalize hw : fdiv a b = w
  refine clause hw (by simp) (fun _ => getD_of_none) fun _ hw =>
    clause hw (by simp) (fun _ => getD_of_none) fun _ hw =>
    clause hw Iff.rfl (fun _ => getD_of_fInf) fun _ hw =>
    clause hw Iff.rfl (fun _ => getD_of_fZero) fun _ hw =>
    clause hw Iff.rfl (fun _ => getD_of_fInf) fun hb hw =>
    clause hw Iff.rfl (fun _ => getD_of_fZero) fun ha hw => ?_
  rw [getD_of_some hw]
  refine roundsTo_roundQuotient (Nat.mul_pos (magnitude_pos ha) quanta_pos) (magnitude_pos hb) ?sign ?size
  case sign => rw [← valQ_div_neg_iff ha hb, Rat.cast_lt_zero]
  case size =>
    have hone : (quanta : ℝ) * (2 : ℝ) ^ (-149 : ℤ) = 1 := quanta_mul_zpow
    rw [← Rat.cast_abs, abs_div, abs_valQ, abs_valQ, mul_div_mul_right _ _ (by positivity), Nat.cast_mul,
      mul_div_right_comm, mul_assoc, hone, mul_one]
    push_cast
    rfl

/-- Settles O50: `fmul` and `fdiv` clause by clause; the exact product and quotient are rounded once. -/
theorem floatMultiplyDivide : Obligations.FloatMultiplyDivide := by
  rintro s rd rs1 rs2 rm a b rfl rfl
  exact ⟨completesF_of_finishF s rfl (mulIs_fmul _ _ _) rfl, completesF_of_finishF s rfl (divIs_fdiv _ _ _) rfl⟩

/-- `fsqrt` is R303's function. -/
theorem sqrtIs_fsqrt (nan a : Word) : SqrtIs nan a ((fsqrt a).getD nan) := by
  generalize hw : fsqrt a = w
  refine clause hw Iff.rfl (fun _ => getD_of_none) fun _ hw =>
    clause hw Iff.rfl (fun _ => getD_of_some) fun hzero hw =>
    clause hw Iff.rfl (fun _ => getD_of_none) fun hsign hw =>
    clause hw Iff.rfl (fun _ => getD_of_some) fun _ hw => ?_
  have hpos : 0 < valQ a := (valQ_pos_iff hzero).mpr (Bool.not_eq_true _ ▸ hsign)
  rw [getD_of_some hw]
  refine roundsTo_roundSqrt (magnitude_pos hzero) ?_
  rw [← abs_of_pos hpos, abs_valQ]
  push_cast
  rfl

/-- Settles O51: `fsqrt` clause by clause; the root of the quanta is rounded once. -/
theorem floatSquareRoot : Obligations.FloatSquareRoot := by
  rintro s rd rs1 rm a rfl
  exact completesF_of_finishF s rfl (sqrtIs_fsqrt _ _) rfl

/-- The product and the addend meet in quanta of a quantum. -/
theorem valQ_mul_add (a b c : Word) :
    valQ a * valQ b + valQ c = ((value a * value b + value c * quanta : ℤ) : ℚ) / quanta / quanta := by
  have hq : (quanta : ℚ) ≠ 0 := by exact_mod_cast quanta_pos.ne'
  rw [valQ_eq_div, valQ_eq_div, valQ_eq_div]
  push_cast
  field_simp

/-- `fma` is R319's function. -/
theorem fmaIs_fma (nan a b c : Word) : FmaIs nan a b c ((fma a b c).getD nan) := by
  have hq : (quanta : ℚ) ≠ 0 := by exact_mod_cast quanta_pos.ne'
  have hzero : valQ a * valQ b + valQ c = 0 ↔ value a * value b + value c * quanta = 0 := by
    rw [valQ_mul_add, div_eq_zero_iff, or_iff_left hq, div_quanta_eq_zero_iff]
  generalize hw : fma a b c = w
  refine clause hw (by simp [or_assoc]) (fun _ => getD_of_none) fun _ hw =>
    clause hw (by simp) (fun _ => getD_of_none) fun _ hw =>
    clause hw (by simp [fSign, and_assoc]) (fun _ => getD_of_none) fun _ hw =>
    clause hw (by simp) (fun _ => getD_of_fInf) fun _ hw =>
    clause hw Iff.rfl (fun _ => getD_of_some) fun _ hw =>
    clause hw (by simp [fSign, and_assoc]) (fun _ => getD_of_some) fun _ hw =>
    clause hw (by simp) (fun _ => getD_of_some) fun _ hw =>
    clause hw (by simp) (fun _ => getD_of_some) fun _ hw =>
    clause hw hzero (fun _ => getD_of_some) fun hsum hw => ?_
  rw [getD_of_some hw]
  exact roundsTo_roundInt_of_eq (mt hzero.mpr hsum) quanta_pos (valQ_mul_add a b c)

/-- The three other functions negate operands first, after the NaN clause (R320 to R322). -/
theorem fmaIs_of_negated {r : Option Word} (nan a b c a' c' : Word)
    (hr : (if isNaN a || isNaN b || isNaN c then none else fma a' b c') = r) :
    if isNaN a ∨ isNaN b ∨ isNaN c then r.getD nan = nan else FmaIs nan a' b c' (r.getD nan) :=
  clause hr (by simp [or_assoc]) (fun _ => getD_of_none) fun _ hw => hw ▸ fmaIs_fma nan a' b c'

/-- Settles O52: `fma` clause by clause; the exact sum of product and addend is rounded once. -/
theorem floatFused : Obligations.FloatFused := by
  rintro s rd rs1 rs2 rs3 rm a b c rfl rfl rfl
  exact ⟨completesF_of_finishF s rfl (fmaIs_fma _ _ _ _) rfl,
    completesF_of_finishF s rfl (fmaIs_of_negated _ _ _ _ _ _ rfl) rfl,
    completesF_of_finishF s rfl (fmaIs_of_negated _ _ _ _ _ _ rfl) rfl,
    completesF_of_finishF s rfl (fmaIs_of_negated _ _ _ _ _ _ rfl) rfl⟩

end Sys2Proof.Machine

namespace Sys2Proof.Machine

/-! ## Order (R307, R308, R312 to R314) -/

/-- A finite value is below 2^128 in magnitude (R290). -/
theorem magnitude_lt {v : Word} (hexp : fExp v ≠ 255) : magnitude v < 2 ^ 277 := by
  have hfrac : fFrac v < 2 ^ 23 := (v.extractLsb' 0 23).isLt
  have hlt : fExp v < 256 := (v.extractLsb' 23 8).isLt
  unfold magnitude
  split_ifs with h0
  · exact hfrac.trans (Nat.pow_lt_pow_right (by decide) (by decide))
  · calc (2 ^ 23 + fFrac v) * 2 ^ (fExp v - 1) < 2 ^ 24 * 2 ^ (fExp v - 1) :=
          Nat.mul_lt_mul_of_pos_right (by omega) (by positivity)
      _ ≤ 2 ^ 24 * 2 ^ 253 := Nat.mul_le_mul_left _ (Nat.pow_le_pow_right (by decide) (by omega))
      _ = 2 ^ 277 := (pow_add 2 24 253).symm

theorem fExp_ne_of_finite {v : Word} (hnan : ¬ isNaN v = true) (hinf : ¬ isInf v = true) : fExp v ≠ 255 := by
  intro h
  simp only [isNaN, isInf, h, true_and, decide_eq_true_eq, ne_eq, not_not] at hnan hinf
  exact hinf hnan

/-- The key of a finite value lies between those of the infinities. -/
theorem orderKey_finite {v : Word} (hnan : ¬ isNaN v = true) (hinf : ¬ isInf v = true) :
    orderKey v = value v ∧ -2 ^ 277 < value v ∧ value v < 2 ^ 277 := by
  have hlt : ((value v).natAbs : ℤ) < 2 ^ 277 := by
    rw [natAbs_value]; exact_mod_cast magnitude_lt (fExp_ne_of_finite hnan hinf)
  refine ⟨if_neg hinf, ?_, ?_⟩ <;> omega

theorem orderKey_inf {v : Word} (hinf : isInf v = true) : orderKey v = if fSign v then -(2 ^ 277 : ℤ) else 2 ^ 277 :=
  if_pos hinf

theorem valQ_lt_valQ_iff {a b : Word} : valQ a < valQ b ↔ value a < value b := by
  have hq : (0 : ℚ) < quanta := by exact_mod_cast quanta_pos
  rw [valQ_eq_div, valQ_eq_div, div_lt_div_iff_of_pos_right hq, Int.cast_lt]

/-- The keys are ordered as the extended reals are. -/
theorem orderKey_lt_iff {a b : Word} (ha : ¬ isNaN a = true) (hb : ¬ isNaN b = true) :
    orderKey a < orderKey b ↔ Below a b := by
  have hpow : (0 : ℤ) < 2 ^ 277 := by positivity
  have hfinite := fun {v : Word} => @orderKey_finite v
  have hinf := fun {v : Word} => @orderKey_inf v
  have hsign : ∀ v : Word, v.getLsbD 31 = fSign v := fun _ => rfl
  simp only [Below, hsign, valQ_lt_valQ_iff]
  generalize (2 : ℤ) ^ 277 = top at *
  by_cases hia : isInf a = true <;> by_cases hib : isInf b = true
  · simp only [hinf hia, hinf hib, hia, hib, and_self, if_true]
    cases fSign a <;> cases fSign b <;> simp <;> omega
  · obtain ⟨hkey, hlow, hhigh⟩ := hfinite hb hib
    simp only [hinf hia, hkey, hia, hib, if_true, Bool.false_eq_true, and_false, if_false]
    cases fSign a <;> simp <;> omega
  · obtain ⟨hkey, hlow, hhigh⟩ := hfinite ha hia
    simp only [hinf hib, hkey, hia, hib, if_true, Bool.false_eq_true, false_and, if_false]
    cases fSign b <;> simp <;> omega
  · simp only [hfinite ha hia, hfinite hb hib, hia, hib, Bool.false_eq_true, false_and, if_false]

theorem flt_iff {a b : Word} (ha : ¬ isNaN a = true) (hb : ¬ isNaN b = true) : flt a b = true ↔ Below a b := by
  simp [flt, ha, hb, orderKey_lt_iff]

theorem fle_iff {a b : Word} (ha : ¬ isNaN a = true) (hb : ¬ isNaN b = true) : fle a b = true ↔ ¬ Below b a := by
  simp [fle, ha, hb, ← orderKey_lt_iff]

theorem feq_iff {a b : Word} (ha : ¬ isNaN a = true) (hb : ¬ isNaN b = true) :
    feq a b = true ↔ ¬ Below a b ∧ ¬ Below b a := by
  rw [← orderKey_lt_iff ha hb, ← orderKey_lt_iff hb ha]
  simp [feq, ha, hb]
  omega

theorem boolWord_eq_one_iff {b : Bool} : boolWord b = 1#32 ↔ b = true := by cases b <;> decide

theorem boolWord_zero_or_one (b : Bool) : boolWord b = 0#32 ∨ boolWord b = 1#32 := by cases b <;> decide

/-- Every comparison with a NaN is false (R312 to R314). -/
theorem compares_of_nan {a b : Word} (h : isNaN a = true ∨ isNaN b = true) :
    feq a b = false ∧ flt a b = false ∧ fle a b = false := by
  rcases h with h | h <;> simp [feq, flt, fle, h]

/-- Settles O55: the keys compared are ordered as the extended reals (`orderKey_lt_iff`). -/
theorem floatCompares : Obligations.FloatCompares := by
  rintro s rd rs1 rs2 a b rfl rfl
  refine ⟨_, _, _, completesX_of_finishX s rfl rfl, completesX_of_finishX s rfl rfl, completesX_of_finishX s rfl rfl,
    fun hnan => ?nan, fun ha hb => ?order, boolWord_zero_or_one _, boolWord_zero_or_one _, boolWord_zero_or_one _⟩
  case nan =>
    obtain ⟨heq, hlt, hle⟩ := compares_of_nan hnan
    rw [heq, hlt, hle]
    exact ⟨rfl, rfl, rfl⟩
  case order =>
    rw [boolWord_eq_one_iff, boolWord_eq_one_iff, boolWord_eq_one_iff]
    exact ⟨feq_iff ha hb, flt_iff ha hb, fle_iff ha hb⟩

/-- The shape of R307 and R308: `zero` for the two zeros of opposite sign, then the left operand where `less` holds. -/
def MinMaxIs (nan a b zero w : Word) (less : Prop) : Prop :=
  (isNaN a → isNaN b → w = nan) ∧ (isNaN a → ¬ isNaN b → w = b) ∧ (¬ isNaN a → isNaN b → w = a) ∧
  (¬ isNaN a → ¬ isNaN b →
    (isZero a → isZero b → a.getLsbD 31 ≠ b.getLsbD 31 → w = zero) ∧
    (¬ (isZero a ∧ isZero b ∧ a.getLsbD 31 ≠ b.getLsbD 31) → (less → w = a) ∧ (¬ less → w = b)))

/-- `fmin` and `fmax` are that shape. -/
theorem minMaxIs_of_clauses {nan a b zero : Word} {less : Prop} {lt : Bool} {r : Option Word}
    (hless : ¬ isNaN a = true → ¬ isNaN b = true → (lt = true ↔ less))
    (hr : r = if isNaN a && isNaN b then none else if isNaN a then some b else if isNaN b then some a
      else if isZero a && isZero b && fSign a != fSign b then some zero else if lt then some a else some b) :
    MinMaxIs nan a b zero (r.getD nan) less := by
  have hsign : ∀ v : Word, v.getLsbD 31 = fSign v := fun _ => rfl
  refine ⟨fun ha hb => ?bothNan, fun ha hb => ?leftNan, fun ha hb => ?rightNan, fun ha hb => ⟨fun hza hzb hs => ?zeros,
    fun hzeros => ⟨fun hl => ?left, fun hl => ?right⟩⟩⟩
  case bothNan => simp [hr, ha, hb]
  case leftNan => simp [hr, ha, hb]
  case rightNan => simp [hr, ha, hb]
  case zeros =>
    rw [hsign, hsign] at hs
    simp [hr, ha, hb, hza, hzb, hs]
  all_goals
    rw [← hless ha hb] at hl
    rw [hsign, hsign] at hzeros
    have hcond : ¬ (isZero a && isZero b && fSign a != fSign b) = true := by simpa [and_assoc] using hzeros
    simp [hr, ha, hb, hcond, hl]

/-- Settles O54: both are R307's shape, `flt` deciding the order (`flt_iff`). -/
theorem floatMinMax : Obligations.FloatMinMax := by
  rintro s rd rs1 rs2 a b rfl rfl
  exact ⟨completesF_of_finishF s rfl (minMaxIs_of_clauses (zero := fZero true) (lt := flt _ _) flt_iff rfl) rfl,
    completesF_of_finishF s rfl
      (minMaxIs_of_clauses (zero := fZero false) (lt := flt _ _) (fun ha hb => flt_iff hb ha) rfl) rfl⟩

/-! ## Conversions (R309, R310, R316, R317) -/

/-- Rounding is the same for a number and its opposite. -/
theorem NearestEven.neg {t : ℝ} {n : ℤ} (h : NearestEven t n) : NearestEven (-t) (-n) := by
  obtain ⟨hle, heven⟩ := h
  have habs : |-t - ((-n : ℤ) : ℝ)| = |t - n| := by rw [Int.cast_neg, ← neg_sub', abs_neg]
  exact ⟨habs ▸ hle, fun h => (heven (habs ▸ h)).neg⟩

theorem IsRint.neg {mode : F2IRound} {t : ℝ} {n : ℤ} (h : IsRint mode t n) : IsRint mode (-t) (-n) := by
  cases mode with
  | rne => exact NearestEven.neg h
  | rtz =>
    obtain ⟨hnonneg, hneg⟩ := h
    refine ⟨fun ht => ?_, fun ht => ?_⟩
    · rw [Int.floor_neg]
      rcases (neg_nonneg.mp ht).lt_or_eq with hlt | rfl
      · rw [hneg hlt]
      · rw [hnonneg le_rfl, Int.floor_zero, Int.ceil_zero]
    · rw [Int.ceil_neg, hnonneg (neg_lt_zero.mp ht).le]

/-- The rounding of a magnitude. -/
def rintMagnitude (mode : F2IRound) (m : Nat) : Nat :=
  match mode with
  | .rne => rneDiv m quanta
  | .rtz => m / quanta

theorem rint_eq (mode : F2IRound) (v : Word) :
    rint mode v = if fSign v then -(rintMagnitude mode (magnitude v) : ℤ) else rintMagnitude mode (magnitude v) := by
  cases mode <;> rfl

theorem isRint_rintMagnitude (mode : F2IRound) (m : Nat) : IsRint mode ((m : ℝ) / quanta) (rintMagnitude mode m) := by
  cases mode with
  | rne => exact nearestEven_rneDiv m quanta quanta_pos
  | rtz =>
    refine ⟨fun _ => ?_, fun h => absurd h (not_lt.mpr (by positivity))⟩
    rw [← Int.natCast_floor_eq_floor (by positivity), Nat.floor_div_eq_div]
    rfl

/-- `rint` is the rounding that `F2I_ROUND` names. -/
theorem isRint_rint (mode : F2IRound) (v : Word) : IsRint mode ((valQ v : ℚ) : ℝ) (rint mode v) := by
  have hmag := isRint_rintMagnitude mode (magnitude v)
  have hval : ((valQ v : ℚ) : ℝ) = (value v : ℝ) / quanta := by rw [valQ_eq_div]; push_cast; rfl
  rw [rint_eq, hval, value]
  split_ifs
  case pos => rw [Int.cast_neg, neg_div]; exact hmag.neg
  case neg => exact hmag

/-- `f2i` is R309's function. -/
theorem f2iIs_f2i (mode : F2IRound) (a : Word) : F2iIs mode a (f2i mode a) := by
  rw [F2iIs, f2i]
  by_cases hnan : isNaN a = true
  · rw [if_pos hnan, if_pos hnan]
  · by_cases hinf : isInf a = true
    · rw [if_neg hnan, if_neg hnan, if_pos hinf, if_pos hinf]; rfl
    · rw [if_neg hnan, if_neg hnan, if_neg hinf, if_neg hinf]
      exact ⟨_, isRint_rint mode a, rfl⟩

/-- `f2u` is R310's function. -/
theorem f2uIs_f2u (mode : F2IRound) (a : Word) : F2uIs mode a (f2u mode a) := by
  rw [F2uIs, f2u]
  by_cases hnan : isNaN a = true
  · rw [if_pos hnan, if_pos hnan]
  · by_cases hinf : isInf a = true
    · rw [if_neg hnan, if_neg hnan, if_pos hinf, if_pos hinf]; rfl
    · rw [if_neg hnan, if_neg hnan, if_neg hinf, if_neg hinf]
      exact ⟨_, isRint_rint mode a, rfl⟩

/-- Settles O57: after the special operands, `rint` is the rounding of the value (`isRint_rint`) and the clamps agree. -/
theorem floatToInteger : Obligations.FloatToInteger := by
  rintro s rd rs1 rm a rfl
  exact ⟨⟨_, completesX_of_finishX s rfl rfl, f2iIs_f2i _ _⟩, ⟨_, completesX_of_finishX s rfl rfl, f2uIs_f2u _ _⟩⟩

/-- `roundInt` of a whole number of quanta times `quanta` rounds the number. -/
theorem roundsTo_roundInt_mul_quanta {n : ℤ} (hn : n ≠ 0) : RoundsTo (n : ℝ) (roundInt (n * quanta) 1) := by
  have hq : (quanta : ℚ) ≠ 0 := by exact_mod_cast quanta_pos.ne'
  have hround := roundsTo_roundInt_of_eq (r := (n : ℚ)) (mul_ne_zero hn (Int.natCast_ne_zero.mpr quanta_pos.ne'))
    one_pos (by push_cast; field_simp)
  rwa [Rat.cast_intCast] at hround

/-- Settles O58: both conversions round the integer, as a whole number of quanta, once. -/
theorem integerToFloat : Obligations.IntegerToFloat := by
  rintro s rd rs1 rm v rfl
  refine ⟨completesF_of_finishF s rfl ⟨fun h0 => if_pos h0, fun hv => ?signed⟩ rfl,
    completesF_of_finishF s rfl ⟨fun h0 => if_pos h0, fun hv => ?unsigned⟩ rfl⟩
  case signed =>
    rw [i2f, if_neg hv]
    exact roundsTo_roundInt_mul_quanta fun h => hv (BitVec.eq_of_toInt_eq h)
  case unsigned =>
    rw [u2f, if_neg hv, ← Int.cast_natCast]
    exact roundsTo_roundInt_mul_quanta fun h => hv (BitVec.eq_of_toNat_eq (by exact_mod_cast h))

end Sys2Proof.Machine

namespace Sys2Proof.Machine

/-! ## Rounding as a position among the patterns (R291) -/

/-- Of two numbers the greater rounds to no less. -/
theorem NearestEven.mono {t t' : ℝ} {n n' : ℤ} (h : NearestEven t n) (h' : NearestEven t' n') (hle : t ≤ t') : n ≤ n' := by
  obtain ⟨hnear, heven⟩ := h
  obtain ⟨hnear', heven'⟩ := h'
  by_contra hlt
  have hstep : (n' : ℝ) + 1 ≤ n := by exact_mod_cast not_le.mp hlt
  have hbound := abs_le.mp hnear
  have hbound' := abs_le.mp hnear'
  have htie : |t - n| = 1 / 2 := by rw [abs_of_nonpos (by linarith)]; linarith
  have htie' : |t' - n'| = 1 / 2 := by rw [abs_of_nonneg (by linarith)]; linarith
  have hnext : n = n' + 1 := by
    have : (n : ℝ) = ((n' + 1 : ℤ) : ℝ) := by push_cast; linarith
    exact_mod_cast this
  have hboth := heven htie
  rw [hnext, Int.even_add_one] at hboth
  exact hboth (heven' htie')

/-- The multiple of the spacing that `num / den` quanta are rounded to. -/
def roundedMultiple (num den : Nat) : Nat := rneDiv num (den * 2 ^ spacing (num / den))

section Quotient

variable {num den : Nat}

theorem nearestEven_roundedMultiple (hd : 0 < den) :
    NearestEven ((num : ℝ) / den / 2 ^ spacing (num / den)) (roundedMultiple num den) := by
  have hne := nearestEven_rneDiv num (den * 2 ^ spacing (num / den)) (by positivity)
  rw [div_div]
  push_cast at hne
  exact hne

/-- The magnitude in units of its spacing has 24 bits before the point, the top one set but for the least spacing. -/
theorem scaled_bounds (hn : 0 < num) (hd : 0 < den) :
    (0 < spacing (num / den) → ((2 ^ 23 : ℕ) : ℝ) ≤ (num : ℝ) / den / 2 ^ spacing (num / den)) ∧
      (num : ℝ) / den / 2 ^ spacing (num / den) ≤ ((2 ^ 24 : ℕ) : ℝ) := by
  have hpos : (0 : ℝ) < (num : ℝ) / den := div_pos (by exact_mod_cast hn) (by exact_mod_cast hd)
  have hfloor : (num : ℝ) / den < ((num / den : ℕ) : ℝ) + 1 := by
    rw [← Nat.floor_div_eq_div (K := ℝ)]; exact Nat.lt_floor_add_one _
  exact (spacing_spec Nat.cast_div_le hfloor hpos).2

theorem roundedMultiple_bounds (hn : 0 < num) (hd : 0 < den) :
    (0 < spacing (num / den) → 2 ^ 23 ≤ roundedMultiple num den) ∧ roundedMultiple num den ≤ 2 ^ 24 := by
  obtain ⟨hlow, hhigh⟩ := scaled_bounds hn hd
  have hne := nearestEven_roundedMultiple (num := num) hd
  exact ⟨fun hk => (nearestEven_bounds hne (hlow hk) hhigh).1,
    (nearestEven_bounds (lo := 0) hne (by simpa using by positivity) hhigh).2⟩

/-- The place of the rounded value among the patterns without a sign, which stand in the order of their values. -/
def roundedPlace (num den : Nat) : Nat := spacing (num / den) * 2 ^ 23 + roundedMultiple num den

theorem toNat_pack (s : Bool) {e f : Nat} (he : e < 256) (hf : f < 2 ^ 23) :
    (pack s e f).toNat = s.toNat * 2 ^ 31 + (e * 2 ^ 23 + f) := by
  rw [pack, BitVec.toNat_append, BitVec.toNat_append, ← Nat.shiftLeft_add_eq_or_of_lt (BitVec.isLt _),
    ← Nat.shiftLeft_add_eq_or_of_lt (BitVec.isLt _), Nat.shiftLeft_eq, Nat.shiftLeft_eq, BitVec.toNat_ofBool,
    BitVec.toNat_ofNat, BitVec.toNat_ofNat, Nat.mod_eq_of_lt he, Nat.mod_eq_of_lt hf]
  ring

/-- A multiple of the spacing reaches 2^128 exactly when its place is the infinity's. -/
theorem overflow_iff_place {k n : Nat} (hlow : 0 < k → 2 ^ 23 ≤ n) (hhigh : n ≤ 2 ^ 24) :
    2 ^ (128 + 149) ≤ n * 2 ^ k ↔ 255 * 2 ^ 23 ≤ k * 2 ^ 23 + n := by
  have hsplit : (2 : ℕ) ^ (128 + 149) = 2 ^ 23 * 2 ^ 254 ∧ (2 : ℕ) ^ (128 + 149) = 2 ^ 24 * 2 ^ 253 :=
    ⟨(pow_add 2 23 254).symm, (pow_add 2 24 253).symm⟩
  constructor
  · intro hle
    by_contra hplace
    rcases Nat.lt_or_eq_of_le hhigh with hlt | rfl
    case inl =>
      have hpow : 2 ^ k ≤ 2 ^ 253 := Nat.pow_le_pow_right two_pos (by omega)
      have hless : n * 2 ^ k < 2 ^ 24 * 2 ^ 253 := Nat.mul_lt_mul_of_lt_of_le hlt hpow (by positivity)
      exact absurd hle (by rw [hsplit.2]; exact not_le.mpr hless)
    case inr =>
      have hpow : 2 ^ k < 2 ^ 253 := Nat.pow_lt_pow_right one_lt_two (by omega)
      have hless : 2 ^ 24 * 2 ^ k < 2 ^ 24 * 2 ^ 253 := Nat.mul_lt_mul_of_pos_left hpow (by positivity)
      exact absurd hle (by rw [hsplit.2]; exact not_le.mpr hless)
  · intro hplace
    rcases Nat.lt_or_ge k 254 with hk | hk
    case inl =>
      obtain rfl : n = 2 ^ 24 := by omega
      exact hsplit.2 ▸ Nat.mul_le_mul_left _ (Nat.pow_le_pow_right two_pos (by omega))
    case inr => exact hsplit.1 ▸ Nat.mul_le_mul (hlow (by omega)) (Nat.pow_le_pow_right two_pos hk)

/-- The pattern at the end of `round_f32` is its place, an infinity being the last. -/
theorem toNat_assemble (neg : Bool) {k n : Nat} (hlow : 0 < k → 2 ^ 23 ≤ n) (hhigh : n ≤ 2 ^ 24) :
    (assemble neg k n).toNat = neg.toNat * 2 ^ 31 + min (k * 2 ^ 23 + n) (255 * 2 ^ 23) := by
  have hover := overflow_iff_place hlow hhigh
  rw [assemble]
  split_ifs with h1 h2 h3 h4
  case pos => rw [fInf, toNat_pack neg (by decide) (by decide), min_eq_right (hover.mp h1), Nat.add_zero]
  all_goals rw [hover] at h1
  case pos => rw [fZero, toNat_pack neg (by decide) (by decide)]; omega
  case pos => rw [toNat_pack neg (by decide) h3]; omega
  case pos => rw [toNat_pack neg (by omega) (by omega)]; omega
  case neg => rw [toNat_pack neg (by omega) (by decide)]; omega

theorem fSign_assemble (neg : Bool) (k n : Nat) : fSign (assemble neg k n) = neg := by
  rw [assemble]
  split_ifs <;> exact fSign_pack neg _ _

theorem fSign_roundQuotient (neg : Bool) (num den : Nat) : fSign (roundQuotient neg num den) = neg := by
  rw [roundQuotient, fSign_assemble]

theorem toNat_roundQuotient (neg : Bool) (hn : 0 < num) (hd : 0 < den) :
    (roundQuotient neg num den).toNat = neg.toNat * 2 ^ 31 + min (roundedPlace num den) (255 * 2 ^ 23) := by
  obtain ⟨hlow, hhigh⟩ := roundedMultiple_bounds hn hd
  exact toNat_assemble neg hlow hhigh

theorem isInf_roundQuotient_iff (neg : Bool) (hn : 0 < num) (hd : 0 < den) :
    isInf (roundQuotient neg num den) = true ↔ 255 * 2 ^ 23 ≤ roundedPlace num den := by
  have hplace := toNat_roundQuotient neg hn hd
  rw [isInf, decide_eq_true_iff, fExp_eq, fFrac_eq]
  cases neg <;> simp only [Bool.toNat_false, Bool.toNat_true] at hplace <;> omega

theorem isZero_roundQuotient_iff (neg : Bool) (hn : 0 < num) (hd : 0 < den) :
    isZero (roundQuotient neg num den) = true ↔ roundedPlace num den = 0 := by
  have hplace := toNat_roundQuotient neg hn hd
  rw [isZero_iff, fExp_eq, fFrac_eq]
  cases neg <;> simp only [Bool.toNat_false, Bool.toNat_true] at hplace <;> omega

theorem spacing_of_lt {m : Nat} (hm : m < 2 ^ 24) : spacing m = 0 := by
  rw [spacing]
  rcases Nat.eq_zero_or_pos m with rfl | hpos
  · rfl
  · have := (Nat.log2_lt hpos.ne').mpr hm; omega

theorem spacing_mono {t t' : Nat} (h : t ≤ t') : spacing t ≤ spacing t' := by
  have hlog : Nat.log2 t ≤ Nat.log2 t' := by
    rw [Nat.log2_eq_log_two, Nat.log2_eq_log_two]; exact Nat.log_mono_right h
  unfold spacing; omega

/-- A greater number has no lower place: with the same spacing its multiple is no less, with a greater one it is beyond. -/
theorem roundedPlace_mono {num' den' : Nat} (hn : 0 < num) (hd : 0 < den) (hd' : 0 < den')
    (h : num * den' ≤ num' * den) : roundedPlace num den ≤ roundedPlace num' den' := by
  have hn' : 0 < num' := Nat.pos_of_mul_pos_right (lt_of_lt_of_le (Nat.mul_pos hn hd') h)
  have hreal : (num : ℝ) / den ≤ (num' : ℝ) / den' := by
    rw [div_le_div_iff₀ (by exact_mod_cast hd) (by exact_mod_cast hd')]; exact_mod_cast h
  have hdiv : num / den ≤ num' / den' := by
    rw [← Nat.floor_div_eq_div (K := ℝ), ← Nat.floor_div_eq_div (K := ℝ)]; exact Nat.floor_le_floor hreal
  obtain ⟨_, hhigh⟩ := roundedMultiple_bounds hn hd
  obtain ⟨hlow', _⟩ := roundedMultiple_bounds hn' hd'
  unfold roundedPlace
  rcases (spacing_mono hdiv).lt_or_eq with hlt | heq
  · have := hlow' (by omega)
    omega
  · have hle : (roundedMultiple num den : ℤ) ≤ roundedMultiple num' den' :=
      (nearestEven_roundedMultiple hd).mono (heq ▸ nearestEven_roundedMultiple hd')
        (div_le_div_of_nonneg_right hreal (by positivity))
    omega

/-- The half way point below the last finite power, in units of 2^253 quanta. -/
theorem overflow_threshold (hd : 0 < den) :
    (2 ^ 128 - 2 ^ 103) * 2 ^ 149 * den ≤ num ↔ ((2 : ℝ) ^ 24 - 1 / 2) * 2 ^ 253 ≤ (num : ℝ) / den := by
  have htwice : 2 * ((2 ^ 128 - 2 ^ 103) * 2 ^ 149) = (2 ^ 25 - 1) * 2 ^ 253 := by norm_num
  have hreal : ((2 : ℝ) ^ 24 - 1 / 2) * 2 ^ 253 = (((2 ^ 128 - 2 ^ 103) * 2 ^ 149 : ℕ) : ℝ) := by
    have hcast : (2 : ℝ) * (((2 ^ 128 - 2 ^ 103) * 2 ^ 149 : ℕ) : ℝ) = (2 ^ 25 - 1) * 2 ^ 253 := by
      rw [← Nat.cast_ofNat, ← Nat.cast_mul, htwice]; push_cast; norm_num
    linarith
  rw [hreal, le_div_iff₀ (by exact_mod_cast hd)]
  exact_mod_cast Iff.rfl

/-- The half way point rounds up, to the even multiple. -/
theorem nearestEven_overflow : NearestEven ((2 : ℝ) ^ 24 - 1 / 2) ((2 ^ 24 : ℕ) : ℤ) := by
  constructor
  · rw [abs_of_nonpos] <;> norm_num
  · exact fun _ => by decide

theorem place_infinite_iff (hn : 0 < num) (hd : 0 < den) :
    255 * 2 ^ 23 ≤ roundedPlace num den ↔ (2 ^ 128 - 2 ^ 103) * 2 ^ 149 * den ≤ num := by
  obtain ⟨hlow, hhigh⟩ := scaled_bounds hn hd
  obtain ⟨hlow', hhigh'⟩ := roundedMultiple_bounds hn hd
  have hnear := nearestEven_roundedMultiple (num := num) hd
  rw [overflow_threshold hd, roundedPlace]
  generalize (num : ℝ) / den = t at *
  generalize spacing (num / den) = k at *
  generalize roundedMultiple num den = m at *
  have hpow : (0 : ℝ) < 2 ^ k := by positivity
  rw [div_le_iff₀ hpow] at hhigh
  constructor
  · intro hplace
    rcases Nat.lt_or_ge k 254 with hk | hk
    case inl =>
      obtain rfl : k = 253 := by omega
      obtain rfl : m = 2 ^ 24 := by omega
      have hbound := (abs_le.mp hnear.1).1
      push_cast at hbound
      rw [← le_div_iff₀ hpow]
      linarith
    case inr =>
      have hmore : (2 : ℝ) ^ 254 ≤ 2 ^ k := pow_le_pow_right₀ one_le_two hk
      have hleast := (le_div_iff₀ hpow).mp (hlow (by omega))
      push_cast at hleast
      have : (2 : ℝ) ^ 254 = 2 * 2 ^ 253 := pow_succ' 2 253
      nlinarith
  · intro ht
    have hk : 253 ≤ k := by
      by_contra hk
      have hless : (2 : ℝ) ^ k ≤ 2 ^ 252 := pow_le_pow_right₀ one_le_two (by omega)
      have : (2 : ℝ) ^ 253 = 2 * 2 ^ 252 := pow_succ' 2 252
      push_cast at hhigh
      nlinarith [pow_pos (two_pos : (0 : ℝ) < 2) 252]
    rcases hk.lt_or_eq with hk | rfl
    case inl => have := hlow' (by omega); omega
    case inr =>
      have hm := nearestEven_overflow.mono hnear ((le_div_iff₀ hpow).mpr ht)
      omega

theorem place_zero_iff (hd : 0 < den) : roundedPlace num den = 0 ↔ 2 * num ≤ den := by
  have hd' : (0 : ℝ) < den := by exact_mod_cast hd
  have hnear := nearestEven_roundedMultiple (num := num) hd
  constructor
  · intro hplace
    obtain ⟨hk, hm⟩ : spacing (num / den) = 0 ∧ roundedMultiple num den = 0 := by unfold roundedPlace at hplace; omega
    rw [hk, hm, pow_zero, div_one] at hnear
    have hhalf := (abs_le.mp hnear.1).2
    rw [Nat.cast_zero, Int.cast_zero, sub_zero, div_le_iff₀ hd'] at hhalf
    have : (2 : ℝ) * num ≤ den := by linarith
    exact_mod_cast this
  · intro hle
    have hk : spacing (num / den) = 0 :=
      spacing_of_lt (lt_of_le_of_lt (Nat.div_le_div_right (show num ≤ den by omega)) (by rw [Nat.div_self hd]; decide))
    have hzero : NearestEven (1 / 2) 0 := ⟨by norm_num, fun _ => Even.zero⟩
    rw [hk, pow_zero, div_one] at hnear
    have hm := hnear.mono hzero (by
      rw [div_le_iff₀ hd']; have : (2 : ℝ) * num ≤ den := by exact_mod_cast hle
      linarith)
    rw [roundedPlace, hk]
    omega

end Quotient

/-! ## A representable magnitude is its own rounding -/

/-- An exact quotient is its own rounding. -/
theorem rneDiv_mul (m : Nat) {b : Nat} (hb : 0 < b) : rneDiv (m * b) b = m := by
  rw [rneDiv, Nat.mul_mod_left, Nat.mul_div_cancel _ hb, if_pos (by omega)]

theorem spacing_mul_pow {m : Nat} (k : Nat) (hlow : 2 ^ 23 ≤ m) (hhigh : m < 2 ^ 24) : spacing (m * 2 ^ k) = k := by
  have hpos : m * 2 ^ k ≠ 0 := by positivity
  have hge : 23 + k ≤ Nat.log2 (m * 2 ^ k) := by
    rw [Nat.le_log2 hpos, pow_add]; exact Nat.mul_le_mul_right _ hlow
  have hlt : Nat.log2 (m * 2 ^ k) < 24 + k := by
    rw [Nat.log2_lt hpos, pow_add]; exact Nat.mul_lt_mul_of_pos_right hhigh (by positivity)
  unfold spacing; omega

/-- A value's place is its own pattern. -/
theorem roundedPlace_magnitude (v : Word) : roundedPlace (magnitude v) 1 = fExp v * 2 ^ 23 + fFrac v := by
  have hfrac : fFrac v < 2 ^ 23 := (v.extractLsb' 0 23).isLt
  rw [roundedPlace, roundedMultiple, Nat.div_one, one_mul, magnitude]
  split_ifs with hexp
  · rw [spacing_of_lt (by omega), pow_zero, hexp]
    have hone := rneDiv_mul (fFrac v) one_pos
    rw [Nat.mul_one] at hone
    rw [hone, Nat.zero_mul]
  · rw [spacing_mul_pow _ (by omega) (by omega), rneDiv_mul _ (by positivity)]
    omega

/-- A finite value that is not zero rounds to itself. -/
theorem roundInt_value {v : Word} (hexp : fExp v ≠ 255) (hzero : isZero v = false) : roundInt (value v) 1 = v := by
  have hlt : fExp v < 256 := (v.extractLsb' 23 8).isLt
  have hfrac : fFrac v < 2 ^ 23 := (v.extractLsb' 0 23).isLt
  have hmag : 0 < magnitude v := magnitude_pos (by simp [hzero])
  have hsign : decide (value v < 0) = fSign v := by
    rw [Bool.eq_iff_iff, decide_eq_true_iff, value_neg_iff hzero]
  apply BitVec.eq_of_toNat_eq
  rw [roundInt, hsign, natAbs_value, toNat_roundQuotient _ hmag one_pos, roundedPlace_magnitude, min_eq_left (by omega),
    ← toNat_pack _ hlt hfrac, pack_fields]

theorem toNat_roundQuotient_mono {n d n' d' : Nat} (hn : 0 < n) (hd : 0 < d) (hd' : 0 < d') (h : n * d' ≤ n' * d) :
    (roundQuotient false n d).toNat ≤ (roundQuotient false n' d').toNat := by
  have hn' : 0 < n' := Nat.pos_of_mul_pos_right (lt_of_lt_of_le (Nat.mul_pos hn hd') h)
  rw [toNat_roundQuotient false hn hd, toNat_roundQuotient false hn' hd']
  exact Nat.add_le_add_left (min_le_min_right _ (roundedPlace_mono hn hd hd' h)) _

/-- Settles O60: the place of a rounded value among the patterns is monotone and known at its ends. -/
theorem roundingFacts : Obligations.RoundingFacts := by
  refine ⟨fun v hnan hinf hzero => roundInt_value (fExp_ne_of_finite (by simp [hnan]) (by simp [hinf])) hzero,
    fun n d n' d' hn hd hd' h => toNat_roundQuotient_mono hn hd hd' h,
    fun neg n d hn hd => ⟨?_, ?_, fSign_roundQuotient neg n d⟩⟩
  · rw [isInf_roundQuotient_iff neg hn hd, place_infinite_iff hn hd]
  · rw [isZero_roundQuotient_iff neg hn hd, place_zero_iff hd]

end Sys2Proof.Machine

namespace Sys2Proof

/-! ## The rounding-mode field of the encoder and the decoder (R120) -/

/-- The encoder puts `rm` where `withRm` does. -/
theorem withRm_encR (f7 : BitVec 7) (rs2 rs1 : Reg) (f3 : BitVec 3) (rd : Reg) (slot : BitVec 5) (rm : BitVec 3) :
    withRm (encR f7 rs2 rs1 f3 rd slot) rm = encR f7 rs2 rs1 rm rd slot := by
  unfold withRm encR; ext i hi
  simp only [BitVec.getElem_append, BitVec.getElem_extractLsb', BitVec.getLsbD_append]; grind

theorem withRm_encR4 (rs3 rs2 rs1 : Reg) (f3 : BitVec 3) (rd : Reg) (slot : BitVec 5) (rm : BitVec 3) :
    withRm (encR4 rs3 rs2 rs1 f3 rd slot) rm = encR4 rs3 rs2 rs1 rm rd slot := by
  unfold withRm encR4; ext i hi
  simp only [BitVec.getElem_append, BitVec.getElem_extractLsb', BitVec.getLsbD_append]; grind

theorem withRm_or_three (w : Word) (rm : BitVec 3) : withRm (w ||| 3#32) rm = withRm w rm ||| 3#32 := by
  unfold withRm; ext i hi
  simp only [BitVec.getElem_append, BitVec.getElem_extractLsb', BitVec.getElem_or, BitVec.getLsbD_or]
  interval_cases i <;> simp [BitVec.getLsbD_eq_getElem]

theorem encode_withRm {i j : Instr} {rm : BitVec 3} (h : i.withRm? rm = some j) : encode j = withRm (encode i) rm := by
  cases i <;> cases h
  case fmaddS | fmsubS | fnmsubS | fnmaddS => exact (withRm_encR4 ..).symm
  all_goals exact (withRm_encR ..).symm

namespace Machine

/-- `rm` in the word is `rm` in the instruction, and nothing else. -/
theorem decodeWord_withRm {p : Params} {w : Word} {i j : Instr} {rm : BitVec 3} (hi : decodeWord p w = .instr i)
    (hj : i.withRm? rm = some j) : decodeWord p (withRm w rm) = .instr j := by
  obtain ⟨hw, hp⟩ := decodeWord_eq_instr_iff.mp hi
  have hword : encode j ||| 3#32 = withRm w rm ||| 3#32 := by
    rw [encode_withRm hj, ← withRm_or_three, hw.word, withRm_or_three]
  have hsame : j.wf = true ∧ j.present p = i.present p ∧ (∀ rd rs1 lo, j ≠ .ecall rd rs1 lo) ∧
      ∀ rd rs1 lo, j ≠ .ebreak rd rs1 lo := by
    cases i <;> cases hj <;> exact ⟨rfl, rfl, nofun, nofun⟩
  obtain ⟨hwf, hpres, hecall, hebreak⟩ := hsame
  exact decodeWord_eq_instr_iff.mpr ⟨⟨hwf, hword, fun _ _ _ h => absurd h (hecall _ _ _), fun _ _ _ h => absurd h (hebreak _ _ _)⟩,
    hpres ▸ hp⟩

/-! ## Commutation (R324 (4)) -/

theorem eq_of_isInf {a b : Word} (ha : isInf a = true) (hb : isInf b = true) (hs : fSign a = fSign b) : a = b := by
  obtain ⟨hea, hfa⟩ := of_decide_eq_true ha
  obtain ⟨heb, hfb⟩ := of_decide_eq_true hb
  rw [← pack_fields a, ← pack_fields b, hea, hfa, heb, hfb, hs]

theorem eq_of_isZero {a b : Word} (ha : isZero a = true) (hb : isZero b = true) (hs : fSign a = fSign b) : a = b := by
  obtain ⟨hea, hfa⟩ := isZero_iff.mp ha
  obtain ⟨heb, hfb⟩ := isZero_iff.mp hb
  rw [← pack_fields a, ← pack_fields b, hea, hfa, heb, hfb, hs]

theorem fadd_comm (a b : Word) : fadd a b = fadd b a := by
  rcases eq_or_ne a b with rfl | hab
  · rfl
  have hinf : isInf a = true → isInf b = true → fSign a ≠ fSign b := fun ha hb => mt (eq_of_isInf ha hb) hab
  have hzero : isZero a = true → isZero b = true → fSign a ≠ fSign b := fun ha hb => mt (eq_of_isZero ha hb) hab
  unfold fadd
  rw [Bool.or_comm (isNaN b), add_comm (value b)]
  by_cases ha : isInf a = true <;> by_cases hb : isInf b = true
  · simp [ha, hb, hinf ha hb, (hinf ha hb).symm]
  · simp [ha, hb]
  · simp [ha, hb]
  · by_cases hza : isZero a = true <;> by_cases hzb : isZero b = true
    · simp [ha, hb, hza, hzb, hzero hza hzb, (hzero hza hzb).symm]
    all_goals simp [ha, hb, hza, hzb]

theorem fmul_comm (a b : Word) : fmul a b = fmul b a := by
  unfold fmul
  rw [Bool.or_comm (isNaN a), Bool.or_comm (isInf a && isZero b), Bool.and_comm (isInf a), Bool.and_comm (isZero a),
    Bool.or_comm (isInf a), Bool.or_comm (isZero a), bne_comm, mul_comm (value a)]

/-- R324 (4). -/
theorem lawCommutes : LawCommutes := by
  refine ⟨fun a b => ⟨fadd_comm a b, fmul_comm a b⟩, fun s sign payload rd a b rm hrule => ⟨?_, ?_⟩⟩
  · simp only [exec, execFaddS, State.finishArith, hrule, nanResult, fadd_comm (s.readF a)]
  · simp only [exec, execFmulS, State.finishArith, hrule, nanResult, fmul_comm (s.readF a)]

/-! ## NaN results (R324 (5)) -/

/-- A rounded number is not a NaN. -/
theorem isNaN_of_roundsTo {r : ℝ} {w : Word} (hr : r ≠ 0) (h : RoundsTo r w) : isNaN w = false := by
  obtain ⟨e, n, _, _, hover, hzero, hfinite⟩ := h
  by_cases hle : (2 : ℝ) ^ (128 : ℤ) ≤ n * (2 : ℝ) ^ (e - 23)
  · rcases lt_or_gt_of_ne hr with hr | hr
    · rw [(hover hle).1 hr]; rfl
    · rw [(hover hle).2 hr]; rfl
  by_cases hn : n = 0
  · rcases lt_or_gt_of_ne hr with hr | hr
    · rw [(hzero hn).1 hr]; rfl
    · rw [(hzero hn).2 hr]; rfl
  obtain ⟨hexp, _⟩ := hfinite hn (not_le.mp hle)
  exact decide_eq_false fun h => hexp h.1

theorem isNaN_roundQuotient (neg : Bool) {num den : Nat} (hn : 0 < num) (hd : 0 < den) :
    isNaN (roundQuotient neg num den) = false := by
  have hplace := toNat_roundQuotient neg hn hd
  rw [isNaN, decide_eq_false_iff_not, fExp_eq, fFrac_eq]
  cases neg <;> simp only [Bool.toNat_false, Bool.toNat_true] at hplace <;> omega

theorem isNaN_roundInt {num : ℤ} {den : Nat} (hn : num ≠ 0) (hd : 0 < den) : isNaN (roundInt num den) = false :=
  isNaN_roundQuotient _ (Int.natAbs_pos.mpr hn) hd

theorem isNaN_roundSqrt {m : Nat} (hm : 0 < m) : isNaN (roundSqrt m) = false := by
  have hpos : (0 : ℝ) < (m : ℝ) * (2 : ℝ) ^ (-149 : ℤ) := mul_pos (by exact_mod_cast hm) (by positivity)
  exact isNaN_of_roundsTo (Real.sqrt_pos.mpr hpos).ne' (roundsTo_roundSqrt hm rfl)

theorem isNaN_fInf (s : Bool) : isNaN (fInf s) = false := by cases s <;> rfl

theorem isNaN_fZero (s : Bool) : isNaN (fZero s) = false := by cases s <;> rfl

/-- A result that is there is not a NaN. -/
def NotNaN (r : Option Word) : Prop := ∀ w, r = some w → isNaN w = false

theorem notNaN_none : NotNaN none := nofun

theorem notNaN_some {v : Word} (hv : isNaN v = false) : NotNaN (some v) := fun _ h => Option.some.inj h ▸ hv

theorem notNaN_ite {c : Prop} [Decidable c] {x y : Option Word} (hpos : c → NotNaN x) (hneg : ¬ c → NotNaN y) :
    NotNaN (if c then x else y) := by
  split_ifs with hc
  · exact hpos hc
  · exact hneg hc

theorem notNaN_none_ite {c : Prop} [Decidable c] {y : Option Word} (hneg : ¬ c → NotNaN y) :
    NotNaN (if c then none else y) := notNaN_ite (fun _ => notNaN_none) hneg

/-- The operands after a NaN clause. -/
theorem operands_of_not_nan {x y : Bool} (h : ¬ (x || y) = true) : x = false ∧ y = false :=
  Bool.or_eq_false_iff.mp (Bool.not_eq_true _ ▸ h)

theorem notNaN_fadd (a b : Word) : NotNaN (fadd a b) :=
  notNaN_none_ite fun hnan => notNaN_none_ite fun _ =>
    have ⟨ha, hb⟩ := operands_of_not_nan hnan
    notNaN_ite (fun _ => notNaN_some ha) fun _ => notNaN_ite (fun _ => notNaN_some hb) fun _ =>
    notNaN_ite (fun _ => notNaN_some ha) fun _ => notNaN_ite (fun _ => notNaN_some (isNaN_fZero _)) fun _ =>
    notNaN_ite (fun _ => notNaN_some (isNaN_fZero _)) fun hsum => notNaN_some (isNaN_roundInt hsum one_pos)

theorem notNaN_fmul (a b : Word) : NotNaN (fmul a b) :=
  notNaN_none_ite fun _ => notNaN_none_ite fun _ => notNaN_ite (fun _ => notNaN_some (isNaN_fInf _)) fun _ =>
    notNaN_ite (fun _ => notNaN_some (isNaN_fZero _)) fun hzero => by
      rw [Bool.or_eq_true, not_or, ← value_eq_zero_iff, ← value_eq_zero_iff] at hzero
      exact notNaN_some (isNaN_roundInt (mul_ne_zero hzero.1 hzero.2) quanta_pos)

theorem notNaN_fdiv (a b : Word) : NotNaN (fdiv a b) :=
  notNaN_none_ite fun _ => notNaN_none_ite fun _ => notNaN_ite (fun _ => notNaN_some (isNaN_fInf _)) fun _ =>
    notNaN_ite (fun _ => notNaN_some (isNaN_fZero _)) fun _ => notNaN_ite (fun _ => notNaN_some (isNaN_fInf _)) fun hb =>
    notNaN_ite (fun _ => notNaN_some (isNaN_fZero _)) fun ha =>
    notNaN_some (isNaN_roundQuotient _ (Nat.mul_pos (magnitude_pos ha) quanta_pos) (magnitude_pos hb))

theorem notNaN_fsqrt (a : Word) : NotNaN (fsqrt a) :=
  notNaN_none_ite fun hnan => notNaN_ite (fun _ => notNaN_some (Bool.not_eq_true _ ▸ hnan)) fun hzero =>
    notNaN_none_ite fun _ => notNaN_ite (fun _ => notNaN_some (isNaN_fInf _)) fun _ =>
    notNaN_some (isNaN_roundSqrt (magnitude_pos hzero))

theorem notNaN_fma (a b c : Word) : NotNaN (fma a b c) :=
  notNaN_none_ite fun hnan => notNaN_none_ite fun _ => notNaN_none_ite fun _ =>
    have ⟨_, hc⟩ := operands_of_not_nan hnan
    notNaN_ite (fun _ => notNaN_some (isNaN_fInf _)) fun _ => notNaN_ite (fun _ => notNaN_some hc) fun _ =>
    notNaN_ite (fun _ => notNaN_some hc) fun _ => notNaN_ite (fun _ => notNaN_some (isNaN_fZero _)) fun _ =>
    notNaN_ite (fun _ => notNaN_some hc) fun _ => notNaN_ite (fun _ => notNaN_some (isNaN_fZero _)) fun hsum =>
    notNaN_some (isNaN_roundInt hsum quanta_pos)

/-- The shape of `fmin` and `fmax`. -/
theorem notNaN_select {a b : Word} {zero less : Prop} [Decidable zero] [Decidable less] {s : Bool} :
    NotNaN (if (isNaN a && isNaN b) = true then none else if isNaN a = true then some b else if isNaN b = true then some a
      else if zero then some (fZero s) else if less then some a else some b) := by
  refine notNaN_none_ite fun hboth => notNaN_ite (fun ha => notNaN_some ?_) fun ha =>
    notNaN_ite (fun _ => notNaN_some ?_) fun hb => notNaN_ite (fun _ => notNaN_some (isNaN_fZero _)) fun _ =>
    notNaN_ite (fun _ => notNaN_some ?_) fun _ => notNaN_some ?_
  · simpa [ha] using hboth
  · exact Bool.not_eq_true _ ▸ ha
  · exact Bool.not_eq_true _ ▸ ha
  · exact Bool.not_eq_true _ ▸ hb

theorem notNaN_arithResults (a b c : Word) : ∀ r ∈ arithResults a b c, NotNaN r := by
  simp only [arithResults, List.forall_mem_cons, List.not_mem_nil, false_imp_iff, implies_true, and_true]
  exact ⟨notNaN_fadd a b, notNaN_none_ite fun _ => notNaN_fadd a _, notNaN_fmul a b, notNaN_fdiv a b, notNaN_fsqrt a,
    notNaN_fma a b c, notNaN_none_ite fun _ => notNaN_fma _ _ _, notNaN_none_ite fun _ => notNaN_fma _ _ _,
    notNaN_none_ite fun _ => notNaN_fma _ _ _, notNaN_select, notNaN_select⟩

/-- A signalling NaN is a NaN. -/
theorem fclass_ne_of_not_nan {v : Word} (hv : isNaN v = false) : fclass v ≠ 0x100#32 := by
  rw [fclass_eq_two_pow, classBit]
  by_cases hexp : fExp v = 255
  · have hfrac : fFrac v = 0 := by_contra fun h => of_decide_eq_false hv ⟨hexp, h⟩
    rw [if_pos hexp, if_pos hfrac]
    split_ifs <;> decide
  · rw [if_neg hexp]
    split_ifs <;> decide

/-- `NAN_RESULT` is quiet, whatever the parameter. -/
theorem fclass_quiet (sign : BitVec 1) (payload : BitVec 22) : fclass (sign ++ 0xFF#8 ++ 1#1 ++ payload) = 0x200#32 := by
  have hfield : (sign ++ 0xFF#8 ++ 1#1 ++ payload).extractLsb' 23 8 = 255#8 := by
    ext i hi; simp only [BitVec.getElem_extractLsb', BitVec.getLsbD_append]; grind
  have hexp : fExp (sign ++ 0xFF#8 ++ 1#1 ++ payload) = 255 := expField_eq_iff.mp hfield
  have hbit : (sign ++ 0xFF#8 ++ 1#1 ++ payload).getLsbD 22 = true := by
    simp only [BitVec.getLsbD_append]; simp
  have hfrac : fFrac (sign ++ 0xFF#8 ++ 1#1 ++ payload) ≠ 0 := fun h => by
    rw [bit22_of_fFrac_eq_zero h] at hbit; exact Bool.noConfusion hbit
  rw [fclass_eq_two_pow, classBit, if_pos hexp, if_neg hfrac, if_pos hbit]
  rfl

theorem fclass_nanResult (rule : NanRule) (op : FOp) (a b c : Word) : fclass (nanResult rule op a b c) = 0x200#32 := by
  cases rule <;> exact fclass_quiet _ _

theorem isNaN_i2f (v : Word) : isNaN (i2f v) = false := by
  rw [i2f]
  split_ifs with hv
  · exact isNaN_fZero _
  · exact isNaN_roundInt (mul_ne_zero (fun h => hv (BitVec.eq_of_toInt_eq h)) (Int.natCast_ne_zero.mpr quanta_pos.ne')) one_pos

theorem isNaN_u2f (v : Word) : isNaN (u2f v) = false := by
  rw [u2f]
  split_ifs with hv
  · exact isNaN_fZero _
  · exact isNaN_roundInt (mul_ne_zero (fun h => hv (BitVec.eq_of_toNat_eq (by exact_mod_cast h)))
      (Int.natCast_ne_zero.mpr quanta_pos.ne')) one_pos

/-- R324 (5). -/
theorem lawNoSignallingNan : LawNoSignallingNan := by
  intro rule op a b c
  refine ⟨fclass_nanResult rule op a b c, fun r hr => ⟨notNaN_arithResults a b c r hr, ?_⟩, isNaN_i2f a, isNaN_u2f a,
    fclass_ne_of_not_nan (isNaN_i2f a), fclass_ne_of_not_nan (isNaN_u2f a)⟩
  cases hres : r with
  | none => rw [Option.getD_none, fclass_nanResult]; decide
  | some w => exact fclass_ne_of_not_nan (notNaN_arithResults a b c r hr w hres)

/-! ## Conversion there and back (R324 (6)) -/

/-- A magnitude of at most 2^24 has a significand of 24 bits. -/
theorem exists_significand {n : Nat} (hpos : 0 < n) (hle : n ≤ 2 ^ 24) :
    ∃ m e, 2 ^ 23 ≤ m ∧ m < 2 ^ 24 ∧ 1 ≤ e ∧ e ≤ 254 ∧ n * quanta = m * 2 ^ (e - 1) := by
  rcases hle.lt_or_eq with hlt | rfl
  · have hlog : Nat.log2 n < 24 := (Nat.log2_lt hpos.ne').mpr hlt
    have hlow : 2 ^ Nat.log2 n ≤ n := Nat.log2_self_le hpos.ne'
    have hhigh : n < 2 ^ (Nat.log2 n + 1) := Nat.lt_log2_self
    refine ⟨n * 2 ^ (23 - Nat.log2 n), 127 + Nat.log2 n, ?_, ?_, by omega, by omega, ?_⟩
    · calc 2 ^ 23 = 2 ^ Nat.log2 n * 2 ^ (23 - Nat.log2 n) := by rw [← pow_add]; congr 1; omega
        _ ≤ n * 2 ^ (23 - Nat.log2 n) := Nat.mul_le_mul_right _ hlow
    · calc n * 2 ^ (23 - Nat.log2 n) < 2 ^ (Nat.log2 n + 1) * 2 ^ (23 - Nat.log2 n) :=
            Nat.mul_lt_mul_of_pos_right hhigh (by positivity)
        _ = 2 ^ 24 := by rw [← pow_add]; congr 1; omega
    · rw [quanta, mul_assoc, ← pow_add]; congr 2; omega
  · exact ⟨2 ^ 23, 151, le_rfl, by decide, by decide, by decide, by rw [quanta, ← pow_add, ← pow_add]⟩

/-- FCVT.S.W is exact up to 2^24. -/
theorem i2f_exact {a : Word} (hle : a.toInt.natAbs ≤ 2 ^ 24) :
    value (i2f a) = a.toInt * quanta ∧ fExp (i2f a) ≠ 255 := by
  rcases eq_or_ne a 0#32 with rfl | ha
  · decide
  have hpos : 0 < a.toInt.natAbs := Int.natAbs_pos.mpr fun h => ha (BitVec.eq_of_toInt_eq h)
  obtain ⟨m, e, hlow, hhigh, he, he', heq⟩ := exists_significand hpos hle
  have hexp := fExp_pack (decide (a.toInt < 0)) e (m - 2 ^ 23) (by omega)
  have hfrac := fFrac_pack (decide (a.toInt < 0)) e (m - 2 ^ 23) (by omega)
  have hsign := fSign_pack (decide (a.toInt < 0)) e (m - 2 ^ 23)
  generalize pack (decide (a.toInt < 0)) e (m - 2 ^ 23) = v at *
  have hmag : magnitude v = a.toInt.natAbs * quanta := by
    rw [magnitude, hexp, hfrac, if_neg (by omega), heq, Nat.add_sub_cancel' hlow]
  have hval : value v = a.toInt * quanta := by
    rw [value, hsign, hmag]
    push_cast
    split_ifs with hneg <;> rw [decide_eq_true_iff] at hneg
    · rw [abs_of_neg hneg]; ring
    · rw [abs_of_nonneg (not_lt.mp hneg)]
  have hzero : isZero v = false := Bool.not_eq_true _ ▸ fun h => absurd (isZero_iff.mp h).1 (by omega)
  have hround : i2f a = v := by rw [i2f, if_neg ha, ← hval, roundInt_value (by omega) hzero]
  exact hround ▸ ⟨hval, by omega⟩

theorem rintMagnitude_mul_quanta (mode : F2IRound) (n : Nat) : rintMagnitude mode (n * quanta) = n := by
  cases mode with
  | rne => exact rneDiv_mul n quanta_pos
  | rtz => exact Nat.mul_div_cancel n quanta_pos

/-- An integer value is its own rounding. -/
theorem rint_of_value {v : Word} {k : ℤ} (hv : value v = k * quanta) (mode : F2IRound) : rint mode v = k := by
  have hmag : magnitude v = k.natAbs * quanta := by rw [← natAbs_value, hv, Int.natAbs_mul, Int.natAbs_natCast]
  have hcancel : ∀ {x y : ℤ}, x * quanta = y * quanta → x = y :=
    fun h => mul_right_cancel₀ (Int.natCast_ne_zero.mpr quanta_pos.ne') h
  rw [rint_eq, hmag, rintMagnitude_mul_quanta]
  rw [value, hmag] at hv
  split_ifs at hv ⊢ <;> refine hcancel ?_ <;> rw [← hv] <;> push_cast <;> ring

theorem f2i_of_rint {v : Word} {mode : F2IRound} {a : Word} (hexp : fExp v ≠ 255) (hrint : rint mode v = a.toInt) :
    f2i mode v = a := by
  have hlow : -2 ^ 31 ≤ a.toInt := BitVec.le_toInt a
  have hhigh : a.toInt < 2 ^ 31 := BitVec.toInt_lt
  have hnan : isNaN v = false := decide_eq_false fun h => hexp h.1
  have hinf : isInf v = false := decide_eq_false fun h => hexp h.1
  rw [f2i, hnan, hinf, hrint, if_neg Bool.false_ne_true, if_neg Bool.false_ne_true, if_neg (by omega), if_neg (by omega),
    BitVec.ofInt_toInt]

theorem f2i_i2f (mode : F2IRound) {a : Word} (hle : a.toInt.natAbs ≤ 2 ^ 24) : f2i mode (i2f a) = a := by
  obtain ⟨hval, hexp⟩ := i2f_exact hle
  exact f2i_of_rint hexp (rint_of_value hval mode)

/-- R324 (6). -/
theorem lawConvertRoundTrip : LawConvertRoundTrip := by
  refine ⟨fun mode a => f2i_i2f mode, fun s rs fd rd rm rm' hle => ⟨_, _, rfl, rfl, ?_⟩⟩
  rw [(endX_finishX _ rd _).x rd, (endF_finishF s fd _).f fd, if_pos rfl, f2i_i2f _ hle]
  by_cases hrd : rd = 0#5
  · subst hrd; simp [State.readX]
  · simp [hrd]

/-- Settles O59: the eight laws, and the decoder's equation for `rm`. -/
theorem floatUnitLaws : Obligations.FloatUnitLaws :=
  ⟨lawMoveRoundTrip, lawClassOneBit, lawFloatFrame, lawCommutes, lawNoSignallingNan, lawConvertRoundTrip, lawSignInjection,
    lawRmWithoutEffect, fun _ _ _ _ _ hi hj => decodeWord_withRm hi hj⟩

end Machine
end Sys2Proof
